-- ==== Sys2Proof/Word.lean ====
section
/-!
DEFINITION. The element and word types of TR1-CODEC (00_scope.md R11, R12).
-/

namespace Sys2Proof

/-- A 16-bit command or register word (00_scope.md R12, 30_encoding.md R80). -/
abbrev Word := BitVec 16

/-- The 6-bit opcode field OP (30_encoding.md R80). -/
abbrev Opcode := BitVec 6

/-- A 2-bit selector code: a SEL field or an ARG field (10_state.md R22, 30_encoding.md R81). -/
abbrev Code := BitVec 2

/-- A Bit of a sequence, `false` for 0 and `true` for 1 (00_scope.md R11). -/
abbrev Bit := Bool

/-- A Byte; `bytebits` writes it most significant bit first (00_scope.md R11, 20_memory.md R61). -/
abbrev Byte := BitVec 8

/-- The 2-bit code that stores a LEVEL element (10_state.md R28). -/
abbrev LevelCode := BitVec 2

/-- A Level, one of −1, 0, +1 (00_scope.md R11). -/
inductive Level
  | neg
  | zero
  | pos
deriving DecidableEq, Repr

/-- A polarity, +1 or −1: the AMI accumulator's type (43_line_coding.md R221). -/
inductive Polarity
  | plus
  | minus
deriving DecidableEq, Repr

/-- FRM, the framing selector (00_scope.md R3, 10_state.md R22). -/
inductive Framing
  | lengthPrefix
  | byteStuffing
  | bitStuffing
deriving DecidableEq, Repr

/-- DET, the detection selector (00_scope.md R3, 10_state.md R22). -/
inductive Detection
  | none
  | parity
  | crc
deriving DecidableEq, Repr

/-- COR, the correction selector (00_scope.md R3, 10_state.md R22). -/
inductive Correction
  | none
  | hamming
deriving DecidableEq, Repr

/-- LC, the line code selector (00_scope.md R3, 10_state.md R22). -/
inductive LineCode
  | nrz
  | man
  | ami
deriving DecidableEq, Repr

/-- CAR, the carrier selector (00_scope.md R3, 10_state.md R22). -/
inductive Carrier
  | ask
  | fsk
  | qam
deriving DecidableEq, Repr

end Sys2Proof
end

