-- ==== Sys2Proof/Syntax.lean ====
section
/-!
DEFINITION. The 32 commands of TR1-CODEC, one constructor per row of spec/opcode_table.json (30_encoding.md R83).
-/

namespace Sys2Proof

/-- A command word's meaning as syntax. SETSEL carries its five raw field codes, because SETSEL itself
checks them (30_encoding.md R84, 45_pipeline.md R290); a carrier command carries its raw LC code
(30_encoding.md R81). -/
inductive Instr
  /-- SETSEL, 45_pipeline.md R290. -/
  | setsel (car lc cor det frm : Code)
  /-- XFER, 45_pipeline.md R291. -/
  | xfer
  /-- T2B, 40_codec.md R110. -/
  | t2b
  /-- B2T, 40_codec.md R112. -/
  | b2t
  /-- FRM_LP, 41_framing.md R131, R133. -/
  | frmLp
  /-- DFR_LP, 41_framing.md R132, R134. -/
  | dfrLp
  /-- FRM_BYTE, 41_framing.md R141. -/
  | frmByte
  /-- DFR_BYTE, 41_framing.md R143. -/
  | dfrByte
  /-- FRM_BIT, 41_framing.md R151. -/
  | frmBit
  /-- DFR_BIT, 41_framing.md R152. -/
  | dfrBit
  /-- PAR_ENC, 42_error_control.md R170. -/
  | parEnc
  /-- PAR_DEC, 42_error_control.md R171. -/
  | parDec
  /-- CRC_ENC, 42_error_control.md R182. -/
  | crcEnc
  /-- CRC_DEC, 42_error_control.md R183. -/
  | crcDec
  /-- HAM_ENC, 42_error_control.md R191. -/
  | hamEnc
  /-- HAM_DEC, 42_error_control.md R194. -/
  | hamDec
  /-- NRZ_ENC, 43_line_coding.md R210. -/
  | nrzEnc
  /-- NRZ_DEC, 43_line_coding.md R211. -/
  | nrzDec
  /-- MAN_ENC, 43_line_coding.md R213. -/
  | manEnc
  /-- MAN_DEC, 43_line_coding.md R214. -/
  | manDec
  /-- AMI_ENC, 43_line_coding.md R222. -/
  | amiEnc
  /-- AMI_DEC, 43_line_coding.md R223. -/
  | amiDec
  /-- ASK_MOD, 44_modulation.md R251. -/
  | askMod (lc : Code)
  /-- ASK_DEM, 44_modulation.md R252. -/
  | askDem (lc : Code)
  /-- FSK_MOD, 44_modulation.md R256. -/
  | fskMod (lc : Code)
  /-- FSK_DEM, 44_modulation.md R257. -/
  | fskDem (lc : Code)
  /-- QAM_MOD, 44_modulation.md R263. -/
  | qamMod (lc : Code)
  /-- QAM_DEM, 44_modulation.md R265. -/
  | qamDem (lc : Code)
  /-- ENCODE, 45_pipeline.md R292. -/
  | encode
  /-- DECODE, 45_pipeline.md R293. -/
  | decode
  /-- MODULATE, 45_pipeline.md R294. -/
  | modulate
  /-- DEMODULATE, 45_pipeline.md R295. -/
  | demodulate
deriving DecidableEq, Repr

end Sys2Proof
end

