-- ==== Sys2Proof/WellFormed.lean ====
section
/-!
DEFINITION. Which commands a command word can carry (30_encoding.md R84).
-/

namespace Sys2Proof

/-- A command is well formed when some word decodes to it: the LC code of a format C command is not 3.
The field codes of SETSEL are not restricted here: a word that carries a reserved one decodes, and SETSEL
rejects it (30_encoding.md R84, 45_pipeline.md R290). -/
def Instr.wellFormed : Instr → Bool
  | .setsel _ _ _ _ _ => true
  | .xfer => true
  | .t2b => true
  | .b2t => true
  | .frmLp => true
  | .dfrLp => true
  | .frmByte => true
  | .dfrByte => true
  | .frmBit => true
  | .dfrBit => true
  | .parEnc => true
  | .parDec => true
  | .crcEnc => true
  | .crcDec => true
  | .hamEnc => true
  | .hamDec => true
  | .nrzEnc => true
  | .nrzDec => true
  | .manEnc => true
  | .manDec => true
  | .amiEnc => true
  | .amiDec => true
  | .askMod lc => lc != 3#2
  | .askDem lc => lc != 3#2
  | .fskMod lc => lc != 3#2
  | .fskDem lc => lc != 3#2
  | .qamMod lc => lc != 3#2
  | .qamDem lc => lc != 3#2
  | .encode => true
  | .decode => true
  | .modulate => true
  | .demodulate => true

end Sys2Proof
end

