-- ==== Sys2Proof/Decode.lean ====
section
/-!
DEFINITION. The command decoder and the encoder (30_encoding.md R80 to R87). A word is never stored: the host
presents it (10_state.md R35), so decoding takes the word itself.
-/

namespace Sys2Proof

/-- Why a word is no command (30_encoding.md R84). Each raises ConfigurationError with STAGE = command. -/
inductive Reject
  /-- OP is not in the table of R83 (R85). -/
  | reservedOpcode
  /-- A format N word has a nonzero ARG. -/
  | nonzeroArgument
  /-- A format C word has a nonzero must-be-zero ARG bit. -/
  | nonzeroReservedBit
  /-- A format C word has LC = 3. -/
  | reservedLineCode
deriving DecidableEq, Repr

/-- OP, `w[15:10]` (30_encoding.md R80). -/
def opField (w : Word) : Opcode := w.extractLsb' 10 6

/-- ARG, `w[9:0]` (30_encoding.md R80). -/
def argField (w : Word) : BitVec 10 := w.extractLsb' 0 10

/-- `w[9:8]`: CAR in format S (30_encoding.md R81). -/
def carField (w : Word) : Code := w.extractLsb' 8 2

/-- `w[7:6]`: LC in formats S and C (30_encoding.md R81). -/
def lcField (w : Word) : Code := w.extractLsb' 6 2

/-- `w[5:4]`: COR in format S (30_encoding.md R81). -/
def corField (w : Word) : Code := w.extractLsb' 4 2

/-- `w[3:2]`: DET in format S (30_encoding.md R81). -/
def detField (w : Word) : Code := w.extractLsb' 2 2

/-- `w[1:0]`: FRM in format S (30_encoding.md R81). -/
def frmField (w : Word) : Code := w.extractLsb' 0 2

/-- Format N: ARG must be 0 (30_encoding.md R81, R84). -/
def formatN (w : Word) (i : Instr) : Except Reject Instr :=
  if argField w = 0#10 then .ok i else .error .nonzeroArgument

/-- Format C: ARG[9:8] and ARG[5:0] must be 0 and LC must not be 3 (30_encoding.md R81, R84). -/
def formatC (w : Word) (i : Code → Instr) : Except Reject Instr :=
  if carField w ≠ 0#2 ∨ w.extractLsb' 0 6 ≠ 0#6 then .error .nonzeroReservedBit
  else if lcField w = 3#2 then .error .reservedLineCode
  else .ok (i (lcField w))

/-- Format S: no check, the field checks are SETSEL's own (30_encoding.md R84). -/
def formatS (w : Word) : Except Reject Instr :=
  .ok (.setsel (carField w) (lcField w) (corField w) (detField w) (frmField w))

/-- Decoding in the order of 30_encoding.md R84, by the table of R83. -/
def decode (w : Word) : Except Reject Instr :=
  match (opField w).toNat with
  | 0x01 => formatS w
  | 0x02 => formatN w .xfer
  | 0x04 => formatN w .t2b
  | 0x05 => formatN w .b2t
  | 0x08 => formatN w .frmLp
  | 0x09 => formatN w .dfrLp
  | 0x0A => formatN w .frmByte
  | 0x0B => formatN w .dfrByte
  | 0x0C => formatN w .frmBit
  | 0x0D => formatN w .dfrBit
  | 0x10 => formatN w .parEnc
  | 0x11 => formatN w .parDec
  | 0x12 => formatN w .crcEnc
  | 0x13 => formatN w .crcDec
  | 0x14 => formatN w .hamEnc
  | 0x15 => formatN w .hamDec
  | 0x18 => formatN w .nrzEnc
  | 0x19 => formatN w .nrzDec
  | 0x1A => formatN w .manEnc
  | 0x1B => formatN w .manDec
  | 0x1C => formatN w .amiEnc
  | 0x1D => formatN w .amiDec
  | 0x20 => formatC w .askMod
  | 0x21 => formatC w .askDem
  | 0x22 => formatC w .fskMod
  | 0x23 => formatC w .fskDem
  | 0x24 => formatC w .qamMod
  | 0x25 => formatC w .qamDem
  | 0x30 => formatN w .encode
  | 0x31 => formatN w .decode
  | 0x32 => formatN w .modulate
  | 0x33 => formatN w .demodulate
  | _ => .error .reservedOpcode

/-- The opcode of each command (30_encoding.md R83). -/
def Instr.opcode : Instr → Opcode
  | .setsel _ _ _ _ _ => 0x01#6
  | .xfer => 0x02#6
  | .t2b => 0x04#6
  | .b2t => 0x05#6
  | .frmLp => 0x08#6
  | .dfrLp => 0x09#6
  | .frmByte => 0x0A#6
  | .dfrByte => 0x0B#6
  | .frmBit => 0x0C#6
  | .dfrBit => 0x0D#6
  | .parEnc => 0x10#6
  | .parDec => 0x11#6
  | .crcEnc => 0x12#6
  | .crcDec => 0x13#6
  | .hamEnc => 0x14#6
  | .hamDec => 0x15#6
  | .nrzEnc => 0x18#6
  | .nrzDec => 0x19#6
  | .manEnc => 0x1A#6
  | .manDec => 0x1B#6
  | .amiEnc => 0x1C#6
  | .amiDec => 0x1D#6
  | .askMod _ => 0x20#6
  | .askDem _ => 0x21#6
  | .fskMod _ => 0x22#6
  | .fskDem _ => 0x23#6
  | .qamMod _ => 0x24#6
  | .qamDem _ => 0x25#6
  | .encode => 0x30#6
  | .decode => 0x31#6
  | .modulate => 0x32#6
  | .demodulate => 0x33#6

/-- ARG of format S: CAR, LC, COR, DET, FRM from the top (30_encoding.md R81, R87). -/
def selectorArgument (car lc cor det frm : Code) : BitVec 10 :=
  car ++ lc ++ cor ++ det ++ frm

/-- ARG of format C: LC in ARG[7:6], every other bit 0 (30_encoding.md R81, R87). -/
def carrierArgument (lc : Code) : BitVec 10 :=
  0#2 ++ lc ++ 0#6

/-- ARG of each command (30_encoding.md R81). -/
def Instr.argument : Instr → BitVec 10
  | .setsel car lc cor det frm => selectorArgument car lc cor det frm
  | .xfer => 0#10
  | .t2b => 0#10
  | .b2t => 0#10
  | .frmLp => 0#10
  | .dfrLp => 0#10
  | .frmByte => 0#10
  | .dfrByte => 0#10
  | .frmBit => 0#10
  | .dfrBit => 0#10
  | .parEnc => 0#10
  | .parDec => 0#10
  | .crcEnc => 0#10
  | .crcDec => 0#10
  | .hamEnc => 0#10
  | .hamDec => 0#10
  | .nrzEnc => 0#10
  | .nrzDec => 0#10
  | .manEnc => 0#10
  | .manDec => 0#10
  | .amiEnc => 0#10
  | .amiDec => 0#10
  | .askMod lc => carrierArgument lc
  | .askDem lc => carrierArgument lc
  | .fskMod lc => carrierArgument lc
  | .fskDem lc => carrierArgument lc
  | .qamMod lc => carrierArgument lc
  | .qamDem lc => carrierArgument lc
  | .encode => 0#10
  | .decode => 0#10
  | .modulate => 0#10
  | .demodulate => 0#10

/-- The command word of a command: OP then ARG (30_encoding.md R80, R87). -/
def encode (i : Instr) : Word := i.opcode ++ i.argument

/-- What the decoder reads from an opcode-table row's bits: the low `nbits` bits of `w` as one command word
(bits above `nbits` are 0); `none` where the word is rejected, or where bits remain above the 16 of a word. -/
def decodeTableWord (nbits w : Nat) : Option Instr :=
  let bits := w % 2 ^ nbits
  if bits < 2 ^ 16 then
    match decode (BitVec.ofNat 16 bits) with
    | .ok i => some i
    | .error _ => none
  else none

end Sys2Proof
end

