-- ==== Sys2Proof/Machine/Sample.lean ====
section
/-!
DEFINITION. NUM, the sample number format, and SINTAB (00_scope.md R8, R11, R14; 44_modulation.md R241).

Both are parameters of 00_scope.md R8. `NumFormat ν` is a NUM whose numbers are of type ν; the bodies of the carrier
commands take it, and SINTAB, as arguments, whatever ν is, the ideal real numbers among them (`idealFormat` in
Safety.lean). State must hold samples as plain data with decidable equality, which the real numbers are not.
DESIGN CHOICE (log 4): its samples are of type `Sample`, the field of exact real numbers that the ideal SINTAB generates
over the rationals. It holds every rational, so every number of every finite format, and every ideal carrier sample; it is
closed under every operation of 44_modulation.md, and equality and order on it are decided exactly. The build's NUM is
the whole of this field (`NumFormat.exact`), with R14's exact comparisons.

Write C(n) for cos(2π·n/100). A number is a rational combination of C(0), ..., C(19), which are linearly
independent over the rationals. An operation first writes its result down as a combination of any C(n)
(a `CosSum`), with 2·C(a)·C(b) = C(a + b) + C(a − b), and then brings that to the one canonical form.
-/

namespace Sys2Proof

/-- NUM (00_scope.md R8, R11, R14; 93_implementation_defined.md U9, U10): the real arithmetic in which decisions are made,
on numbers of type ν, and the format: which of these numbers it holds and where it settles no comparison. -/
structure NumFormat (ν : Type) where
  /-- Whether a number is one of the format (00_scope.md R11). -/
  holds : ν → Bool
  /-- The number of the format that is stored for a sample a modulator computes. -/
  store : ν → ν
  /-- The number 0. -/
  zero : ν
  /-- A rational number. -/
  ofRat : Rat → ν
  /-- Multiplication by a rational. -/
  scale : Rat → ν → ν
  /-- Addition. -/
  add : ν → ν → ν
  /-- Multiplication. -/
  mul : ν → ν → ν
  /-- |x|. -/
  abs : ν → ν
  /-- The sum of a sequence. -/
  sum : List ν → ν
  /-- The sum over k of w[k]·g(k). -/
  inner : List ν → (Nat → ν) → ν
  /-- The exact order of two numbers (00_scope.md R14). -/
  order : ν → ν → Ordering
  /-- Whether a comparison made on a window lies within the format's rounding error, so that it is a draw
  (93_implementation_defined.md U9). -/
  near : List ν → ν → ν → Bool
  /-- The outcome of such a draw, any function of the window and the two numbers (00_scope.md R7, log 5). -/
  draw : List ν → ν → ν → Ordering

/-- A comparison of a demodulator on a window: exact, or U9's draw where the format settles nothing
(00_scope.md R14, 93_implementation_defined.md U9). -/
def NumFormat.compare {ν : Type} (n : NumFormat ν) (w : List ν) (x y : ν) : Ordering :=
  if n.near w x y then n.draw w x y else n.order x y

end Sys2Proof

namespace Sys2Proof.Machine

/-- A finite sum of terms (n, c), each standing for c·cos(2π·n/100); n is any natural number. -/
abbrev CosSum := List (Nat × Rat)

/-- A Sample: a number in format NUM (00_scope.md R11). Its terms are a canonical `CosSum`. -/
structure Sample where
  terms : CosSum
deriving DecidableEq, Repr

/-- The canonical form: indices strictly rising and below 20, no zero coefficient. Two canonical samples are
the same number exactly when they are the same data. -/
abbrev Sample.Canonical (x : Sample) : Prop :=
  x.terms.Pairwise (fun p q => p.1 < q.1) ∧ ∀ p ∈ x.terms, p.1 < 20 ∧ p.2 ≠ 0

/-- C(n) = C(n mod 100), C(100 − n) = C(n) and C(50 − n) = −C(n) bring an index to 0..25. -/
def foldTerm (p : Nat × Rat) : Nat × Rat :=
  let m := p.1 % 100
  if m ≤ 25 then (m, p.2)
  else if m ≤ 50 then (50 - m, -p.2)
  else if m < 75 then (m - 50, -p.2)
  else (100 - m, p.2)

/-- C(25) = 0, and the relations of degree 20: C(20) = C(10) − C(0)/2, and for i in 1..4
C(20 + i) = C(10 + i) + C(10 − i) − C(i) − C(20 − i). -/
def reduceTerm (p : Nat × Rat) : CosSum :=
  if p.1 < 20 then [p]
  else if p.1 = 20 then [(0, -p.2 / 2), (10, p.2)]
  else if p.1 < 25 then [(p.1 - 20, -p.2), (30 - p.1, p.2), (p.1 - 10, p.2), (40 - p.1, -p.2)]
  else []

/-- Adds one term to a sum with rising indices and no zero coefficient. -/
def putTerm (j : Nat) (c : Rat) : CosSum → CosSum
  | [] => if c = 0 then [] else [(j, c)]
  | (i, d) :: t =>
    if j < i then (if c = 0 then (i, d) :: t else (j, c) :: (i, d) :: t)
    else if j = i then (if c + d = 0 then t else (i, c + d) :: t)
    else (i, d) :: putTerm j c t

/-- Collects the terms of one index, in rising order of index. -/
def collect (r : CosSum) : CosSum :=
  r.foldr (fun p acc => putTerm p.1 p.2 acc) []

/-- The number a sum stands for, in canonical form. -/
def ofSum (r : CosSum) : Sample :=
  ⟨collect ((collect (r.map foldTerm)).flatMap reduceTerm)⟩

/-- Every term multiplied by a rational. -/
def scaleSum (c : Rat) (r : CosSum) : CosSum :=
  r.map fun p => (p.1, c * p.2)

/-- The product of two sums, by C(a)·C(b) = (C(a + b) + C(|a − b|))/2. -/
def mulSum (x y : CosSum) : CosSum :=
  x.flatMap fun p => y.flatMap fun q =>
    let c := p.2 * q.2 / 2
    [(p.1 + q.1, c), (if p.1 ≤ q.1 then q.1 - p.1 else p.1 - q.1, c)]

/-- The number 0. -/
def Sample.zero : Sample := ⟨[]⟩

/-- A rational number as a sample. -/
def Sample.ofRat (q : Rat) : Sample := ofSum [(0, q)]

/-- Addition. -/
def Sample.add (x y : Sample) : Sample := ofSum (x.terms ++ y.terms)

/-- Multiplication by a rational. -/
def Sample.scale (c : Rat) (x : Sample) : Sample := ofSum (scaleSum c x.terms)

/-- Subtraction. -/
def Sample.sub (x y : Sample) : Sample := ofSum (x.terms ++ scaleSum (-1) y.terms)

/-- Multiplication. -/
def Sample.mul (x y : Sample) : Sample := ofSum (mulSum x.terms y.terms)

/-- The sum of a sequence of samples. -/
def Sample.sum (xs : List Sample) : Sample := ofSum (xs.flatMap Sample.terms)

/-- sin(2π·m/100) = C(m + 75), exactly (44_modulation.md R241). -/
def SIN (m : Nat) : Sample := ofSum [(m % 100 + 75, 1)]

/-- The ideal SINTAB: entry m is exactly sin(2π·m/100) (00_scope.md R8, 10_state.md R33, 44_modulation.md R241). -/
def SINTAB (m : Fin 100) : Sample := SIN m.val

/-- The sum over k of w[k]·g(k), k counted from `k`, as a sum. -/
def innerSum (g : Nat → Sample) : Nat → List Sample → CosSum
  | _, [] => []
  | k, x :: w => mulSum x.terms (g k).terms ++ innerSum g (k + 1) w

/-- The sum over k of w[k]·g(k). -/
def Sample.inner (w : List Sample) (g : Nat → Sample) : Sample := ofSum (innerSum g 0 w)

/-! ### Exact sign

C(1) is the largest root of the Chebyshev polynomial T₂₅, which is positive above it; C(j) = T_j(C(1)), and for
j ≤ 19 every T_j is increasing at and above C(1)'s starting enclosure. So a rational enclosure lo ≤ C(1) ≤ hi
gives T_j(lo) ≤ C(j) ≤ T_j(hi), and bisection by the sign of T₂₅ refines it as far as is needed. -/

/-- T_0(x), T_1(x), ... by T_{k+1} = 2x·T_k − T_{k−1}, `n` of them, from two consecutive values. -/
def chebyshevFrom (x : Rat) : Nat → Rat → Rat → List Rat
  | 0, _, _ => []
  | n + 1, a, b => a :: chebyshevFrom x n b (2 * x * b - a)

/-- T_0(x), ..., T_{n−1}(x). -/
def chebyshev (x : Rat) (n : Nat) : List Rat := chebyshevFrom x n 1 x

/-- The least value of a canonical sum when each C(j) lies between entry j of `lo` and entry j of `hi`; with
`lo` and `hi` exchanged, the greatest. -/
def enclose (lo hi : List Rat) (r : CosSum) : Rat :=
  r.foldr (fun p acc => p.2 * (if 0 ≤ p.2 then lo.getD p.1 0 else hi.getD p.1 0) + acc) 0

/-- The sign of a canonical sum, from an enclosure of C(1), bisecting at most `fuel` times. -/
def signFrom (r : CosSum) : Nat → Rat → Rat → SignType
  | 0, _, _ => .zero
  | fuel + 1, lo, hi =>
    if 0 < enclose (chebyshev lo 20) (chebyshev hi 20) r then .pos
    else if enclose (chebyshev hi 20) (chebyshev lo 20) r < 0 then .neg
    else
      let mid := (lo + hi) / 2
      if 0 < (chebyshev mid 26).getD 25 0 then signFrom r fuel lo mid else signFrom r fuel mid hi

/-- A common denominator of the coefficients. -/
def commonDenominator (r : CosSum) : Nat :=
  r.foldr (fun p acc => Nat.lcm p.2.den acc) 1

/-- A bound on 2D·x and on every conjugate of it, where D is the common denominator: 2D·Σ|c|. -/
def conjugateBound (r : CosSum) : Nat :=
  r.foldr (fun p acc => 2 * (p.2.num.natAbs * (commonDenominator r / p.2.den)) + acc) 0

/-- How many bisections settle the sign of a nonzero number: 2D·x is an algebraic integer whose conjugates are
at most M = `conjugateBound`, so |2D·x| ≥ 1/M^39 (log 4). -/
def signFuel (r : CosSum) : Nat := 40 * (Nat.log2 (conjugateBound r) + 1)

/-- C(1) = 0.998026728428... lies between these. -/
def cosLow : Rat := 998026728 / 1000000000

/-- See `cosLow`. -/
def cosHigh : Rat := 998026729 / 1000000000

/-- The sign of a number (00_scope.md R14: every comparison is exact). -/
def Sample.sign (x : Sample) : SignType :=
  if x.terms = [] then .zero else signFrom x.terms (signFuel x.terms) cosLow cosHigh

/-- The order of two numbers, exactly (00_scope.md R14). -/
def Sample.order (x y : Sample) : Ordering :=
  match (x.sub y).sign with
  | .pos => .gt
  | .zero => .eq
  | .neg => .lt

/-- |x|. -/
def Sample.abs (x : Sample) : Sample := if x.order .zero = .lt then x.scale (-1) else x

end Sys2Proof.Machine

namespace Sys2Proof

/-- The build's NUM: every number of the field, in its one canonical form, stored and compared exactly (log 4, log 5). -/
def NumFormat.exact : NumFormat Machine.Sample where
  holds x := decide x.Canonical
  store x := x
  zero := Machine.Sample.zero
  ofRat := Machine.Sample.ofRat
  scale := Machine.Sample.scale
  add := Machine.Sample.add
  mul := Machine.Sample.mul
  abs := Machine.Sample.abs
  sum := Machine.Sample.sum
  inner := Machine.Sample.inner
  order := Machine.Sample.order
  near _ _ _ := false
  draw _ _ _ := .eq

end Sys2Proof
end

