-- ==== Sys2Proof/Config.lean ====
section
/-!
DEFINITION. The parameters a build of the block fixes (00_scope.md R8, R9), NUM and SINTAB among them.
-/

namespace Sys2Proof

/-- LP_MODE (00_scope.md R8, 41_framing.md R130, R133). -/
inductive LpMode
  | fixed
  | reference
deriving DecidableEq, Repr

/-- The parameters of 00_scope.md R8 that the spec decides or leaves OPEN, for a build whose samples are numbers of type ν,
with R8's values as defaults. Those that R8 takes from TR1 (N_SPS, CRC_GEN, the Hamming code, the Manchester clock, the
ASK thresholds) are constants where they are used. -/
structure Params (ν : Type) where
  /-- NUM, OPEN, D32 (log 4). -/
  num : NumFormat ν
  /-- SINTAB, D25; D32 gives its accuracy (log 7). -/
  sintab : Fin 100 → ν
  /-- LP_MODE, D9. -/
  lpMode : LpMode := .fixed
  /-- LP_DIGITS, D9. -/
  lpDigits : Nat := 4
  /-- FLAG, D12. -/
  flag : Byte := 0x7E#8
  /-- ESC, D12. -/
  esc : Byte := 0x7D#8
  /-- AMI_START, D22. -/
  amiStart : Polarity := .plus
  /-- A_ASK, the ASK carrier amplitude, D25. -/
  aAsk : Rat := 1
  /-- A_FSK, the FSK carrier amplitude, D25. -/
  aFsk : Rat := 1
  /-- F_ASK in cycles per window, D25. -/
  fAsk : Nat := 2
  /-- F_FSK1 in cycles per window, D25. -/
  fFsk1 : Nat := 4
  /-- F_FSK2 in cycles per window, D25. -/
  fFsk2 : Nat := 2
  /-- F_QAM in cycles per window, D25. -/
  fQam : Nat := 2
  /-- MAX_LEN in elements, D33; `none` is unbounded (10_state.md R30, log 6). -/
  maxLen : Option Nat := none

/-- SIN(m) = SINTAB[m mod 100] (00_scope.md R13, 44_modulation.md R241). -/
def Params.sin {ν : Type} (p : Params ν) (m : Nat) : ν := p.sintab (Fin.ofNat 100 m)

/-- COS(m) = SIN(m + 25) (00_scope.md R13). -/
def Params.cos {ν : Type} (p : Params ν) (m : Nat) : ν := p.sin (m + 25)

/-- The constraints between parameters (00_scope.md R9). FLAG[7], the last bit sent, is bit 0 of the byte. -/
abbrev Params.Conforms {ν : Type} (p : Params ν) : Prop :=
  3 ≤ p.lpDigits ∧ p.flag.getLsbD 0 = false ∧ p.fFsk1 ≠ p.fFsk2 ∧
    (1 ≤ p.fAsk ∧ p.fAsk ≤ 49) ∧ (1 ≤ p.fFsk1 ∧ p.fFsk1 ≤ 49) ∧
    (1 ≤ p.fFsk2 ∧ p.fFsk2 ≤ 49) ∧ (1 ≤ p.fQam ∧ p.fQam ≤ 49)

/-- SINTAB and the samples a modulator sends are numbers of NUM (00_scope.md R11, 44_modulation.md R241). -/
def Params.InFormat {ν : Type} (p : Params ν) : Prop :=
  (∀ m, p.num.holds (p.sintab m) = true) ∧ p.num.holds p.num.zero = true ∧
    ∀ a m, p.num.holds (p.num.store (p.num.scale a (p.sin m))) = true

/-- The build this model executes: every parameter at the value of 00_scope.md R8, NUM exact (log 4), MAX_LEN unbounded
(log 6). -/
def Config.build : Params Machine.Sample := { num := .exact, sintab := Machine.SINTAB }

/-- N_SPS, the samples of one window (00_scope.md R8, 44_modulation.md R240). -/
def Config.nSps : Nat := 100

end Sys2Proof
end

