-- ==== Sys2Proof/Machine/State.lean ====
section
/-!
DEFINITION. The architectural state of TR1-CODEC as plain data (10_state.md R20 to R36).
-/

namespace Sys2Proof.Machine

/-- A sequence buffer: its kind tag and its sequence in one (10_state.md R27). A LEVEL element is stored as its
2-bit code (R28). Kind NONE has no sequence, and the reserved kinds 5, 6 and 7 cannot be held. -/
inductive Buffer
  | none
  | bit (seq : List Bit)
  | byte (seq : List Byte)
  | level (seq : List LevelCode)
  | sample (seq : List Sample)
deriving DecidableEq, Repr

/-- One element of a sequence the host presents (10_state.md R27, R29). -/
inductive Element
  | bit (b : Bit)
  | byte (b : Byte)
  | level (c : LevelCode)
  | sample (x : Sample)
deriving DecidableEq, Repr

/-- The error kinds of 60_exceptions.md R320. -/
inductive ErrorKind
  | framing
  | transmission
  | decode
  | constellation
  | configuration
  | signal
  | capacity
deriving DecidableEq, Repr

/-- The stages of 60_exceptions.md R321. -/
inductive Stage
  | command
  | codec
  | framing
  | detection
  | correction
  | line
  | carrier
deriving DecidableEq, Repr

/-- An error in flight inside a command: `raise kind(stage)` (00_scope.md R13). -/
structure Raise where
  kind : ErrorKind
  stage : Stage
deriving DecidableEq, Repr

/-- The result of a stage: its output or the error it raises (00_scope.md R7). -/
abbrev Result (α : Type) := Except Raise α

/-- What the host does between commands (10_state.md R29, R35; 70_reset_and_hazards.md R350, R356, R360). -/
inductive HostAction
  /-- The host presents a command word (10_state.md R35, 30_encoding.md R80). -/
  | command (w : Word)
  /-- HostLoad(kind, seq) (10_state.md R29). -/
  | load (kind : BitVec 3) (seq : List Element)
  /-- Reset() (70_reset_and_hazards.md R350). -/
  | reset
  /-- FLIP i, the test harness's channel action (95_test_vectors.md section 8, log 3). -/
  | flip (i : Nat)
deriving DecidableEq, Repr

/-- The state. The block's own state is exactly `sel`, `status`, `inBuf`, `out0` and `out1` (10_state.md R20).
`host` is the MODEL's field: the host's pending actions, oldest first (log 1). -/
structure State where
  /-- SEL, the scheme selector register (10_state.md R22). -/
  sel : Word
  /-- STATUS (10_state.md R25). -/
  status : Word
  /-- IN (10_state.md R27). -/
  inBuf : Buffer
  /-- OUT0 (10_state.md R27). -/
  out0 : Buffer
  /-- OUT1 (10_state.md R27). -/
  out1 : Buffer
  /-- The host's pending actions (log 1). -/
  host : List HostAction
deriving DecidableEq, Repr

/-- Why the machine stops: never. Every error of a command is a next state (60_exceptions.md R325), so this
type has no constructor. -/
inductive Fault
deriving DecidableEq, Repr

/-- Why an instruction is refused. -/
inductive Refusal
  /-- Raised by an arm of `exec` whose instruction has no meaning yet: no arm does. Safe: it stops. -/
  | notModelled (mnemonic : String)
deriving DecidableEq, Repr

/-- The state after reset (10_state.md R36, 70_reset_and_hazards.md R350). The host has nothing pending
(DESIGN CHOICE, log 1). -/
def State.reset : State where
  sel := 0x0000#16
  status := 0x0000#16
  inBuf := .none
  out0 := .none
  out1 := .none
  host := []

end Sys2Proof.Machine
end

