-- ==== Sys2Proof/Machine/Flags.lean ====
section
/-!
DEFINITION. The registers STATUS and SEL: their fields and codes (10_state.md R22, R25; 60_exceptions.md R320, R321).
-/

namespace Sys2Proof.Machine

/-- The ERR code of an error kind (60_exceptions.md R320). -/
def ErrorKind.code : ErrorKind → BitVec 4
  | .framing => 1#4
  | .transmission => 2#4
  | .decode => 3#4
  | .constellation => 4#4
  | .configuration => 5#4
  | .signal => 6#4
  | .capacity => 7#4

/-- The STAGE code of a stage (60_exceptions.md R321). -/
def Stage.code : Stage → BitVec 4
  | .command => 1#4
  | .codec => 2#4
  | .framing => 3#4
  | .detection => 4#4
  | .correction => 5#4
  | .line => 6#4
  | .carrier => 7#4

/-- STATUS as a whole: reserved[15:14] = 0, LASTOP[13:8], STAGE[7:4], ERR[3:0] (10_state.md R25). -/
def statusWord (op : Opcode) (stage err : BitVec 4) : Word := 0#2 ++ op ++ stage ++ err

/-- STATUS of a command that raised (60_exceptions.md R325). -/
def errorStatus (op : Opcode) (r : Raise) : Word := statusWord op r.stage.code r.kind.code

/-- STATUS of a command that raised nothing (60_exceptions.md R326). -/
def successStatus (op : Opcode) : Word := statusWord op 0#4 0#4

/-- STATUS.ERR (10_state.md R25). -/
def statusErr (w : Word) : BitVec 4 := w.extractLsb' 0 4

/-- STATUS.STAGE (10_state.md R25). -/
def statusStage (w : Word) : BitVec 4 := w.extractLsb' 4 4

/-- STATUS.LASTOP (10_state.md R25). -/
def statusLastOp (w : Word) : Opcode := w.extractLsb' 8 6

/-- SEL.FRM (10_state.md R22). -/
def selFrm (w : Word) : Code := w.extractLsb' 0 2

/-- SEL.DET (10_state.md R22). -/
def selDet (w : Word) : Code := w.extractLsb' 2 2

/-- SEL.COR (10_state.md R22). -/
def selCor (w : Word) : Code := w.extractLsb' 4 2

/-- SEL.LC (10_state.md R22). -/
def selLc (w : Word) : Code := w.extractLsb' 6 2

/-- SEL.CAR (10_state.md R22). -/
def selCar (w : Word) : Code := w.extractLsb' 8 2

/-- SEL.VALID (10_state.md R22). -/
def selValid (w : Word) : Bool := w.getLsbD 15

/-- SEL as SETSEL writes it: 0x8000 | zext_16(ARG) (45_pipeline.md R290). -/
def selWord (arg : BitVec 10) : Word := 0x8000#16 ||| arg.setWidth 16

end Sys2Proof.Machine
end

