-- ==== Sys2Proof/Machine/Operands.lean ====
section
/-!
DEFINITION. What a command reads: the selectors, its line code, IN by kind, LEVEL codes (10_state.md R22 to R28;
60_exceptions.md R322, R323).
-/

namespace Sys2Proof.Machine

/-- FRM codes (10_state.md R22); 3 is reserved. -/
def framingOf (c : Code) : Option Framing :=
  match c.toNat with
  | 0 => some .lengthPrefix
  | 1 => some .byteStuffing
  | 2 => some .bitStuffing
  | _ => none

/-- DET codes (10_state.md R22); 3 is reserved. -/
def detectionOf (c : Code) : Option Detection :=
  match c.toNat with
  | 0 => some .none
  | 1 => some .parity
  | 2 => some .crc
  | _ => none

/-- COR codes (10_state.md R22); 2 and 3 are reserved. -/
def correctionOf (c : Code) : Option Correction :=
  match c.toNat with
  | 0 => some .none
  | 1 => some .hamming
  | _ => none

/-- LC codes (10_state.md R22); 3 is reserved. -/
def lineCodeOf (c : Code) : Option LineCode :=
  match c.toNat with
  | 0 => some .nrz
  | 1 => some .man
  | 2 => some .ami
  | _ => none

/-- CAR codes (10_state.md R22); 3 is reserved. -/
def carrierOf (c : Code) : Option Carrier :=
  match c.toNat with
  | 0 => some .ask
  | 1 => some .fsk
  | 2 => some .qam
  | _ => none

/-- TR1's five Scheme Selectors (10_state.md R22). -/
structure Schemes where
  frm : Framing
  det : Detection
  cor : Correction
  lc : LineCode
  car : Carrier
deriving DecidableEq, Repr

/-- The schemes five field codes select, when none of them is reserved (10_state.md R22, R23). -/
def schemesOf (car lc cor det frm : Code) : Option Schemes :=
  match framingOf frm, detectionOf det, correctionOf cor, lineCodeOf lc, carrierOf car with
  | some f, some d, some c, some l, some a => some ⟨f, d, c, l, a⟩
  | _, _, _, _, _ => none

/-- ConfigurationError with STAGE = command (60_exceptions.md R322). -/
def configurationError : Raise := ⟨.configuration, .command⟩

/-- A composed command reads SEL: ConfigurationError when VALID = 0 (10_state.md R24). A reserved field cannot
occur (R23); in a state that no run reaches it raises ConfigurationError too (DESIGN CHOICE, log 8). -/
def State.schemes (s : State) : Result Schemes :=
  if selValid s.sel then
    match schemesOf (selCar s.sel) (selLc s.sel) (selCor s.sel) (selDet s.sel) (selFrm s.sel) with
    | some m => .ok m
    | none => .error configurationError
  else .error configurationError

/-- The LC operand of a format C command. LC = 3 is rejected when the word is decoded (30_encoding.md R84), so a
term that holds it, which no word decodes to, raises the same error. -/
def lineCodeOperand (lc : Code) : Result LineCode :=
  match lineCodeOf lc with
  | some l => .ok l
  | none => .error configurationError

/-- The kind tag of a buffer (10_state.md R27). -/
def Buffer.kind : Buffer → BitVec 3
  | .none => 0#3
  | .bit _ => 1#3
  | .byte _ => 2#3
  | .level _ => 3#3
  | .sample _ => 4#3

/-- The sequence of a buffer, element by element (10_state.md R27, 20_memory.md R60). -/
def Buffer.elements : Buffer → List Element
  | .none => []
  | .bit xs => xs.map .bit
  | .byte xs => xs.map .byte
  | .level xs => xs.map .level
  | .sample xs => xs.map .sample

/-- IN when its kind is BIT; ConfigurationError otherwise (60_exceptions.md R322). -/
def State.inBits (s : State) : Result (List Bit) :=
  match s.inBuf with
  | .bit xs => .ok xs
  | _ => .error configurationError

/-- IN when its kind is BYTE; ConfigurationError otherwise (60_exceptions.md R322). -/
def State.inBytes (s : State) : Result (List Byte) :=
  match s.inBuf with
  | .byte xs => .ok xs
  | _ => .error configurationError

/-- IN when its kind is SAMPLE; ConfigurationError otherwise (60_exceptions.md R322). -/
def State.inSamples (s : State) : Result (List Sample) :=
  match s.inBuf with
  | .sample xs => .ok xs
  | _ => .error configurationError

/-- The LEVEL code table: 00 = 0, 01 = +1, 11 = −1, 10 reserved (10_state.md R28). -/
def levelOf (c : LevelCode) : Option Level :=
  match c.toNat with
  | 0 => some .zero
  | 1 => some .pos
  | 3 => some .neg
  | _ => none

/-- The code that stores a Level (10_state.md R28); never `10`. -/
def Level.code : Level → LevelCode
  | .zero => 0b00#2
  | .pos => 0b01#2
  | .neg => 0b11#2

/-- Applies a check or a decision to every element in index order; the first that fails is the one reported
(60_exceptions.md R324). -/
def mapResult {α β : Type} (f : α → Result β) : List α → Result (List β)
  | [] => .ok []
  | a :: t =>
    match f a with
    | .error e => .error e
    | .ok b =>
      match mapResult f t with
      | .error e => .error e
      | .ok bs => .ok (b :: bs)

/-- The Levels that codes store; the first reserved code raises SignalError from the reading command's stage
(10_state.md R28, 60_exceptions.md R323). -/
def readLevels (stage : Stage) (codes : List LevelCode) : Result (List Level) :=
  mapResult (fun c => match levelOf c with
    | some l => .ok l
    | none => .error ⟨.signal, stage⟩) codes

/-- IN as Levels: ConfigurationError unless its kind is LEVEL, then SignalError at the first reserved code
(60_exceptions.md R322, R323). -/
def State.inLevels (s : State) (stage : Stage) : Result (List Level) :=
  match s.inBuf with
  | .level codes => readLevels stage codes
  | _ => .error configurationError

end Sys2Proof.Machine
end

