-- ==== Sys2Proof/Machine/Ops.lean ====
section
/-!
DEFINITION. The operations the commands share: sequences of bits, capacity, the error and success effects
(60_exceptions.md R325, R326), and the host's actions on the state (10_state.md R29; 70_reset_and_hazards.md R350).
-/

namespace Sys2Proof.Machine

/-! ### Sequences -/

/-- The 8-bit sequence of a byte, most significant bit first (00_scope.md R13). -/
def bytebits (b : Byte) : List Bit :=
  [b.getLsbD 7, b.getLsbD 6, b.getLsbD 5, b.getLsbD 4, b.getLsbD 3, b.getLsbD 2, b.getLsbD 1, b.getLsbD 0]

/-- The unsigned integer of a bit sequence read most significant bit first (00_scope.md R13). -/
def val (s : List Bit) : Nat := s.foldl (fun acc b => 2 * acc + b.toNat) 0

/-- The byte of an 8-bit sequence. -/
def bitsByte (s : List Bit) : Byte := BitVec.ofNat 8 (val s)

/-- The first `count` groups of `n` elements, counted from index 0 (20_memory.md R64). -/
def groups {α : Type} (n : Nat) : Nat → List α → List (List α)
  | 0, _ => []
  | count + 1, s => s.take n :: groups n count (s.drop n)

/-- All whole groups of `n` elements (20_memory.md R64). -/
def wholeGroups {α : Type} (n : Nat) (s : List α) : List (List α) := groups n (s.length / n) s

/-- The ungrouped tail, of fewer than `n` elements (20_memory.md R64). -/
def groupTail {α : Type} (n : Nat) (s : List α) : List α := s.drop (n * (s.length / n))

/-! ### Capacity -/

/-- Whether a buffer can hold `n` elements (10_state.md R30). -/
def fits {ν : Type} (p : Params ν) (n : Nat) : Bool :=
  match p.maxLen with
  | none => true
  | some m => decide (n ≤ m)

/-- A stage's output, or CapacityError from that stage when it is too long; tested after every check of the
stage (10_state.md R30, 60_exceptions.md R323). -/
def within {α ν : Type} (p : Params ν) (stage : Stage) (out : List α) : Result (List α) :=
  if fits p out.length then .ok out else .error ⟨.capacity, stage⟩

/-! ### The end of a command -/

/-- The error effect: STATUS records the error, OUT0 and OUT1 become (NONE, []), IN and SEL keep their values
(60_exceptions.md R325). -/
def State.raise (op : Opcode) (r : Raise) (s : State) : State :=
  { s with status := errorStatus op r, out0 := .none, out1 := .none }

/-- The success effect: STATUS records success, the outputs are as the command's rule gives
(60_exceptions.md R326, 10_state.md R32). -/
def State.succeed (op : Opcode) (o0 o1 : Buffer) (s : State) : State :=
  { s with status := successStatus op, out0 := o0, out1 := o1 }

/-- Stages in sequence: the first that raises ends the command (45_pipeline.md R296). -/
def chain {α β : Type} (r : Result α) (next : α → Result β) : Result β :=
  match r with
  | .error e => .error e
  | .ok a => next a

/-- The end of a command: the error effect of what was raised, or the success effect with OUT0 and OUT1. -/
def State.finish (op : Opcode) (r : Result (Buffer × Buffer)) (s : State) : State :=
  match r with
  | .error e => s.raise op e
  | .ok outs => s.succeed op outs.1 outs.2

/-- A command that reads an operand, applies its stages to it and writes its outputs; the checks of the operand
come before those of the stages (60_exceptions.md R323). -/
def State.runStage {α β : Type} (op : Opcode) (operand : Result α) (body : α → Result β)
    (outs : β → Buffer × Buffer) (s : State) : State :=
  s.finish op (chain operand fun x => chain (body x) fun y => .ok (outs y))

/-- OUT0 of kind BIT, OUT1 NONE (10_state.md R32). -/
def bitOutput (xs : List Bit) : Buffer × Buffer := (.bit xs, .none)

/-- OUT0 of kind BYTE, OUT1 NONE (10_state.md R32). -/
def byteOutput (xs : List Byte) : Buffer × Buffer := (.byte xs, .none)

/-- OUT0 of kind LEVEL, every Level stored as its code, OUT1 NONE (10_state.md R28, R32). -/
def levelOutput (ls : List Level) : Buffer × Buffer := (.level (ls.map Level.code), .none)

/-- OUT0 of kind SAMPLE, OUT1 NONE (10_state.md R32). -/
def sampleOutput (xs : List Sample) : Buffer × Buffer := (.sample xs, .none)

/-! ### What the host does -/

/-- A presented word that decodes to no command: ConfigurationError, STAGE = command, LASTOP = OP
(30_encoding.md R84, 60_exceptions.md R325). -/
def State.rejectWord (w : Word) (s : State) : State := s.raise (opField w) configurationError

/-- The Bits of a load of kind BIT. -/
def loadBits : List Element → Option (List Bit)
  | [] => some []
  | .bit b :: t => (loadBits t).map (b :: ·)
  | _ :: _ => none

/-- The Bytes of a load of kind BYTE. -/
def loadBytes : List Element → Option (List Byte)
  | [] => some []
  | .byte b :: t => (loadBytes t).map (b :: ·)
  | _ :: _ => none

/-- The codes of a load of kind LEVEL; the host may load the reserved code (10_state.md R28). -/
def loadLevels : List Element → Option (List LevelCode)
  | [] => some []
  | .level c :: t => (loadLevels t).map (c :: ·)
  | _ :: _ => none

/-- The Samples of a load of kind SAMPLE: each a number of NUM (00_scope.md R11). -/
def loadSamples (p : Params Sample) : List Element → Option (List Sample)
  | [] => some []
  | .sample x :: t => if p.num.holds x then (loadSamples p t).map (x :: ·) else none
  | _ :: _ => none

/-- The buffer that HostLoad(kind, seq) puts in IN: none for kind 0 or 5 to 7, or when an element is not of the
kind's type (10_state.md R27, R29). -/
def loadBuffer (p : Params Sample) (kind : BitVec 3) (seq : List Element) : Option Buffer :=
  match kind.toNat with
  | 1 => (loadBits seq).map .bit
  | 2 => (loadBytes seq).map .byte
  | 3 => (loadLevels seq).map .level
  | 4 => (loadSamples p seq).map .sample
  | _ => none

/-- HostLoad: IN takes the load, or the host port refuses it and nothing changes (10_state.md R29, R31). -/
def State.hostLoad (p : Params Sample) (kind : BitVec 3) (seq : List Element) (s : State) : State :=
  match loadBuffer p kind seq with
  | some b => if fits p seq.length then { s with inBuf := b } else s
  | none => s

/-- Reset(): every piece of the block's state at its reset value; the host's later actions are the host's
(70_reset_and_hazards.md R350). -/
def State.hostReset (s : State) : State := { State.reset with host := s.host }

/-- FLIP i: inverts element i of IN when IN is of kind BIT and i < len(IN), and touches nothing else
(95_test_vectors.md section 8; where its requirement fails it changes nothing, log 3). -/
def State.hostFlip (i : Nat) (s : State) : State :=
  match s.inBuf with
  | .bit xs => { s with inBuf := .bit (xs.modify i (!·)) }
  | _ => s

end Sys2Proof.Machine
end

