-- ==== Sys2Proof/Machine/Codec.lean ====
section
/-!
DEFINITION. The Bit/Byte Codec: T2B and B2T (40_codec.md).
-/

namespace Sys2Proof.Machine

/-- T2B's body (40_codec.md R110). It validates nothing (R111). -/
def t2b {ν : Type} (p : Params ν) (bytes : List Byte) : Result (List Bit) :=
  within p .codec (bytes.flatMap bytebits)

/-- What must follow a first byte: the ranges of the second, third and fourth byte, from the table of
40_codec.md R113; `none` for a byte that starts nothing. -/
def utf8Follow (b : Byte) : Option (List (Byte × Byte)) :=
  if b ≤ 0x7F#8 then some []
  else if b < 0xC2#8 then none
  else if b ≤ 0xDF#8 then some [(0x80#8, 0xBF#8)]
  else if b = 0xE0#8 then some [(0xA0#8, 0xBF#8), (0x80#8, 0xBF#8)]
  else if b ≤ 0xEC#8 then some [(0x80#8, 0xBF#8), (0x80#8, 0xBF#8)]
  else if b = 0xED#8 then some [(0x80#8, 0x9F#8), (0x80#8, 0xBF#8)]
  else if b ≤ 0xEF#8 then some [(0x80#8, 0xBF#8), (0x80#8, 0xBF#8)]
  else if b = 0xF0#8 then some [(0x90#8, 0xBF#8), (0x80#8, 0xBF#8), (0x80#8, 0xBF#8)]
  else if b ≤ 0xF3#8 then some [(0x80#8, 0xBF#8), (0x80#8, 0xBF#8), (0x80#8, 0xBF#8)]
  else if b = 0xF4#8 then some [(0x80#8, 0x8F#8), (0x80#8, 0xBF#8), (0x80#8, 0xBF#8)]
  else none

/-- The scan of R113: the ranges still owed by the current pattern, and the bytes that are left. -/
def utf8Scan : List (Byte × Byte) → List Byte → Bool
  | [], [] => true
  | _ :: _, [] => false
  | [], b :: t =>
    match utf8Follow b with
    | some owed => utf8Scan owed t
    | none => false
  | r :: owed, b :: t => decide (r.1 ≤ b) && decide (b ≤ r.2) && utf8Scan owed t

/-- `utf8_wellformed(bytes)` (40_codec.md R113). -/
def utf8WellFormed (bytes : List Byte) : Bool := utf8Scan [] bytes

/-- B2T's body: the bit count is checked first (40_codec.md R112). -/
def b2t {ν : Type} (p : Params ν) (bits : List Bit) : Result (List Byte) :=
  if bits.length % 8 ≠ 0 then .error ⟨.decode, .codec⟩
  else
    let bytes := (wholeGroups 8 bits).map bitsByte
    if utf8WellFormed bytes then within p .codec bytes else .error ⟨.decode, .codec⟩

/-- T2B on a build with parameters `p`. -/
def t2bOn (p : Params Sample) (s : State) : State :=
  s.runStage Instr.t2b.opcode s.inBytes (t2b p) bitOutput

/-- B2T on a build with parameters `p`. -/
def b2tOn (p : Params Sample) (s : State) : State :=
  s.runStage Instr.b2t.opcode s.inBits (b2t p) byteOutput

/-- T2B (40_codec.md R110). -/
def execT2b (s : State) : Host.Outcome State Fault Refusal := .next (t2bOn Config.build s)

/-- B2T (40_codec.md R112). -/
def execB2t (s : State) : Host.Outcome State Fault Refusal := .next (b2tOn Config.build s)

end Sys2Proof.Machine
end

