-- ==== Sys2Proof/Machine/ErrorControl.lean ====
section
/-!
DEFINITION. The error-control coder and decoder: parity, CRC, Hamming(12,8) (42_error_control.md).
-/

namespace Sys2Proof.Machine

/-- TransmissionError, STAGE = detection (60_exceptions.md R320, R321). -/
def transmissionError : Raise := ⟨.transmission, .detection⟩

/-! ### Parity -/

/-- `sum(s)`: the elements of a Bit sequence added as integers (00_scope.md R13). -/
def sumBits (s : List Bit) : Nat := (s.map Bool.toNat).sum

/-- PAR_ENC's body: one bit, the sum mod 2, is appended (42_error_control.md R170). -/
def parEnc {ν : Type} (p : Params ν) (x : List Bit) : Result (List Bit) :=
  within p .detection (x ++ [sumBits x % 2 == 1])

/-- PAR_DEC's body (42_error_control.md R171). -/
def parDec {ν : Type} (p : Params ν) (x : List Bit) : Result (List Bit) :=
  if x.length = 0 then .error transmissionError
  else if sumBits x % 2 ≠ 0 then .error transmissionError
  else within p .detection (x.take (x.length - 1))

/-! ### CRC -/

/-- CRC_GEN: x³ + x² + 1, the x³ coefficient first (42_error_control.md R180). -/
def crcGen : List Bit := [true, true, false, true]

/-- One position of the long division: when its bit is 1, CRC_GEN is added from that position on; the cursor then
moves one bit to the right (42_error_control.md R181). -/
def divideStep (r : List Bit) : List Bit :=
  if r.headD false then (List.zipWith Bool.xor (r.take 4) crcGen ++ r.drop 4).tail else r.tail

/-- The division at `n` successive positions. -/
def divideSteps : Nat → List Bit → List Bit
  | 0, r => r
  | n + 1, r => divideSteps n (divideStep r)

/-- `crcRem(w)`: positions 0 to L − 4; what is left is the 3-bit remainder (42_error_control.md R181). -/
def crcRem (w : List Bit) : List Bit := divideSteps (w.length - 3) w

/-- CRC_ENC's body (42_error_control.md R182). -/
def crcEnc {ν : Type} (p : Params ν) (x : List Bit) : Result (List Bit) :=
  within p .detection (x ++ crcRem (x ++ [false, false, false]))

/-- CRC_DEC's body (42_error_control.md R183). -/
def crcDec {ν : Type} (p : Params ν) (x : List Bit) : Result (List Bit) :=
  if x.length < 3 then .error transmissionError
  else if crcRem x ≠ [false, false, false] then .error transmissionError
  else within p .detection (x.take (x.length - 3))

/-! ### Hamming(12,8) -/

/-- DP: the positions of the data bits d[0..8), in order (42_error_control.md R190). -/
def dataPositions : List Nat := [3, 5, 6, 7, 9, 10, 11, 12]

/-- The positions of p1, p2, p4 and p8 (42_error_control.md R190). -/
def parityPositions : List Nat := [1, 2, 4, 8]

/-- The positions 1 to 12 that p_j covers: every P with (P and j) ≠ 0 (42_error_control.md R190). -/
def covered (j : Nat) : List Nat :=
  [1, 2, 3, 4, 5, 6, 7, 8, 9, 10, 11, 12].filter fun q => q &&& j != 0

/-- The bit at position P of a group, P counted from 1 (42_error_control.md R190). -/
def atPosition (g : List Bit) (q : Nat) : Bit := g.getD (q - 1) false

/-- The XOR of a group over some positions. -/
def xorOver (g : List Bit) (positions : List Nat) : Bit :=
  positions.foldr (fun q acc => Bool.xor (atPosition g q) acc) false

/-- The data bits at their positions, every parity position 0 (42_error_control.md R190). -/
def placeData (d : List Bit) : List Bit :=
  [1, 2, 3, 4, 5, 6, 7, 8, 9, 10, 11, 12].map fun q =>
    if q ∈ dataPositions then d.getD (dataPositions.idxOf q) false else false

/-- `hamCW(d)`: each parity bit is the XOR over its covered positions other than its own
(42_error_control.md R190). -/
def hamCW (d : List Bit) : List Bit :=
  parityPositions.foldl
    (fun g j => g.set (j - 1) (xorOver (placeData d) ((covered j).filter (· != j)))) (placeData d)

/-- HAM_ENC's body: whole bytes are coded, the remainder passes through (42_error_control.md R191). -/
def hamEnc {ν : Type} (p : Params ν) (x : List Bit) : Result (List Bit) :=
  within p .correction ((wholeGroups 8 x).flatMap hamCW ++ groupTail 8 x)

/-- `syndrome(g)` (42_error_control.md R192). -/
def syndrome (g : List Bit) : Nat :=
  (parityPositions.map fun j => j * (xorOver g (covered j)).toNat).sum

/-- The data bits of a group in their original order (42_error_control.md R193). -/
def extractData (g : List Bit) : List Bit := dataPositions.map (atPosition g)

/-- `hamFix(g)`: a syndrome of 1 to 12 flips that position; 13 to 15 flip nothing (42_error_control.md R193). -/
def hamFix (g : List Bit) : List Bit :=
  let e := syndrome g
  if 1 ≤ e ∧ e ≤ 12 then extractData (g.modify (e - 1) (!·)) else extractData g

/-- HAM_DEC's body: whole groups of 12 are corrected, the remainder passes through
(42_error_control.md R194, R196). -/
def hamDec {ν : Type} (p : Params ν) (x : List Bit) : Result (List Bit) :=
  within p .correction ((wholeGroups 12 x).flatMap hamFix ++ groupTail 12 x)

/-! ### The commands -/

/-- PAR_ENC on a build with parameters `p`. -/
def parEncOn (p : Params Sample) (s : State) : State :=
  s.runStage Instr.parEnc.opcode s.inBits (parEnc p) bitOutput

/-- PAR_DEC on a build with parameters `p`. -/
def parDecOn (p : Params Sample) (s : State) : State :=
  s.runStage Instr.parDec.opcode s.inBits (parDec p) bitOutput

/-- CRC_ENC on a build with parameters `p`. -/
def crcEncOn (p : Params Sample) (s : State) : State :=
  s.runStage Instr.crcEnc.opcode s.inBits (crcEnc p) bitOutput

/-- CRC_DEC on a build with parameters `p`. -/
def crcDecOn (p : Params Sample) (s : State) : State :=
  s.runStage Instr.crcDec.opcode s.inBits (crcDec p) bitOutput

/-- HAM_ENC on a build with parameters `p`. -/
def hamEncOn (p : Params Sample) (s : State) : State :=
  s.runStage Instr.hamEnc.opcode s.inBits (hamEnc p) bitOutput

/-- HAM_DEC on a build with parameters `p`. -/
def hamDecOn (p : Params Sample) (s : State) : State :=
  s.runStage Instr.hamDec.opcode s.inBits (hamDec p) bitOutput

/-- PAR_ENC (42_error_control.md R170). -/
def execParEnc (s : State) : Host.Outcome State Fault Refusal := .next (parEncOn Config.build s)

/-- PAR_DEC (42_error_control.md R171). -/
def execParDec (s : State) : Host.Outcome State Fault Refusal := .next (parDecOn Config.build s)

/-- CRC_ENC (42_error_control.md R182). -/
def execCrcEnc (s : State) : Host.Outcome State Fault Refusal := .next (crcEncOn Config.build s)

/-- CRC_DEC (42_error_control.md R183). -/
def execCrcDec (s : State) : Host.Outcome State Fault Refusal := .next (crcDecOn Config.build s)

/-- HAM_ENC (42_error_control.md R191). -/
def execHamEnc (s : State) : Host.Outcome State Fault Refusal := .next (hamEncOn Config.build s)

/-- HAM_DEC (42_error_control.md R194). -/
def execHamDec (s : State) : Host.Outcome State Fault Refusal := .next (hamDecOn Config.build s)

end Sys2Proof.Machine
end

