-- ==== Sys2Proof/Machine/Framing.lean ====
section
/-!
DEFINITION. The Framer and Deframer: length-prefix, byte-stuffing, bit-stuffing (41_framing.md).
-/

namespace Sys2Proof.Machine

/-- FramingError, STAGE = framing (60_exceptions.md R320, R321). -/
def framingError : Raise := ⟨.framing, .framing⟩

/-! ### Length-prefix -/

/-- The low `count` decimal digits of `n`, most significant first, zero-padded. -/
def fixedDigits : Nat → Nat → List Nat
  | 0, _ => []
  | count + 1, n => n / 10 ^ count % 10 :: fixedDigits count n

/-- The decimal digits of `n` without leading zeros, most significant first, in front of `acc`; [0] for 0.
`fuel` bounds the number of digits. -/
def decimalDigitsFrom : Nat → Nat → List Nat → List Nat
  | 0, _, acc => acc
  | fuel + 1, n, acc =>
    if n < 10 then n :: acc else decimalDigitsFrom fuel (n / 10) (n % 10 :: acc)

/-- The ASCII byte 0x30 + d of a digit. -/
def asciiDigit (d : Nat) : Byte := BitVec.ofNat 8 (0x30 + d)

/-- `lpPrefix(n)` (41_framing.md R130). -/
def lpPrefix (digits n : Nat) : List Bit :=
  (fixedDigits digits n).flatMap fun d => bytebits (asciiDigit d)

/-- `asciiDigits(n)` (41_framing.md R133). -/
def asciiDigits (n : Nat) : List Bit :=
  (decimalDigitsFrom (n + 1) n []).flatMap fun d => bytebits (asciiDigit d)

/-- FRM_LP's body in both modes (41_framing.md R131, R133). -/
def frmLp {ν : Type} (p : Params ν) (payload : List Bit) : Result (List Bit) :=
  match p.lpMode with
  | .fixed =>
    if payload.length ≥ 10 ^ p.lpDigits then .error framingError
    else within p .framing (lpPrefix p.lpDigits payload.length ++ payload)
  | .reference => within p .framing (asciiDigits payload.length ++ payload)

/-- The value of an ASCII digit byte given as bits; `none` for any other byte (41_framing.md R132). -/
def digitOf (bits : List Bit) : Option Nat :=
  let c := val bits
  if c < 0x30 ∨ c > 0x39 then none else some (c - 0x30)

/-- The declared length: the digit bytes from the left; FramingError at the first that is no digit
(41_framing.md R132). -/
def declaredLength : Nat → List (List Bit) → Result Nat
  | acc, [] => .ok acc
  | acc, b :: t =>
    match digitOf b with
    | none => .error framingError
    | some d => declaredLength (10 * acc + d) t

/-- The end of DFR_LP: the declared length must be the number of bits after the `count` prefix bytes
(41_framing.md R132, R134). -/
def stripPrefix {ν : Type} (p : Params ν) (count declared : Nat) (frame : List Bit) : Result (List Bit) :=
  if declared ≠ frame.length - 8 * count then .error framingError
  else within p .framing (frame.drop (8 * count))

/-- DFR_LP's body in mode FIXED (41_framing.md R132). -/
def dfrLpFixed {ν : Type} (p : Params ν) (frame : List Bit) : Result (List Bit) :=
  if frame.length < 8 * p.lpDigits then .error framingError
  else
    chain (declaredLength 0 (groups 8 p.lpDigits frame)) fun declared =>
      stripPrefix p p.lpDigits declared frame

/-- How many prefix bytes mode REFERENCE reads: 2 when a second whole byte is a digit, else 1
(41_framing.md R134). -/
def referencePrefixBytes (frame : List Bit) : Nat :=
  if frame.length ≥ 16 ∧ (digitOf ((frame.drop 8).take 8)).isSome then 2 else 1

/-- DFR_LP's body in mode REFERENCE (41_framing.md R134). -/
def dfrLpReference {ν : Type} (p : Params ν) (frame : List Bit) : Result (List Bit) :=
  if frame.length < 8 then .error framingError
  else
    let count := referencePrefixBytes frame
    chain (declaredLength 0 (groups 8 count frame)) fun declared => stripPrefix p count declared frame

/-- DFR_LP's body in both modes (41_framing.md R132, R134). -/
def dfrLp {ν : Type} (p : Params ν) (frame : List Bit) : Result (List Bit) :=
  match p.lpMode with
  | .fixed => dfrLpFixed p frame
  | .reference => dfrLpReference p frame

/-! ### Byte-stuffing -/

/-- FLAG as its bits (41_framing.md R140). -/
def flagBits {ν : Type} (p : Params ν) : List Bit := bytebits p.flag

/-- ESC as its bits (41_framing.md R140). -/
def escBits {ν : Type} (p : Params ν) : List Bit := bytebits p.esc

/-- One payload byte of FRM_BYTE: preceded by ESC when it is FLAG or ESC (41_framing.md R141). -/
def escapeByte {ν : Type} (p : Params ν) (b : List Bit) : List Bit :=
  if b = flagBits p ∨ b = escBits p then escBits p ++ b else b

/-- FRM_BYTE's body; the tail is copied, never escaped (41_framing.md R141). -/
def frmByte {ν : Type} (p : Params ν) (payload : List Bit) : Result (List Bit) :=
  within p .framing
    (flagBits p ++ (wholeGroups 8 payload).flatMap (escapeByte p) ++ groupTail 8 payload ++ flagBits p)

/-- `markerCheck(f)`: the leading marker is checked before the trailing one (41_framing.md R142). -/
def markerCheck {ν : Type} (p : Params ν) (f : List Bit) : Result (List Bit) :=
  if f.length < 16 then .error framingError
  else if f.take 8 ≠ flagBits p then .error framingError
  else if f.drop (f.length - 8) ≠ flagBits p then .error framingError
  else .ok ((f.drop 8).take (f.length - 16))

/-- DFR_BYTE's scan over the whole bytes of the body with the "ignore next" latch (41_framing.md R143, R144).
An ESC that escapes nothing raises FramingError. -/
def unescape {ν : Type} (p : Params ν) : Bool → List (List Bit) → Result (List Bit)
  | true, [] => .error framingError
  | false, [] => .ok []
  | true, b :: t => chain (unescape p false t) fun rest => .ok (b ++ rest)
  | false, b :: t =>
    if b = escBits p then unescape p true t
    else chain (unescape p false t) fun rest => .ok (b ++ rest)

/-- DFR_BYTE's body (41_framing.md R143). -/
def dfrByte {ν : Type} (p : Params ν) (frame : List Bit) : Result (List Bit) :=
  chain (markerCheck p frame) fun body =>
    chain (unescape p false (wholeGroups 8 body)) fun bytes =>
      within p .framing (bytes ++ groupTail 8 body)

/-! ### Bit-stuffing -/

/-- P9: FLAG with a 0 inserted before its final bit (41_framing.md R150). -/
def stuffedFlag {ν : Type} (p : Params ν) : List Bit := (flagBits p).take 7 ++ [false] ++ (flagBits p).drop 7

/-- One payload byte of FRM_BIT: FLAG becomes P9 (41_framing.md R151). -/
def stuffByte {ν : Type} (p : Params ν) (b : List Bit) : List Bit :=
  if b = flagBits p then stuffedFlag p else b

/-- FRM_BIT's body (41_framing.md R151). -/
def frmBit {ν : Type} (p : Params ν) (payload : List Bit) : Result (List Bit) :=
  within p .framing
    (flagBits p ++ (wholeGroups 8 payload).flatMap (stuffByte p) ++ groupTail 8 payload ++ flagBits p)

/-- DFR_BIT's cursor-aligned scan: 9 bits over P9, 8 bits over any other byte, the tail copied
(41_framing.md R152). Each turn consumes bits, so the body's length is enough `fuel`. -/
def unstuff {ν : Type} (p : Params ν) : Nat → List Bit → List Bit
  | 0, body => body
  | fuel + 1, body =>
    if body.length < 8 then body
    else if 9 ≤ body.length ∧ body.take 9 = stuffedFlag p then flagBits p ++ unstuff p fuel (body.drop 9)
    else body.take 8 ++ unstuff p fuel (body.drop 8)

/-- DFR_BIT's body (41_framing.md R152). -/
def dfrBit {ν : Type} (p : Params ν) (frame : List Bit) : Result (List Bit) :=
  chain (markerCheck p frame) fun body => within p .framing (unstuff p body.length body)

/-! ### The commands -/

/-- FRM_LP on a build with parameters `p`. -/
def frmLpOn (p : Params Sample) (s : State) : State :=
  s.runStage Instr.frmLp.opcode s.inBits (frmLp p) bitOutput

/-- DFR_LP on a build with parameters `p`. -/
def dfrLpOn (p : Params Sample) (s : State) : State :=
  s.runStage Instr.dfrLp.opcode s.inBits (dfrLp p) bitOutput

/-- FRM_BYTE on a build with parameters `p`. -/
def frmByteOn (p : Params Sample) (s : State) : State :=
  s.runStage Instr.frmByte.opcode s.inBits (frmByte p) bitOutput

/-- DFR_BYTE on a build with parameters `p`. -/
def dfrByteOn (p : Params Sample) (s : State) : State :=
  s.runStage Instr.dfrByte.opcode s.inBits (dfrByte p) bitOutput

/-- FRM_BIT on a build with parameters `p`. -/
def frmBitOn (p : Params Sample) (s : State) : State :=
  s.runStage Instr.frmBit.opcode s.inBits (frmBit p) bitOutput

/-- DFR_BIT on a build with parameters `p`. -/
def dfrBitOn (p : Params Sample) (s : State) : State :=
  s.runStage Instr.dfrBit.opcode s.inBits (dfrBit p) bitOutput

/-- FRM_LP (41_framing.md R131). -/
def execFrmLp (s : State) : Host.Outcome State Fault Refusal := .next (frmLpOn Config.build s)

/-- DFR_LP (41_framing.md R132). -/
def execDfrLp (s : State) : Host.Outcome State Fault Refusal := .next (dfrLpOn Config.build s)

/-- FRM_BYTE (41_framing.md R141). -/
def execFrmByte (s : State) : Host.Outcome State Fault Refusal := .next (frmByteOn Config.build s)

/-- DFR_BYTE (41_framing.md R143). -/
def execDfrByte (s : State) : Host.Outcome State Fault Refusal := .next (dfrByteOn Config.build s)

/-- FRM_BIT (41_framing.md R151). -/
def execFrmBit (s : State) : Host.Outcome State Fault Refusal := .next (frmBitOn Config.build s)

/-- DFR_BIT (41_framing.md R152). -/
def execDfrBit (s : State) : Host.Outcome State Fault Refusal := .next (dfrBitOn Config.build s)

end Sys2Proof.Machine
end

