-- ==== Sys2Proof/Machine/LineCoding.lean ====
section
/-!
DEFINITION. The line coder and decoder: NRZ-Polar, Manchester, Bipolar/AMI (43_line_coding.md).
-/

namespace Sys2Proof.Machine

/-- A Level as an integer, −1 < 0 < +1 (00_scope.md R11). -/
def Level.value : Level → Int
  | .neg => -1
  | .zero => 0
  | .pos => 1

/-- The level +1 or −1 of a polarity (43_line_coding.md R221). -/
def Polarity.level : Polarity → Level
  | .plus => .pos
  | .minus => .neg

/-- −pol (43_line_coding.md R221). -/
def Polarity.flip : Polarity → Polarity
  | .plus => .minus
  | .minus => .plus

/-- The level 0 or +1 that a Manchester half-bit is (43_line_coding.md R212). -/
def bitLevel (b : Bit) : Level := if b then .pos else .zero

/-- The level +1 or −1 of a bit in NRZ-Polar (43_line_coding.md R210). -/
def nrzLevel (b : Bit) : Level := if b then .pos else .neg

/-- CLK, the Manchester clock pattern (0, 1) (43_line_coding.md R212). -/
def clock : Bit × Bit := (false, true)

/-- The two levels of a bit: b xor CLK[0], b xor CLK[1] (43_line_coding.md R212). -/
def manPair (b : Bit) : List Level := [bitLevel (Bool.xor b clock.1), bitLevel (Bool.xor b clock.2)]

/-- The AMI pass: a 1 emits the accumulator and negates it, a 0 emits level 0 (43_line_coding.md R221, R222). -/
def amiLevels : Polarity → List Bit → List Level
  | _, [] => []
  | pol, true :: t => Polarity.level pol :: amiLevels (Polarity.flip pol) t
  | pol, false :: t => .zero :: amiLevels pol t

/-- NRZ_ENC's body (43_line_coding.md R210). -/
def nrzEnc {ν : Type} (p : Params ν) (x : List Bit) : Result (List Level) := within p .line (x.map nrzLevel)

/-- NRZ_DEC's body: l > 0 is 1 (43_line_coding.md R211). -/
def nrzDec {ν : Type} (p : Params ν) (ls : List Level) : Result (List Bit) :=
  within p .line (ls.map fun l => decide (0 < Level.value l))

/-- MAN_ENC's body (43_line_coding.md R213). -/
def manEnc {ν : Type} (p : Params ν) (x : List Bit) : Result (List Level) := within p .line (x.flatMap manPair)

/-- MAN_DEC's decision for one pair (43_line_coding.md R214). -/
def manDecide (l0 l1 : Level) : Result Bit :=
  if Level.value l0 < Level.value l1 then .ok false
  else if Level.value l1 < Level.value l0 then .ok true
  else .error ⟨.signal, .line⟩

/-- MAN_DEC's scan of the pairs in index order (43_line_coding.md R214, 60_exceptions.md R324). -/
def manPairs : List Level → Result (List Bit)
  | l0 :: l1 :: t => chain (manDecide l0 l1) fun b => chain (manPairs t) fun bs => .ok (b :: bs)
  | _ => .ok []

/-- MAN_DEC's body: the level count is checked first (43_line_coding.md R214). -/
def manDec {ν : Type} (p : Params ν) (ls : List Level) : Result (List Bit) :=
  if ls.length % 2 ≠ 0 then .error ⟨.signal, .line⟩
  else chain (manPairs ls) fun bits => within p .line bits

/-- AMI_ENC's body (43_line_coding.md R222). -/
def amiEnc {ν : Type} (p : Params ν) (x : List Bit) : Result (List Level) := within p .line (amiLevels p.amiStart x)

/-- AMI_DEC's body: any nonzero level is 1 (43_line_coding.md R223). -/
def amiDec {ν : Type} (p : Params ν) (ls : List Level) : Result (List Bit) :=
  within p .line (ls.map fun l => decide (Level.value l ≠ 0))

/-- `lineEnc(LC, b)` (43_line_coding.md R224). -/
def lineEnc {ν : Type} (p : Params ν) : LineCode → List Bit → Result (List Level)
  | .nrz => nrzEnc p
  | .man => manEnc p
  | .ami => amiEnc p

/-- `lineDec(LC, l)` (43_line_coding.md R224). -/
def lineDec {ν : Type} (p : Params ν) : LineCode → List Level → Result (List Bit)
  | .nrz => nrzDec p
  | .man => manDec p
  | .ami => amiDec p

/-- Whether a level is in the alphabet of a line code (43_line_coding.md R220). -/
def inAlphabet : LineCode → Level → Bool
  | .nrz, l => l != .zero
  | .man, l => l != .neg
  | .ami, _ => true

/-! ### The commands -/

/-- NRZ_ENC on a build with parameters `p`. -/
def nrzEncOn (p : Params Sample) (s : State) : State :=
  s.runStage Instr.nrzEnc.opcode s.inBits (nrzEnc p) levelOutput

/-- NRZ_DEC on a build with parameters `p`. -/
def nrzDecOn (p : Params Sample) (s : State) : State :=
  s.runStage Instr.nrzDec.opcode (s.inLevels .line) (nrzDec p) bitOutput

/-- MAN_ENC on a build with parameters `p`. -/
def manEncOn (p : Params Sample) (s : State) : State :=
  s.runStage Instr.manEnc.opcode s.inBits (manEnc p) levelOutput

/-- MAN_DEC on a build with parameters `p`. -/
def manDecOn (p : Params Sample) (s : State) : State :=
  s.runStage Instr.manDec.opcode (s.inLevels .line) (manDec p) bitOutput

/-- AMI_ENC on a build with parameters `p`. -/
def amiEncOn (p : Params Sample) (s : State) : State :=
  s.runStage Instr.amiEnc.opcode s.inBits (amiEnc p) levelOutput

/-- AMI_DEC on a build with parameters `p`. -/
def amiDecOn (p : Params Sample) (s : State) : State :=
  s.runStage Instr.amiDec.opcode (s.inLevels .line) (amiDec p) bitOutput

/-- NRZ_ENC (43_line_coding.md R210). -/
def execNrzEnc (s : State) : Host.Outcome State Fault Refusal := .next (nrzEncOn Config.build s)

/-- NRZ_DEC (43_line_coding.md R211). -/
def execNrzDec (s : State) : Host.Outcome State Fault Refusal := .next (nrzDecOn Config.build s)

/-- MAN_ENC (43_line_coding.md R213). -/
def execManEnc (s : State) : Host.Outcome State Fault Refusal := .next (manEncOn Config.build s)

/-- MAN_DEC (43_line_coding.md R214). -/
def execManDec (s : State) : Host.Outcome State Fault Refusal := .next (manDecOn Config.build s)

/-- AMI_ENC (43_line_coding.md R222). -/
def execAmiEnc (s : State) : Host.Outcome State Fault Refusal := .next (amiEncOn Config.build s)

/-- AMI_DEC (43_line_coding.md R223). -/
def execAmiDec (s : State) : Host.Outcome State Fault Refusal := .next (amiDecOn Config.build s)

end Sys2Proof.Machine
end

