-- ==== Sys2Proof/Machine/Modulation.lean ====
section
/-!
DEFINITION. The passband modulator and demodulator: ASK, FSK, 8-QAM (44_modulation.md).
-/

namespace Sys2Proof.Machine

/-- SignalError, STAGE = carrier (60_exceptions.md R320, R321). -/
def carrierSignalError : Raise := ⟨.signal, .carrier⟩

/-! ### Common definitions -/

/-- `present(LC, l)` (44_modulation.md R243). -/
def present : LineCode → Level → Bit
  | .nrz, l => decide (0 < Level.value l)
  | .man, l => decide (0 < Level.value l)
  | .ami, l => decide (Level.value l ≠ 0)

/-- `recon(LC, p)` (44_modulation.md R244). -/
def recon {ν : Type} (p : Params ν) : LineCode → List Bit → List Level
  | .nrz, bits => bits.map nrzLevel
  | .man, bits => bits.map bitLevel
  | .ami, bits => amiLevels p.amiStart bits

/-- One window of a·SIN(f·k + ph), k = 0..99, as NUM stores it (44_modulation.md R240). -/
def carrierWindow {ν : Type} (p : Params ν) (a : Rat) (f ph : Nat) : List ν :=
  (List.range Config.nSps).map fun k => p.num.store (p.num.scale a (p.sin (f * k + ph)))

/-- One window of zeros (44_modulation.md R251). -/
def silentWindow {ν : Type} (p : Params ν) : List ν := List.replicate Config.nSps p.num.zero

/-- The windows of a demodulator's input, or SignalError when the sample count is not a multiple of 100
(44_modulation.md R250). -/
def splitWindows {ν : Type} (s : List ν) : Result (List (List ν)) :=
  if s.length % Config.nSps ≠ 0 then .error carrierSignalError else .ok (wholeGroups Config.nSps s)

/-! ### ASK -/

/-- One level's window in ASK (44_modulation.md R251). -/
def askWindow {ν : Type} (p : Params ν) (lc : LineCode) (l : Level) : List ν :=
  if present lc l then carrierWindow p p.aAsk p.fAsk 0 else silentWindow p

/-- ASK_MOD's body (44_modulation.md R251). -/
def askMod {ν : Type} (p : Params ν) (lc : LineCode) (ls : List Level) : Result (List ν) :=
  within p .carrier (ls.flatMap (askWindow p lc))

/-- The mean absolute amplitude of a window (44_modulation.md R252). -/
def meanAbs {ν : Type} (p : Params ν) (w : List ν) : ν :=
  p.num.scale (1 / Config.nSps) (p.num.sum (w.map p.num.abs))

/-- ASK_DEM's decision for one window (44_modulation.md R252). -/
def askDecide {ν : Type} (p : Params ν) (w : List ν) : Result Bit :=
  if p.num.compare w (meanAbs p w) (p.num.ofRat (p.aAsk / 2)) = .gt then .ok true
  else if p.num.compare w (meanAbs p w) (p.num.ofRat (p.aAsk / 4)) = .lt then .ok false
  else .error carrierSignalError

/-- ASK_DEM's body (44_modulation.md R252). -/
def askDem {ν : Type} (p : Params ν) (lc : LineCode) (s : List ν) : Result (List Level) :=
  chain (splitWindows s) fun ws =>
    chain (mapResult (askDecide p) ws) fun bits => within p .carrier (recon p lc bits)

/-! ### FSK -/

/-- One level's window in FSK: F1 when present, else F2 (44_modulation.md R256). -/
def fskWindow {ν : Type} (p : Params ν) (lc : LineCode) (l : Level) : List ν :=
  carrierWindow p p.aFsk (if present lc l then p.fFsk1 else p.fFsk2) 0

/-- FSK_MOD's body (44_modulation.md R256). -/
def fskMod {ν : Type} (p : Params ν) (lc : LineCode) (ls : List Level) : Result (List ν) :=
  within p .carrier (ls.flatMap (fskWindow p lc))

/-- The sum over k of w[k]·SIN(f·k) (44_modulation.md R257, R264). -/
def correlateSin {ν : Type} (p : Params ν) (f : Nat) (w : List ν) : ν := p.num.inner w fun k => p.sin (f * k)

/-- The sum over k of w[k]·COS(f·k) (44_modulation.md R257, R264). -/
def correlateCos {ν : Type} (p : Params ν) (f : Nat) (w : List ν) : ν := p.num.inner w fun k => p.cos (f * k)

/-- x² + y². -/
def squareSum {ν : Type} (p : Params ν) (x y : ν) : ν := p.num.add (p.num.mul x x) (p.num.mul y y)

/-- E(w, f), the quadrature energy (44_modulation.md R257). -/
def energy {ν : Type} (p : Params ν) (f : Nat) (w : List ν) : ν :=
  squareSum p (correlateSin p f w) (correlateCos p f w)

/-- FSK_DEM's decision for one window (44_modulation.md R257). -/
def fskDecide {ν : Type} (p : Params ν) (w : List ν) : Result Bit :=
  match p.num.compare w (energy p p.fFsk1 w) (energy p p.fFsk2 w) with
  | .gt => .ok true
  | .lt => .ok false
  | .eq => .error carrierSignalError

/-- FSK_DEM's body (44_modulation.md R257). -/
def fskDem {ν : Type} (p : Params ν) (lc : LineCode) (s : List ν) : Result (List Level) :=
  chain (splitWindows s) fun ws =>
    chain (mapResult (fskDecide p) ws) fun bits => within p .carrier (recon p lc bits)

/-! ### 8-QAM -/

/-- The phase index ph = 2·b0 + b1 of a symbol (44_modulation.md R262). -/
def qamPhase (b0 b1 : Bit) : Nat := 2 * b0.toNat + b1.toNat

/-- The amplitude a = 1 + b2 of a symbol (44_modulation.md R262). -/
def qamAmplitude (b2 : Bit) : Nat := 1 + b2.toNat

/-- The window of a symbol: a·SIN(F_QAM·k + 25·ph) (44_modulation.md R262, R263). -/
def qamWindow {ν : Type} (p : Params ν) (b0 b1 b2 : Bit) : List ν :=
  carrierWindow p (qamAmplitude b2) p.fQam (25 * qamPhase b0 b1)

/-- The windows of presence bits taken three at a time (44_modulation.md R263). -/
def qamWindows {ν : Type} (p : Params ν) : List Bit → List ν
  | b0 :: b1 :: b2 :: t => qamWindow p b0 b1 b2 ++ qamWindows p t
  | _ => []

/-- Zero padding to a multiple of 3 (44_modulation.md R263). -/
def qamPad (bits : List Bit) : List Bit := bits ++ List.replicate ((3 - bits.length % 3) % 3) false

/-- QAM_MOD's body: ConstellationError at the first level outside the alphabet of LC (44_modulation.md R263). -/
def qamMod {ν : Type} (p : Params ν) (lc : LineCode) (ls : List Level) : Result (List ν) :=
  if ls.all (inAlphabet lc) then within p .carrier (qamWindows p (qamPad (ls.map (present lc))))
  else .error ⟨.constellation, .carrier⟩

/-- I of a window (44_modulation.md R264). -/
def inPhase {ν : Type} (p : Params ν) (w : List ν) : ν := p.num.scale (2 / Config.nSps) (correlateSin p p.fQam w)

/-- Q of a window (44_modulation.md R264). -/
def quadrature {ν : Type} (p : Params ν) (w : List ν) : ν := p.num.scale (2 / Config.nSps) (correlateCos p p.fQam w)

/-- The phase bits of a window: the dominant one of I and Q and its sign; SignalError on a phase boundary
(44_modulation.md R264). -/
def qamPhaseDecide {ν : Type} (p : Params ν) (w : List ν) : Result (Bit × Bit) :=
  match p.num.compare w (p.num.abs (inPhase p w)) (p.num.abs (quadrature p w)) with
  | .gt => .ok (p.num.compare w (inPhase p w) p.num.zero != .gt, false)
  | .lt => .ok (p.num.compare w (quadrature p w) p.num.zero != .gt, true)
  | .eq => .error carrierSignalError

/-- `qamDecide(w)`: the amplitude checks come before the phase; one comparison with 2.25 settles both the amplitude
boundary and b2 (44_modulation.md R264). -/
def qamDecide {ν : Type} (p : Params ν) (w : List ν) : Result (List Bit) :=
  let r2 := squareSum p (inPhase p w) (quadrature p w)
  let amplitude := p.num.compare w r2 (p.num.ofRat (9 / 4))
  if p.num.compare w r2 (p.num.ofRat (1 / 4)) = .lt then .error carrierSignalError
  else if amplitude = .eq then .error carrierSignalError
  else chain (qamPhaseDecide p w) fun ph => .ok [ph.1, ph.2, amplitude == .gt]

/-- QAM_DEM's body: three presence bits per window, pad bits are not removed (44_modulation.md R265). -/
def qamDem {ν : Type} (p : Params ν) (lc : LineCode) (s : List ν) : Result (List Level) :=
  chain (splitWindows s) fun ws =>
    chain (mapResult (qamDecide p) ws) fun bits => within p .carrier (recon p lc bits.flatten)

/-- `carMod(CAR, LC, l)` (44_modulation.md R268). -/
def carMod {ν : Type} (p : Params ν) : Carrier → LineCode → List Level → Result (List ν)
  | .ask => askMod p
  | .fsk => fskMod p
  | .qam => qamMod p

/-- `carDem(CAR, LC, s)` (44_modulation.md R268). -/
def carDem {ν : Type} (p : Params ν) : Carrier → LineCode → List ν → Result (List Level)
  | .ask => askDem p
  | .fsk => fskDem p
  | .qam => qamDem p

/-! ### The commands -/

/-- A modulator's operands: its LC, then IN of kind LEVEL without reserved codes (60_exceptions.md R323). -/
def State.modOperand (s : State) (lc : Code) : Result (LineCode × List Level) :=
  chain (lineCodeOperand lc) fun c => chain (s.inLevels .carrier) fun ls => .ok (c, ls)

/-- A demodulator's operands: its LC, then IN of kind SAMPLE (60_exceptions.md R322). -/
def State.demOperand (s : State) (lc : Code) : Result (LineCode × List Sample) :=
  chain (lineCodeOperand lc) fun c => chain s.inSamples fun xs => .ok (c, xs)

/-- ASK_MOD on a build with parameters `p`. -/
def askModOn (p : Params Sample) (lc : Code) (s : State) : State :=
  s.runStage (Instr.askMod lc).opcode (s.modOperand lc) (fun x => askMod p x.1 x.2) sampleOutput

/-- ASK_DEM on a build with parameters `p`. -/
def askDemOn (p : Params Sample) (lc : Code) (s : State) : State :=
  s.runStage (Instr.askDem lc).opcode (s.demOperand lc) (fun x => askDem p x.1 x.2) levelOutput

/-- FSK_MOD on a build with parameters `p`. -/
def fskModOn (p : Params Sample) (lc : Code) (s : State) : State :=
  s.runStage (Instr.fskMod lc).opcode (s.modOperand lc) (fun x => fskMod p x.1 x.2) sampleOutput

/-- FSK_DEM on a build with parameters `p`. -/
def fskDemOn (p : Params Sample) (lc : Code) (s : State) : State :=
  s.runStage (Instr.fskDem lc).opcode (s.demOperand lc) (fun x => fskDem p x.1 x.2) levelOutput

/-- QAM_MOD on a build with parameters `p`. -/
def qamModOn (p : Params Sample) (lc : Code) (s : State) : State :=
  s.runStage (Instr.qamMod lc).opcode (s.modOperand lc) (fun x => qamMod p x.1 x.2) sampleOutput

/-- QAM_DEM on a build with parameters `p`. -/
def qamDemOn (p : Params Sample) (lc : Code) (s : State) : State :=
  s.runStage (Instr.qamDem lc).opcode (s.demOperand lc) (fun x => qamDem p x.1 x.2) levelOutput

/-- ASK_MOD (44_modulation.md R251). -/
def execAskMod (lc : Code) (s : State) : Host.Outcome State Fault Refusal := .next (askModOn Config.build lc s)

/-- ASK_DEM (44_modulation.md R252). -/
def execAskDem (lc : Code) (s : State) : Host.Outcome State Fault Refusal := .next (askDemOn Config.build lc s)

/-- FSK_MOD (44_modulation.md R256). -/
def execFskMod (lc : Code) (s : State) : Host.Outcome State Fault Refusal := .next (fskModOn Config.build lc s)

/-- FSK_DEM (44_modulation.md R257). -/
def execFskDem (lc : Code) (s : State) : Host.Outcome State Fault Refusal := .next (fskDemOn Config.build lc s)

/-- QAM_MOD (44_modulation.md R263). -/
def execQamMod (lc : Code) (s : State) : Host.Outcome State Fault Refusal := .next (qamModOn Config.build lc s)

/-- QAM_DEM (44_modulation.md R265). -/
def execQamDem (lc : Code) (s : State) : Host.Outcome State Fault Refusal := .next (qamDemOn Config.build lc s)

end Sys2Proof.Machine
end

