-- ==== Sys2Proof/Machine/Pipeline.lean ====
section
/-!
DEFINITION. Configuration, transfer and the composed commands (45_pipeline.md).
-/

namespace Sys2Proof.Machine

/-! ### The stages a selector chooses -/

/-- `frame(FRM, x)` (45_pipeline.md R292). -/
def frame {ν : Type} (p : Params ν) : Framing → List Bit → Result (List Bit)
  | .lengthPrefix => frmLp p
  | .byteStuffing => frmByte p
  | .bitStuffing => frmBit p

/-- `deframe(FRM, x)` (45_pipeline.md R293). -/
def deframe {ν : Type} (p : Params ν) : Framing → List Bit → Result (List Bit)
  | .lengthPrefix => dfrLp p
  | .byteStuffing => dfrByte p
  | .bitStuffing => dfrBit p

/-- `detEnc(DET, x)`; "none" is the identity (45_pipeline.md R292, R297). -/
def detEnc {ν : Type} (p : Params ν) : Detection → List Bit → Result (List Bit)
  | .none => .ok
  | .parity => parEnc p
  | .crc => crcEnc p

/-- `detDec(DET, x)`; "none" is the identity (45_pipeline.md R293, R297). -/
def detDec {ν : Type} (p : Params ν) : Detection → List Bit → Result (List Bit)
  | .none => .ok
  | .parity => parDec p
  | .crc => crcDec p

/-- `corEnc(COR, x)`; "none" is the identity (45_pipeline.md R292, R297). -/
def corEnc {ν : Type} (p : Params ν) : Correction → List Bit → Result (List Bit)
  | .none => .ok
  | .hamming => hamEnc p

/-- `corDec(COR, x)`; "none" is the identity (45_pipeline.md R293, R297). -/
def corDec {ν : Type} (p : Params ν) : Correction → List Bit → Result (List Bit)
  | .none => .ok
  | .hamming => hamDec p

/-! ### The bodies of the composed commands -/

/-- ENCODE's stages: (coded, raw) (45_pipeline.md R292). -/
def encodeStages {ν : Type} (p : Params ν) (m : Schemes) (bytes : List Byte) : Result (List Bit × List Bit) :=
  chain (t2b p bytes) fun raw =>
    chain (frame p m.frm raw) fun framed =>
      chain (detEnc p m.det framed) fun det =>
        chain (corEnc p m.cor det) fun coded => .ok (coded, raw)

/-- DECODE's stages (45_pipeline.md R293). -/
def decodeStages {ν : Type} (p : Params ν) (m : Schemes) (coded : List Bit) : Result (List Byte) :=
  chain (corDec p m.cor coded) fun d1 =>
    chain (detDec p m.det d1) fun d2 =>
      chain (deframe p m.frm d2) fun d3 => b2t p d3

/-- MODULATE's stages (45_pipeline.md R294). -/
def modulateStages {ν : Type} (p : Params ν) (m : Schemes) (bits : List Bit) : Result (List ν) :=
  chain (lineEnc p m.lc bits) fun lv => carMod p m.car m.lc lv

/-- DEMODULATE's stages (45_pipeline.md R295). -/
def demodulateStages {ν : Type} (p : Params ν) (m : Schemes) (s : List ν) : Result (List Bit) :=
  chain (carDem p m.car m.lc s) fun lv => lineDec p m.lc lv

/-- A composed command's operands: SEL, then IN of its kind (60_exceptions.md R323). -/
def withSchemes {α : Type} (schemes : Result Schemes) (operand : Result α) : Result (Schemes × α) :=
  chain schemes fun m => chain operand fun x => .ok (m, x)

/-- OUT0 the coded bits and OUT1 the raw bits (45_pipeline.md R292). -/
def codedOutput (x : List Bit × List Bit) : Buffer × Buffer := (.bit x.1, .bit x.2)

/-! ### The commands -/

/-- SETSEL: SEL takes ARG and VALID when no field code is reserved; otherwise ConfigurationError and SEL keeps
its value (45_pipeline.md R290). -/
def setselOn (car lc cor det frm : Code) (s : State) : State :=
  match schemesOf car lc cor det frm with
  | none => s.raise (Instr.setsel car lc cor det frm).opcode configurationError
  | some _ =>
    { s with sel := selWord (selectorArgument car lc cor det frm) }.succeed
      (Instr.setsel car lc cor det frm).opcode .none .none

/-- XFER: OUT0 moves to IN, kind and sequence; ConfigurationError when OUT0 is NONE (45_pipeline.md R291). -/
def xferOn (s : State) : State :=
  match s.out0 with
  | .none => s.raise Instr.xfer.opcode configurationError
  | b => { s with inBuf := b }.succeed Instr.xfer.opcode .none .none

/-- ENCODE on a build with parameters `p`. -/
def encodeOn (p : Params Sample) (s : State) : State :=
  s.runStage Instr.encode.opcode (withSchemes s.schemes s.inBytes) (fun x => encodeStages p x.1 x.2) codedOutput

/-- DECODE on a build with parameters `p`. -/
def decodeOn (p : Params Sample) (s : State) : State :=
  s.runStage Instr.decode.opcode (withSchemes s.schemes s.inBits) (fun x => decodeStages p x.1 x.2) byteOutput

/-- MODULATE on a build with parameters `p`. -/
def modulateOn (p : Params Sample) (s : State) : State :=
  s.runStage Instr.modulate.opcode (withSchemes s.schemes s.inBits) (fun x => modulateStages p x.1 x.2) sampleOutput

/-- DEMODULATE on a build with parameters `p`. -/
def demodulateOn (p : Params Sample) (s : State) : State :=
  s.runStage Instr.demodulate.opcode (withSchemes s.schemes s.inSamples)
    (fun x => demodulateStages p x.1 x.2) bitOutput

/-- SETSEL (45_pipeline.md R290). -/
def execSetsel (car lc cor det frm : Code) (s : State) : Host.Outcome State Fault Refusal :=
  .next (setselOn car lc cor det frm s)

/-- XFER (45_pipeline.md R291). -/
def execXfer (s : State) : Host.Outcome State Fault Refusal := .next (xferOn s)

/-- ENCODE (45_pipeline.md R292). -/
def execEncode (s : State) : Host.Outcome State Fault Refusal := .next (encodeOn Config.build s)

/-- DECODE (45_pipeline.md R293). -/
def execDecode (s : State) : Host.Outcome State Fault Refusal := .next (decodeOn Config.build s)

/-- MODULATE (45_pipeline.md R294). -/
def execModulate (s : State) : Host.Outcome State Fault Refusal := .next (modulateOn Config.build s)

/-- DEMODULATE (45_pipeline.md R295). -/
def execDemodulate (s : State) : Host.Outcome State Fault Refusal := .next (demodulateOn Config.build s)

end Sys2Proof.Machine
end

