-- ==== Sys2Proof/Machine/Dispatch.lean ====
section
/-!
DEFINITION. One arm per command (30_encoding.md R83).
-/

namespace Sys2Proof.Machine

/-- The meaning of every command. -/
def exec (i : Instr) (s : State) : Host.Outcome State Fault Refusal :=
  match i with
  | .setsel car lc cor det frm => Sys2Proof.Machine.execSetsel car lc cor det frm s
  | .xfer => Sys2Proof.Machine.execXfer s
  | .t2b => Sys2Proof.Machine.execT2b s
  | .b2t => Sys2Proof.Machine.execB2t s
  | .frmLp => Sys2Proof.Machine.execFrmLp s
  | .dfrLp => Sys2Proof.Machine.execDfrLp s
  | .frmByte => Sys2Proof.Machine.execFrmByte s
  | .dfrByte => Sys2Proof.Machine.execDfrByte s
  | .frmBit => Sys2Proof.Machine.execFrmBit s
  | .dfrBit => Sys2Proof.Machine.execDfrBit s
  | .parEnc => Sys2Proof.Machine.execParEnc s
  | .parDec => Sys2Proof.Machine.execParDec s
  | .crcEnc => Sys2Proof.Machine.execCrcEnc s
  | .crcDec => Sys2Proof.Machine.execCrcDec s
  | .hamEnc => Sys2Proof.Machine.execHamEnc s
  | .hamDec => Sys2Proof.Machine.execHamDec s
  | .nrzEnc => Sys2Proof.Machine.execNrzEnc s
  | .nrzDec => Sys2Proof.Machine.execNrzDec s
  | .manEnc => Sys2Proof.Machine.execManEnc s
  | .manDec => Sys2Proof.Machine.execManDec s
  | .amiEnc => Sys2Proof.Machine.execAmiEnc s
  | .amiDec => Sys2Proof.Machine.execAmiDec s
  | .askMod lc => Sys2Proof.Machine.execAskMod lc s
  | .askDem lc => Sys2Proof.Machine.execAskDem lc s
  | .fskMod lc => Sys2Proof.Machine.execFskMod lc s
  | .fskDem lc => Sys2Proof.Machine.execFskDem lc s
  | .qamMod lc => Sys2Proof.Machine.execQamMod lc s
  | .qamDem lc => Sys2Proof.Machine.execQamDem lc s
  | .encode => Sys2Proof.Machine.execEncode s
  | .decode => Sys2Proof.Machine.execDecode s
  | .modulate => Sys2Proof.Machine.execModulate s
  | .demodulate => Sys2Proof.Machine.execDemodulate s

end Sys2Proof.Machine
end

