-- ==== Sys2Proof/Machine/Step.lean ====
section
/-!
DEFINITION. One step: the host's oldest pending action takes effect, whole (20_memory.md R65, R67).
-/

namespace Sys2Proof.Machine

/-- One step. A command word is decoded and run, or rejected with ConfigurationError (30_encoding.md R84); the
host's other actions act on the state; with nothing pending the block holds its state (60_exceptions.md R335).
An action leaves the pending list as it takes effect (log 1, log 2). -/
def step (s : State) : Host.Outcome State Fault Refusal :=
  match s.host with
  | [] => .next s
  | .command w :: rest =>
    match decode w with
    | .ok i => exec i { s with host := rest }
    | .error _ => .next (State.rejectWord w { s with host := rest })
  | .load kind seq :: rest => .next (State.hostLoad Config.build kind seq { s with host := rest })
  | .reset :: rest => .next (State.hostReset { s with host := rest })
  | .flip i :: rest => .next (State.hostFlip i { s with host := rest })

/-- The state whose next step runs the command word of the low `nbits` bits of `w`: the word is the host's next
action (10_state.md R35, log 2). -/
def State.withFetchWord (s : State) (nbits w : Nat) : State :=
  { s with host := .command (BitVec.ofNat 16 (w % 2 ^ nbits)) :: s.host }

end Sys2Proof.Machine
end

