-- ==== Sys2Proof/Safety.lean ====
section
/-!
DEFINITION. What a legal state is, and what a safe outcome is, in the terms the statements use.
-/

namespace Sys2Proof

/-- The IN column of 30_encoding.md R83: the kind a command requires of IN; none for SETSEL and XFER. -/
def Instr.inKind : Instr → Option (BitVec 3)
  | .setsel _ _ _ _ _ => none
  | .xfer => none
  | .t2b => some 2#3
  | .b2t => some 1#3
  | .frmLp => some 1#3
  | .dfrLp => some 1#3
  | .frmByte => some 1#3
  | .dfrByte => some 1#3
  | .frmBit => some 1#3
  | .dfrBit => some 1#3
  | .parEnc => some 1#3
  | .parDec => some 1#3
  | .crcEnc => some 1#3
  | .crcDec => some 1#3
  | .hamEnc => some 1#3
  | .hamDec => some 1#3
  | .nrzEnc => some 1#3
  | .nrzDec => some 3#3
  | .manEnc => some 1#3
  | .manDec => some 3#3
  | .amiEnc => some 1#3
  | .amiDec => some 3#3
  | .askMod _ => some 3#3
  | .askDem _ => some 4#3
  | .fskMod _ => some 3#3
  | .fskDem _ => some 4#3
  | .qamMod _ => some 3#3
  | .qamDem _ => some 4#3
  | .encode => some 2#3
  | .decode => some 1#3
  | .modulate => some 1#3
  | .demodulate => some 4#3

/-- The opcodes of the format N commands (30_encoding.md R81, R83). -/
def formatNOpcodes : List Opcode :=
  [0x02#6, 0x04#6, 0x05#6, 0x08#6, 0x09#6, 0x0A#6, 0x0B#6, 0x0C#6, 0x0D#6, 0x10#6, 0x11#6, 0x12#6, 0x13#6, 0x14#6,
    0x15#6, 0x18#6, 0x19#6, 0x1A#6, 0x1B#6, 0x1C#6, 0x1D#6, 0x30#6, 0x31#6, 0x32#6, 0x33#6]

/-- The opcodes of the format C commands (30_encoding.md R81, R83). -/
def formatCOpcodes : List Opcode := [0x20#6, 0x21#6, 0x22#6, 0x23#6, 0x24#6, 0x25#6]

/-- The words that 30_encoding.md R84 rejects: a reserved opcode, a format N word with a nonzero ARG, a format C word
with a nonzero must-be-zero bit or LC = 3. Format S (opcode 0x01) is never rejected here. -/
def RejectedWord (w : Word) : Prop :=
  (opField w ≠ 0x01#6 ∧ opField w ∉ formatNOpcodes ∧ opField w ∉ formatCOpcodes) ∨
    (opField w ∈ formatNOpcodes ∧ argField w ≠ 0#10) ∨
    (opField w ∈ formatCOpcodes ∧ (carField w ≠ 0#2 ∨ w.extractLsb' 0 6 ≠ 0#6 ∨ lcField w = 3#2))

/-- The composed commands, the only ones that read SEL (10_state.md R24). -/
def Instr.composed (i : Instr) : Bool :=
  i == .encode || i == .decode || i == .modulate || i == .demodulate

end Sys2Proof

namespace Sys2Proof.Machine

/-- SEL holds legal values only: it is as reset left it, or VALID = 1, its reserved bits read 0 and no field holds a
reserved code (10_state.md R22, R23). -/
def State.SelLegal (s : State) : Prop :=
  s.sel = 0x0000#16 ∨
    (selValid s.sel = true ∧ s.sel.extractLsb' 10 5 = 0#5 ∧
      (schemesOf (selCar s.sel) (selLc s.sel) (selCor s.sel) (selDet s.sel) (selFrm s.sel)).isSome)

/-- STATUS holds legal values only: reserved bits 0, ERR and STAGE codes that R320 and R321 assign, both 0 or
neither (10_state.md R25; 60_exceptions.md R320, R321, R325, R326). -/
def State.StatusLegal (s : State) : Prop :=
  s.status.extractLsb' 14 2 = 0#2 ∧ statusErr s.status ≤ 7#4 ∧ statusStage s.status ≤ 7#4 ∧
    (statusErr s.status = 0#4 ↔ statusStage s.status = 0#4)

/-- After an error OUT0 and OUT1 hold nothing (60_exceptions.md R325). -/
def State.ErrorClears (s : State) : Prop :=
  statusErr s.status ≠ 0#4 → s.out0 = .none ∧ s.out1 = .none

/-- A buffer the block itself wrote: no LEVEL element holds the reserved code (10_state.md R28) and every SAMPLE is
a number of NUM in its canonical form (log 4). -/
def Buffer.Written : Buffer → Prop
  | .level codes => 0b10#2 ∉ codes
  | .sample xs => ∀ x ∈ xs, x.Canonical
  | _ => True

/-- A buffer the host may have loaded: every SAMPLE is a number of NUM; a LEVEL may be the reserved code
(10_state.md R28, R29). -/
def Buffer.Loaded : Buffer → Prop
  | .sample xs => ∀ x ∈ xs, x.Canonical
  | _ => True

/-- A legal state: what every run from reset keeps. OUT1 is written by ENCODE only, with kind BIT
(30_encoding.md R83, 45_pipeline.md R292). -/
structure State.Legal (s : State) : Prop where
  sel : s.SelLegal
  status : s.StatusLegal
  clears : s.ErrorClears
  input : s.inBuf.Loaded
  output : s.out0.Written
  raw : s.out1 = .none ∨ ∃ bits, s.out1 = .bit bits

/-- The bits of a byte sequence, most significant bit of each byte first (20_memory.md R61): bit 8i + j of `bits` is
bit 7 − j of byte i. -/
def MsbFirst (bytes : List Byte) (bits : List Bit) : Prop :=
  bits.length = 8 * bytes.length ∧
    ∀ i j, j < 8 → bits[8 * i + j]? = (bytes[i]?).map fun b => b.getLsbD (7 - j)

/-- `s[a..a+n)` (00_scope.md R10). -/
def slice {α : Type} (s : List α) (a n : Nat) : List α := (s.drop a).take n

/-- `s` after a command that ended with this STATUS, OUT0 and OUT1. Everything else is as in `s`: SEL, IN and the
host's list. -/
def State.ended (s : State) (status : Word) (out0 out1 : Buffer) : State :=
  { s with status := status, out0 := out0, out1 := out1 }

/-- FLAG = 01111110 (41_framing.md R140). -/
def flagPattern : List Bit := [false, true, true, true, true, true, true, false]

/-- ESC = 01111101 (41_framing.md R140). -/
def escPattern : List Bit := [false, true, true, true, true, true, false, true]

/-- P9 = 011111100 (41_framing.md R150). -/
def stuffedPattern : List Bit := [false, true, true, true, true, true, true, false, false]

/-- `markerCheck` fails: shorter than two markers, or a marker that is not FLAG (41_framing.md R142). -/
def BadMarkers (f : List Bit) : Prop :=
  f.length < 16 ∨ f.take 8 ≠ flagPattern ∨ f.drop (f.length - 8) ≠ flagPattern

/-- The rows of the table of well-formed UTF-8 byte sequences: the range of each byte (40_codec.md R113). -/
def utf8Patterns : List (List (Byte × Byte)) :=
  [[(0x00#8, 0x7F#8)],
    [(0xC2#8, 0xDF#8), (0x80#8, 0xBF#8)],
    [(0xE0#8, 0xE0#8), (0xA0#8, 0xBF#8), (0x80#8, 0xBF#8)],
    [(0xE1#8, 0xEC#8), (0x80#8, 0xBF#8), (0x80#8, 0xBF#8)],
    [(0xED#8, 0xED#8), (0x80#8, 0x9F#8), (0x80#8, 0xBF#8)],
    [(0xEE#8, 0xEF#8), (0x80#8, 0xBF#8), (0x80#8, 0xBF#8)],
    [(0xF0#8, 0xF0#8), (0x90#8, 0xBF#8), (0x80#8, 0xBF#8), (0x80#8, 0xBF#8)],
    [(0xF1#8, 0xF3#8), (0x80#8, 0xBF#8), (0x80#8, 0xBF#8), (0x80#8, 0xBF#8)],
    [(0xF4#8, 0xF4#8), (0x80#8, 0x8F#8), (0x80#8, 0xBF#8), (0x80#8, 0xBF#8)]]

/-- The bytes split into sequences of the table with nothing left over (40_codec.md R113). -/
def Utf8Text (bytes : List Byte) : Prop :=
  ∃ parts : List (List Byte), parts.flatten = bytes ∧
    ∀ part ∈ parts, ∃ row ∈ utf8Patterns, List.Forall₂ (fun b r => r.1 ≤ b ∧ b ≤ r.2) part row

/-- `frame` is the payload behind its length as four ASCII decimal digits, most significant first
(41_framing.md R130, R131). -/
def LengthFramed (frame payload : List Bit) : Prop :=
  ∃ d3 d2 d1 d0 : Nat, d3 ≤ 9 ∧ d2 ≤ 9 ∧ d1 ≤ 9 ∧ d0 ≤ 9 ∧
    payload.length = 1000 * d3 + 100 * d2 + 10 * d1 + d0 ∧
    ∃ digits : List Bit, MsbFirst ([d3, d2, d1, d0].map fun d => BitVec.ofNat 8 (0x30 + d)) digits ∧
      frame = digits ++ payload

/-- The payloads that mode REFERENCE does not carry: 100 bits or more, or 8 or 9 bits of which the first 8 are an ASCII
digit (41_framing.md R135). -/
def ReferenceFails (payload : List Bit) : Prop :=
  100 ≤ payload.length ∨ ((payload.length = 8 ∨ payload.length = 9) ∧
    ∃ d : Nat, d ≤ 9 ∧ MsbFirst [BitVec.ofNat 8 (0x30 + d)] (payload.take 8))

/-- A byte-stuffed body and its payload, scanned byte by byte from the left: ESC is removed and keeps the byte after
it, any other byte is data, a tail shorter than a byte is copied. A body whose last whole byte is an ESC that escapes
nothing has no payload (41_framing.md R143). -/
inductive Unescapes : List Bit → List Bit → Prop
  | tail (t : List Bit) : t.length < 8 → Unescapes t t
  | escaped (b rest out : List Bit) : b.length = 8 → Unescapes rest out →
      Unescapes (escPattern ++ b ++ rest) (b ++ out)
  | byte (b rest out : List Bit) : b.length = 8 → b ≠ escPattern → Unescapes rest out →
      Unescapes (b ++ rest) (b ++ out)

/-- A bit-stuffed body and its payload, scanned at the cursor: 9 bits of P9 give FLAG, any other 8 bits are copied, and
so is a tail shorter than a byte (41_framing.md R152). -/
inductive Unstuffs : List Bit → List Bit → Prop
  | tail (t : List Bit) : t.length < 8 → Unstuffs t t
  | stuffed (rest out : List Bit) : Unstuffs rest out → Unstuffs (stuffedPattern ++ rest) (flagPattern ++ out)
  | byte (b rest out : List Bit) : b.length = 8 → ¬ stuffedPattern <+: b ++ rest → Unstuffs rest out →
      Unstuffs (b ++ rest) (b ++ out)

/-- The coverage table: each parity bit with its positions (42_error_control.md R190). -/
def coverage : List (Nat × List Nat) :=
  [(1, [1, 3, 5, 7, 9, 11]), (2, [2, 3, 6, 7, 10, 11]), (4, [4, 5, 6, 7, 12]), (8, [8, 9, 10, 11, 12])]

/-- The data positions DP (42_error_control.md R190). -/
def dataAt : List Nat := [3, 5, 6, 7, 9, 10, 11, 12]

/-- The XOR of a group over positions, 0 or 1; position P is index P − 1 (42_error_control.md R190). -/
def parityOver (g : List Bit) (positions : List Nat) : Nat :=
  positions.countP (fun q => g[q - 1]? == some true) % 2

/-- `g` is the codeword of the 8 data bits `d` (42_error_control.md R190). -/
def HammingCodeword (d g : List Bit) : Prop :=
  g.length = 12 ∧ dataAt.map (fun q => g[q - 1]?) = d.map some ∧ ∀ row ∈ coverage, parityOver g row.2 = 0

/-- `syndrome(g)` (42_error_control.md R192). -/
def hammingSyndrome (g : List Bit) : Nat := (coverage.map fun row => row.1 * parityOver g row.2).sum

/-- `d` is `hamFix(g)`: the data bits of `g` with position e flipped when the syndrome e is 1 to 12
(42_error_control.md R193). -/
def HammingCorrects (g d : List Bit) : Prop :=
  let e := hammingSyndrome g
  dataAt.map (fun q => (g[q - 1]?).map fun b => if q = e ∧ 1 ≤ e ∧ e ≤ 12 then !b else b) = d.map some

/-- At most one bit is flipped in each whole 12-bit group and none in the tail (42_error_control.md R195). -/
def OneFlipPerGroup (flips : List Bit) : Prop :=
  (∀ i, (slice flips (12 * i) 12).length = 12 → (slice flips (12 * i) 12).count true ≤ 1) ∧
    true ∉ flips.drop (12 * (flips.length / 12))

/-- A stored level as an integer, −1 < 0 < +1 (10_state.md R28, 43_line_coding.md R214). -/
def codeValue (c : LevelCode) : Int := if c = 0b01#2 then 1 else if c = 0b11#2 then -1 else 0

/-- The alphabets of the line codes (43_line_coding.md R220). -/
def alphabet : LineCode → List Level
  | .nrz => [.neg, .pos]
  | .man => [.zero, .pos]
  | .ami => [.neg, .zero, .pos]

/-- The presence convention (44_modulation.md R243): NRZ-Polar and Manchester are on at +1, AMI at ±1. -/
def carrierOn : LineCode → Level → Bool
  | .nrz, l => l == .pos
  | .man, l => l == .pos
  | .ami, l => l != .zero

/-- The code of the level that presence bit i is rebuilt to (44_modulation.md R244, and AMI_ENC's levels,
43_line_coding.md R222): NRZ ±1, Manchester 0 or +1, AMI 0 or an alternating ±1 that starts at +1. -/
def rebuiltCode (lc : LineCode) (bits : List Bit) (i : Nat) (b : Bit) : LevelCode :=
  match lc with
  | .nrz => if b then 0b01#2 else 0b11#2
  | .man => if b then 0b01#2 else 0b00#2
  | .ami => if b then (if (bits.take i).count true % 2 = 0 then 0b01#2 else 0b11#2) else 0b00#2

/-- `codes` are the stored levels of recon(LC, bits) (44_modulation.md R244). -/
def Rebuilds (lc : LineCode) (bits : List Bit) (codes : List LevelCode) : Prop :=
  codes.length = bits.length ∧ ∀ i b, bits[i]? = some b → codes[i]? = some (rebuiltCode lc bits i b)

/-- The selector code of a line code (10_state.md R22). -/
def lineCodeCode : LineCode → Code
  | .nrz => 0#2
  | .man => 1#2
  | .ami => 2#2

/-- The code of the level that a pad bit is rebuilt to (44_modulation.md R266). -/
def padCode : LineCode → LevelCode
  | .nrz => 0b11#2
  | .man => 0b00#2
  | .ami => 0b00#2

/-- SEL is valid and its fields select these schemes (10_state.md R22). -/
def State.Selects (s : State) (m : Schemes) : Prop :=
  s.sel.getLsbD 15 = true ∧ framingOf (s.sel.extractLsb' 0 2) = some m.frm ∧
    detectionOf (s.sel.extractLsb' 2 2) = some m.det ∧ correctionOf (s.sel.extractLsb' 4 2) = some m.cor ∧
    lineCodeOf (s.sel.extractLsb' 6 2) = some m.lc ∧ carrierOf (s.sel.extractLsb' 8 2) = some m.car

/-- The framer a selector names (45_pipeline.md R292). -/
def framer : Framing → Instr
  | .lengthPrefix => .frmLp
  | .byteStuffing => .frmByte
  | .bitStuffing => .frmBit

/-- The deframer a selector names (45_pipeline.md R293). -/
def deframer : Framing → Instr
  | .lengthPrefix => .dfrLp
  | .byteStuffing => .dfrByte
  | .bitStuffing => .dfrBit

/-- The detection encoder a selector names; none for "none" (45_pipeline.md R292, R297). -/
def detectionEncoder : Detection → Option Instr
  | .none => none
  | .parity => some .parEnc
  | .crc => some .crcEnc

/-- The detection decoder a selector names; none for "none" (45_pipeline.md R293, R297). -/
def detectionDecoder : Detection → Option Instr
  | .none => none
  | .parity => some .parDec
  | .crc => some .crcDec

/-- The correction encoder a selector names; none for "none" (45_pipeline.md R292, R297). -/
def correctionEncoder : Correction → Option Instr
  | .none => none
  | .hamming => some .hamEnc

/-- The correction decoder a selector names; none for "none" (45_pipeline.md R293, R297). -/
def correctionDecoder : Correction → Option Instr
  | .none => none
  | .hamming => some .hamDec

/-- The line encoder a selector names (43_line_coding.md R224). -/
def lineEncoder : LineCode → Instr
  | .nrz => .nrzEnc
  | .man => .manEnc
  | .ami => .amiEnc

/-- The line decoder a selector names (43_line_coding.md R224). -/
def lineDecoder : LineCode → Instr
  | .nrz => .nrzDec
  | .man => .manDec
  | .ami => .amiDec

/-- The modulator two selectors name (44_modulation.md R268). -/
def modulator (car : Carrier) (lc : LineCode) : Instr :=
  match car with
  | .ask => .askMod (lineCodeCode lc)
  | .fsk => .fskMod (lineCodeCode lc)
  | .qam => .qamMod (lineCodeCode lc)

/-- The demodulator two selectors name (44_modulation.md R268). -/
def demodulator (car : Carrier) (lc : LineCode) : Instr :=
  match car with
  | .ask => .askDem (lineCodeCode lc)
  | .fsk => .fskDem (lineCodeCode lc)
  | .qam => .qamDem (lineCodeCode lc)

/-- The command turns IN = `b` into OUT0 = `b'` without an error. -/
def Gives (i : Instr) (b b' : Buffer) : Prop :=
  ∀ s : State, s.inBuf = b → ∃ t, exec i s = .next t ∧ statusErr t.status = 0#4 ∧ t.out0 = b'

/-- The same for an optional stage: "none" is the identity (45_pipeline.md R297). -/
def GivesIfAny (i : Option Instr) (b b' : Buffer) : Prop :=
  match i with
  | none => b' = b
  | some i => Gives i b b'

/-- The command raises on IN = `b`, with this STAGE and ERR. -/
def Raises (i : Instr) (b : Buffer) (stageErr : BitVec 8) : Prop :=
  stageErr.extractLsb' 0 4 ≠ 0#4 ∧
    ∀ s : State, s.inBuf = b → ∃ t, exec i s = .next t ∧ t.status.extractLsb' 0 8 = stageErr

/-- Whether an element the host presents is of the type of a kind; a Sample is a number of NUM (00_scope.md R11,
10_state.md R27, R29). -/
def Element.OfKind (p : Params Sample) (kind : BitVec 3) : Element → Prop
  | .bit _ => kind = 1#3
  | .byte _ => kind = 2#3
  | .level _ => kind = 3#3
  | .sample x => kind = 4#3 ∧ p.num.holds x = true

/-- The loads that the host port takes: a real kind, elements of that kind's type, at most MAX_LEN of them
(10_state.md R29). -/
def LoadTaken (p : Params Sample) (kind : BitVec 3) (seq : List Element) : Prop :=
  1#3 ≤ kind ∧ kind ≤ 4#3 ∧ (∀ e ∈ seq, e.OfKind p kind) ∧ ∀ n, p.maxLen = some n → seq.length ≤ n

/-- A command on a build with parameters `p`; `exec` is this on `Config.build`. -/
def commandOn (p : Params Sample) : Instr → State → State
  | .setsel car lc cor det frm => setselOn car lc cor det frm
  | .xfer => xferOn
  | .t2b => t2bOn p
  | .b2t => b2tOn p
  | .frmLp => frmLpOn p
  | .dfrLp => dfrLpOn p
  | .frmByte => frmByteOn p
  | .dfrByte => dfrByteOn p
  | .frmBit => frmBitOn p
  | .dfrBit => dfrBitOn p
  | .parEnc => parEncOn p
  | .parDec => parDecOn p
  | .crcEnc => crcEncOn p
  | .crcDec => crcDecOn p
  | .hamEnc => hamEncOn p
  | .hamDec => hamDecOn p
  | .nrzEnc => nrzEncOn p
  | .nrzDec => nrzDecOn p
  | .manEnc => manEncOn p
  | .manDec => manDecOn p
  | .amiEnc => amiEncOn p
  | .amiDec => amiDecOn p
  | .askMod lc => askModOn p lc
  | .askDem lc => askDemOn p lc
  | .fskMod lc => fskModOn p lc
  | .fskDem lc => fskDemOn p lc
  | .qamMod lc => qamModOn p lc
  | .qamDem lc => qamDemOn p lc
  | .encode => encodeOn p
  | .decode => decodeOn p
  | .modulate => modulateOn p
  | .demodulate => demodulateOn p

/-- The STAGE code of a command that is one stage (60_exceptions.md R321); none for the others. -/
def stageCode : Instr → Option (BitVec 4)
  | .setsel _ _ _ _ _ => none
  | .xfer => none
  | .t2b => some 2#4
  | .b2t => some 2#4
  | .frmLp => some 3#4
  | .dfrLp => some 3#4
  | .frmByte => some 3#4
  | .dfrByte => some 3#4
  | .frmBit => some 3#4
  | .dfrBit => some 3#4
  | .parEnc => some 4#4
  | .parDec => some 4#4
  | .crcEnc => some 4#4
  | .crcDec => some 4#4
  | .hamEnc => some 5#4
  | .hamDec => some 5#4
  | .nrzEnc => some 6#4
  | .nrzDec => some 6#4
  | .manEnc => some 6#4
  | .manDec => some 6#4
  | .amiEnc => some 6#4
  | .amiDec => some 6#4
  | .askMod _ => some 7#4
  | .askDem _ => some 7#4
  | .fskMod _ => some 7#4
  | .fskDem _ => some 7#4
  | .qamMod _ => some 7#4
  | .qamDem _ => some 7#4
  | .encode => none
  | .decode => none
  | .modulate => none
  | .demodulate => none

/-- The stage commands that a composed command runs, in order (45_pipeline.md R292 to R297). -/
def composedStages (m : Schemes) : Instr → Option (List Instr)
  | .encode => some ([.t2b, framer m.frm] ++ (detectionEncoder m.det).toList ++ (correctionEncoder m.cor).toList)
  | .decode => some ((correctionDecoder m.cor).toList ++ (detectionDecoder m.det).toList ++ [deframer m.frm, .b2t])
  | .modulate => some [lineEncoder m.lc, modulator m.car m.lc]
  | .demodulate => some [demodulator m.car m.lc, lineDecoder m.lc]
  | _ => none

/-- Stage commands one after another, each on the output of the one before; the first that raises ends them with its STAGE
and ERR (45_pipeline.md R296). -/
def stagesOn (p : Params Sample) : List Instr → Buffer → Except (BitVec 8) Buffer
  | [], b => .ok b
  | i :: rest, b =>
    let t := commandOn p i { State.reset with inBuf := b }
    if statusErr t.status = 0#4 then stagesOn p rest t.out0 else .error (t.status.extractLsb' 0 8)

/-- What a composed command leaves in OUT1: ENCODE the raw bits of T2B, the others nothing (45_pipeline.md R292). -/
def composedRaw (p : Params Sample) (i : Instr) (b : Buffer) : Buffer :=
  if i = .encode then ((stagesOn p [.t2b] b).toOption).getD .none else .none

/-- The real number a sum stands for: each term (n, c) is c·cos(2π·n/100). -/
noncomputable def CosSum.toReal (r : CosSum) : ℝ :=
  (r.map fun p => (p.2 : ℝ) * Real.cos (2 * Real.pi * p.1 / 100)).sum

/-- The real number a sample is (00_scope.md R14). -/
noncomputable def Sample.toReal (x : Sample) : ℝ := CosSum.toReal x.terms

/-- The ideal NUM of 00_scope.md R8: the real numbers, stored and compared exactly. -/
noncomputable def idealFormat : NumFormat ℝ where
  holds _ := true
  store x := x
  zero := 0
  ofRat q := q
  scale c x := c * x
  add x y := x + y
  mul x y := x * y
  abs x := |x|
  sum := List.sum
  inner w g := ((List.range w.length).map fun k => (w[k]?).getD 0 * g k).sum
  order := cmp
  near _ _ _ := false
  draw _ _ _ := .eq

/-- The same build with NUM the ideal real numbers (00_scope.md R8, 93_implementation_defined.md U10). -/
noncomputable def onReals (p : Params Sample) : Params ℝ :=
  { p with num := idealFormat, sintab := fun m => (p.sintab m).toReal }

/-- The build whose SINTAB is `T` and which is otherwise the one that exec runs (00_scope.md R8, 44_modulation.md R241). -/
def buildWithTable (T : Fin 100 → Sample) : Params Sample := { Config.build with sintab := T }

/-- The sum over k of w[k]·g(k), in the reals (44_modulation.md R257, R264). -/
noncomputable def realInner (w : List Sample) (g : Nat → ℝ) : ℝ :=
  ((List.range w.length).map fun k => ((w[k]?).map Sample.toReal).getD 0 * g k).sum

/-- The mean of |w[k]| over a window, in the reals (44_modulation.md R252). -/
noncomputable def realMeanAbs (w : List Sample) : ℝ := (w.map fun x => |x.toReal|).sum / 100

/-- The angle 2π·m/100 of carrier table entry m (44_modulation.md R241). -/
noncomputable def angle (m : Nat) : ℝ := 2 * Real.pi * m / 100

/-- E(w, f), in the reals (44_modulation.md R257). -/
noncomputable def realEnergy (f : Nat) (w : List Sample) : ℝ :=
  realInner w (fun k => Real.sin (angle (f * k))) ^ 2 + realInner w (fun k => Real.cos (angle (f * k))) ^ 2

/-- I of a window, in the reals (44_modulation.md R264). -/
noncomputable def realI (w : List Sample) : ℝ := 2 / 100 * realInner w fun k => Real.sin (angle (2 * k))

/-- Q of a window, in the reals (44_modulation.md R264). -/
noncomputable def realQ (w : List Sample) : ℝ := 2 / 100 * realInner w fun k => Real.cos (angle (2 * k))

/-- r2 of a window, in the reals (44_modulation.md R264). -/
noncomputable def realR2 (w : List Sample) : ℝ := realI w ^ 2 + realQ w ^ 2

/-- `qamDecide` rejects the window: no symbol, or on a boundary (44_modulation.md R264). -/
def QamRejects (w : List Sample) : Prop :=
  realR2 w < 1 / 4 ∨ realR2 w = 9 / 4 ∨ |realI w| = |realQ w|

/-- `qamDecide` answers these bits: ph = 2·b0 + b1 from the dominant component and its sign, b2 from r2
(44_modulation.md R264). -/
def QamDecides (w : List Sample) (b0 b1 b2 : Bit) : Prop :=
  1 / 4 ≤ realR2 w ∧ realR2 w ≠ 9 / 4 ∧ (b2 = true ↔ 9 / 4 < realR2 w) ∧
    ((|realQ w| < |realI w| ∧ b1 = false ∧ (b0 = false ↔ 0 < realI w)) ∨
      (|realI w| < |realQ w| ∧ b1 = true ∧ (b0 = false ↔ 0 < realQ w)))

/-- CRC_GEN as a polynomial, x³ + x² + 1 (42_error_control.md R180). -/
noncomputable def crcPolynomial : Polynomial (ZMod 2) := Polynomial.X ^ 3 + Polynomial.X ^ 2 + 1

/-- A bit sequence as a polynomial over GF(2), its first bit the highest-degree coefficient (42_error_control.md R180). -/
noncomputable def bitPolynomial (s : List Bit) : Polynomial (ZMod 2) :=
  s.foldl (fun acc b => Polynomial.X * acc + Polynomial.C (if b then 1 else 0)) 0

end Sys2Proof.Machine
end

