-- ==== Sys2Proof/Certificates/Slice0/Obligations.lean ====
section
/-!
DEFINITION. The statements for the provers, from the numbered rules of spec/. `s.ended status out0 out1` is `s` with
these three written and nothing else changed, so each equation with it is also the command's frame: SEL, IN and the
host's list are as before.
-/

section Statements

open Sys2Proof Sys2Proof.Machine

/-- Decoding the encoded word of a well-formed command gives the command back (30_encoding.md R80, 30_encoding.md R81,
30_encoding.md R83, 30_encoding.md R84). For every command i whose LC code, if it carries one, is not 3, decode
(encode i) is i: every operand field at every value the encoding admits. -/
def Obligations.DecodeInvertsEncode : Prop :=
  ∀ i : Instr, i.wellFormed = true → decode (encode i) = .ok i

/-- A word that decodes is the encoded word of the command it decodes to (30_encoding.md R80, 30_encoding.md R81,
30_encoding.md R83, 30_encoding.md R84). If a 16-bit word decodes to i, then i is well formed and encode i is that
word: no bit of a word is dropped and two words never mean the same command. -/
def Obligations.EncodeInvertsDecode : Prop :=
  ∀ (w : Word) (i : Instr), decode w = .ok i → i.wellFormed = true ∧ encode i = w

/-- A presented word that fails R84's checks raises ConfigurationError with STAGE = command; every other word runs its
command (30_encoding.md R84). When the host presents a word with a reserved opcode, a nonzero format N argument, a
nonzero must-be-zero bit or LC = 3, the step writes STATUS = (LASTOP = OP, STAGE = 1, ERR = 5), clears OUT0 and OUT1
and changes nothing else of the block. Any other word decodes to a command with that opcode and argument, and the step
runs it. -/
def Obligations.RejectedWordsRaiseConfigurationError : Prop :=
  ∀ (s : State) (w : Word) (rest : List HostAction), s.host = .command w :: rest →
    (RejectedWord w →
      step s = .next (State.ended { s with host := rest } (0#2 ++ opField w ++ 0x15#8) .none .none)) ∧
    (¬ RejectedWord w →
      ∃ i, decode w = .ok i ∧ i.opcode = opField w ∧ i.argument = argField w ∧
        step s = exec i { s with host := rest })

/-- The example words of R87 and R83 decode to the commands they stand for (30_encoding.md R83, 30_encoding.md R87).
0x0404, 0x0559 and 0x0680 decode to the three SETSEL of R87 (CAR, LC, COR, DET, FRM in this order), 0x8000 to ASK_MOD
lc=NRZ, 0x8C40 to FSK_DEM lc=MAN, 0x9080 to QAM_MOD lc=AMI and 0xC000 to ENCODE. -/
def Obligations.KnownWordsDecode : Prop :=
  decode 0x0404#16 = .ok (.setsel 0#2 0#2 0#2 1#2 0#2) ∧
    decode 0x0559#16 = .ok (.setsel 1#2 1#2 1#2 2#2 1#2) ∧
    decode 0x0680#16 = .ok (.setsel 2#2 2#2 0#2 0#2 0#2) ∧
    decode 0x8000#16 = .ok (.askMod 0#2) ∧ decode 0x8C40#16 = .ok (.fskDem 1#2) ∧
    decode 0x9080#16 = .ok (.qamMod 2#2) ∧ decode 0xC000#16 = .ok .encode

/-- A step runs the command that the presented word decodes to (10_state.md R35, 20_memory.md R67, 30_encoding.md
R80). When the host's next action presents a word that decodes to i, the step is exec of i with that action taken from
the host's list; the encoded word of a well-formed i does so, and so does a word placed by withFetchWord. The host's
list is the model's own field (log 1, log 2). -/
def Obligations.StepRunsDecodedCommand : Prop :=
  (∀ (s : State) (w : Word) (rest : List HostAction) (i : Instr), s.host = .command w :: rest →
      decode w = .ok i → step s = exec i { s with host := rest }) ∧
    (∀ (s : State) (rest : List HostAction) (i : Instr), i.wellFormed = true →
      s.host = .command (encode i) :: rest → step s = exec i { s with host := rest }) ∧
    ∀ (s : State) (w : Word) (i : Instr), decode w = .ok i → step (s.withFetchWord 16 w.toNat) = exec i s

/-- Reset sets SEL and STATUS to 0 and every buffer to NONE; with nothing presented the block holds its state
(10_state.md R36, 70_reset_and_hazards.md R350, 70_reset_and_hazards.md R351, 60_exceptions.md R335). The state after
power-on reset and the state after a later Reset() both have SEL = 0x0000, STATUS = 0x0000 and IN, OUT0 and OUT1 of
kind NONE; the host's later actions stay. With nothing presented a step changes nothing. That nothing is pending after
power-on is the model's choice (log 1). -/
def Obligations.ResetClearsEveryRegister : Prop :=
  State.reset = { sel := 0x0000#16, status := 0x0000#16, inBuf := .none, out0 := .none, out1 := .none, host := [] } ∧
    (∀ (s : State) (rest : List HostAction), s.host = .reset :: rest →
      step s = .next { sel := 0x0000#16, status := 0x0000#16, inBuf := .none, out0 := .none, out1 := .none,
                       host := rest }) ∧
    ∀ s : State, s.host = [] → step s = .next s

/-- HostLoad puts a sequence of a real kind, within MAX_LEN, in IN and nothing else; any other load changes nothing
(00_scope.md R11, 10_state.md R27, 10_state.md R29, 10_state.md R30, 10_state.md R31). On every build: a load whose
kind is 1 to 4, whose elements are all of that kind's type and at most MAX_LEN in number makes IN that kind and that
sequence and changes nothing else; any other load (in particular one element too many) leaves the state as it is. A
step on a pending load is that load on the build that exec runs, whose MAX_LEN is unbounded (log 6) and whose Samples
are the canonical ones (log 4); that a refused load is a step that changes nothing is the model's choice (log 9). -/
def Obligations.HostLoadReplacesInOrIsRefused : Prop :=
  (∀ (p : Params Sample) (s : State) (kind : BitVec 3) (seq : List Element),
      (LoadTaken p kind seq →
        ∃ b : Buffer, b.kind = kind ∧ b.elements = seq ∧ s.hostLoad p kind seq = { s with inBuf := b }) ∧
      (¬ LoadTaken p kind seq → s.hostLoad p kind seq = s)) ∧
    ∀ (s : State) (kind : BitVec 3) (seq : List Element) (rest : List HostAction), s.host = .load kind seq :: rest →
      ((1#3 ≤ kind ∧ kind ≤ 4#3 ∧ ∀ e ∈ seq, e.OfKind Config.build kind) →
        ∃ b : Buffer, b.kind = kind ∧ b.elements = seq ∧ step s = .next { s with inBuf := b, host := rest }) ∧
      (¬ (1#3 ≤ kind ∧ kind ≤ 4#3 ∧ ∀ e ∈ seq, e.OfKind Config.build kind) → step s = .next { s with host := rest })

/-- SETSEL writes 0x8000 | ARG to SEL, or raises ConfigurationError when a field code is reserved (45_pipeline.md
R290). With FRM, DET, LC or CAR = 3 or COR >= 2, SETSEL raises ConfigurationError (STATUS = 0x0115) and SEL keeps its
value; otherwise SEL becomes 0x8000 | (car << 8) | (lc << 6) | (cor << 4) | (det << 2) | frm with STATUS = 0x0100. In
both cases OUT0 and OUT1 become NONE and IN, of whatever kind, is unchanged. -/
def Obligations.SetselLoadsLegalSelectorsOnly : Prop :=
  ∀ (s : State) (car lc cor det frm : Code),
    ((frm = 3#2 ∨ det = 3#2 ∨ 2#2 ≤ cor ∨ lc = 3#2 ∨ car = 3#2) →
      exec (.setsel car lc cor det frm) s = .next (s.ended 0x0115#16 .none .none)) ∧
    (¬ (frm = 3#2 ∨ det = 3#2 ∨ 2#2 ≤ cor ∨ lc = 3#2 ∨ car = 3#2) →
      exec (.setsel car lc cor det frm) s =
        .next (State.ended
          { s with
            sel := 0x8000#16 |||
              BitVec.ofNat 16 (256 * car.toNat + 64 * lc.toNat + 16 * cor.toNat + 4 * det.toNat + frm.toNat) }
          0x0100#16 .none .none))

/-- XFER moves OUT0 to IN, or raises ConfigurationError when OUT0 holds nothing (45_pipeline.md R291). With OUT0 of
kind NONE, XFER raises ConfigurationError (STATUS = 0x0215) and IN is unchanged; otherwise IN takes OUT0's kind and
sequence with STATUS = 0x0200. OUT0 and OUT1 become NONE, SEL is unchanged. -/
def Obligations.XferMovesOut0ToIn : Prop :=
  ∀ s : State,
    (s.out0 = .none → exec .xfer s = .next (s.ended 0x0215#16 .none .none)) ∧
    (s.out0 ≠ .none → exec .xfer s = .next (State.ended { s with inBuf := s.out0 } 0x0200#16 .none .none))

/-- T2B writes every byte of IN as 8 bits, most significant bit first, and validates nothing (40_codec.md R110,
20_memory.md R61, 40_codec.md R111). For any bytes in IN, T2B succeeds (STATUS = 0x0400) and OUT0 is the bit sequence
whose bit 8i + j is bit 7 - j of byte i; OUT1 is NONE, SEL and IN are unchanged. The build's MAX_LEN is unbounded (log
6), so CapacityError does not occur. -/
def Obligations.T2bWritesMostSignificantBitFirst : Prop :=
  ∀ (s : State) (bytes : List Byte), s.inBuf = .byte bytes →
    ∃ bits, MsbFirst bytes bits ∧ exec .t2b s = .next (s.ended 0x0400#16 (.bit bits) .none)

/-- B2T gives the bytes of the bits when they are well-formed UTF-8, and raises DecodeError otherwise (40_codec.md
R112, 40_codec.md R113). With a bit count that is not a multiple of 8, B2T raises DecodeError (STATUS = 0x0523).
Otherwise the bits are the bits of bytes, most significant first: when these split into rows of R113's table with
nothing left over B2T gives them with STATUS = 0x0500, and when not it raises DecodeError. -/
def Obligations.B2tReadsWellFormedTextOnly : Prop :=
  ∀ (s : State) (bits : List Bit), s.inBuf = .bit bits →
    (bits.length % 8 ≠ 0 → exec .b2t s = .next (s.ended 0x0523#16 .none .none)) ∧
    (bits.length % 8 = 0 → ∃ bytes, MsbFirst bytes bits ∧
      (Utf8Text bytes → exec .b2t s = .next (s.ended 0x0500#16 (.byte bytes) .none)) ∧
      (¬ Utf8Text bytes → exec .b2t s = .next (s.ended 0x0523#16 .none .none)))

/-- B2T after T2B gives back well-formed UTF-8 bytes and raises DecodeError on any others (40_codec.md R114). For
every byte sequence x, T2B gives bits from which B2T gives x when x is well-formed UTF-8, and raises DecodeError
(STAGE = codec) when it is not. -/
def Obligations.B2tInvertsT2bOnText : Prop :=
  ∀ bytes : List Byte, ∃ bits, Gives .t2b (.byte bytes) (.bit bits) ∧
    (Utf8Text bytes → Gives .b2t (.bit bits) (.byte bytes)) ∧
    (¬ Utf8Text bytes → Raises .b2t (.bit bits) 0x23#8)

/-- B2T accepts exactly the UTF-8 encodings of sequences of Unicode scalar values (40_codec.md R112, 40_codec.md
R113). For the bits of any bytes, B2T succeeds with those bytes when they are the UTF-8 encoding of some sequence of
characters (Unicode scalar values), and raises DecodeError when they are not: R113's table is the Unicode table of
well-formed byte sequences. -/
def Obligations.B2tAcceptsExactlyUnicodeText : Prop :=
  ∀ (s : State) (bytes : List Byte) (bits : List Bit), MsbFirst bytes bits → s.inBuf = .bit bits →
    ((∃ text : List Char, bytes = (text.flatMap String.utf8EncodeChar).map UInt8.toBitVec) →
      exec .b2t s = .next (s.ended 0x0500#16 (.byte bytes) .none)) ∧
    ((¬ ∃ text : List Char, bytes = (text.flatMap String.utf8EncodeChar).map UInt8.toBitVec) →
      exec .b2t s = .next (s.ended 0x0523#16 .none .none))

/-- FRM_LP puts the payload's length as four ASCII decimal digits in front of it (41_framing.md R130, 41_framing.md
R131). A payload of 10000 bits or more raises FramingError (STATUS = 0x0831). Any shorter payload is framed (STATUS =
0x0800): OUT0 is the four ASCII digits of its bit count, most significant digit and bit first, and the payload.
LP_MODE is FIXED with 4 digits and MAX_LEN unbounded in this build (log 6, log 7). -/
def Obligations.FrmLpPrependsTheDecimalLength : Prop :=
  ∀ (s : State) (payload : List Bit), s.inBuf = .bit payload →
    (10000 ≤ payload.length → exec .frmLp s = .next (s.ended 0x0831#16 .none .none)) ∧
    (payload.length < 10000 →
      ∃ frame, LengthFramed frame payload ∧ exec .frmLp s = .next (s.ended 0x0800#16 (.bit frame) .none))

/-- DFR_LP strips the prefix of a length-framed sequence and raises FramingError on any other (41_framing.md R130,
41_framing.md R132). When IN is four ASCII digits and a payload of that many bits, DFR_LP gives the payload (STATUS =
0x0900); when it is not (too short, a prefix byte that is no digit, another declared length) it raises FramingError
(STATUS = 0x0931). LP_MODE is FIXED with 4 digits in this build (log 7). -/
def Obligations.DfrLpAcceptsExactlyItsFrames : Prop :=
  ∀ (s : State) (frame : List Bit), s.inBuf = .bit frame →
    (∀ payload, LengthFramed frame payload → exec .dfrLp s = .next (s.ended 0x0900#16 (.bit payload) .none)) ∧
    ((¬ ∃ payload, LengthFramed frame payload) → exec .dfrLp s = .next (s.ended 0x0931#16 .none .none))

/-- In FIXED mode, with any number of digits, DFR_LP inverts FRM_LP on every payload that fits (41_framing.md R136).
For every build with LP_MODE = FIXED and MAX_LEN unbounded, and every payload shorter than 10^LP_DIGITS bits, FRM_LP
succeeds with a frame from which DFR_LP gives the payload. -/
def Obligations.FixedLengthPrefixRoundTrips : Prop :=
  ∀ (p : Params Sample) (payload : List Bit), p.lpMode = .fixed → p.maxLen = none → payload.length < 10 ^ p.lpDigits →
    ∃ frame, (∀ s : State, s.inBuf = .bit payload → frmLpOn p s = s.ended 0x0800#16 (.bit frame) .none) ∧
      ∀ s : State, s.inBuf = .bit frame → dfrLpOn p s = s.ended 0x0900#16 (.bit payload) .none

/-- In REFERENCE mode the round trip fails exactly for 100 bits or more, and for 8 or 9 bits that begin with a digit
byte (41_framing.md R135). For every build with LP_MODE = REFERENCE and MAX_LEN unbounded and every payload, FRM_LP
succeeds with a frame on which DFR_LP raises FramingError when the payload has 100 bits or more, or has 8 or 9 bits
whose first 8 are an ASCII digit; on every other payload DFR_LP gives the payload back. -/
def Obligations.ReferencePrefixRoundTripFailsExactly : Prop :=
  ∀ (p : Params Sample) (payload : List Bit), p.lpMode = .reference → p.maxLen = none →
    ∃ frame, (∀ s : State, s.inBuf = .bit payload → frmLpOn p s = s.ended 0x0800#16 (.bit frame) .none) ∧
      (ReferenceFails payload →
        ∀ s : State, s.inBuf = .bit frame → dfrLpOn p s = s.ended 0x0931#16 .none .none) ∧
      (¬ ReferenceFails payload →
        ∀ s : State, s.inBuf = .bit frame → dfrLpOn p s = s.ended 0x0900#16 (.bit payload) .none)

/-- FRM_BYTE puts the payload between FLAGs with ESC before every payload byte that is FLAG or ESC (41_framing.md
R140, 41_framing.md R141). FRM_BYTE succeeds on any bits (STATUS = 0x0A00): OUT0 is FLAG, one piece per whole byte of
IN (the byte, behind ESC when it is FLAG or ESC), the tail of 0 to 7 bits unchanged, and FLAG. MAX_LEN is unbounded
(log 6). -/
def Obligations.FrmByteEscapesMarkerBytes : Prop :=
  ∀ (s : State) (payload : List Bit), s.inBuf = .bit payload →
    ∃ pieces : List (List Bit), pieces.length = payload.length / 8 ∧
      (∀ j < payload.length / 8, pieces[j]? =
        some (if slice payload (8 * j) 8 = flagPattern ∨ slice payload (8 * j) 8 = escPattern
          then escPattern ++ slice payload (8 * j) 8 else slice payload (8 * j) 8)) ∧
      exec .frmByte s = .next (s.ended 0x0A00#16
        (.bit (flagPattern ++ pieces.flatten ++ payload.drop (8 * (payload.length / 8)) ++ flagPattern)) .none)

/-- DFR_BYTE checks the markers, removes each ESC that escapes a byte, and raises on a dangling ESC (41_framing.md
R142, 41_framing.md R143). A frame shorter than 16 bits, or without FLAG at both ends, raises FramingError in DFR_BYTE
(STATUS = 0x0B31) and in DFR_BIT (0x0D31); any other frame has a body between its FLAGs. DFR_BYTE gives the body's
bytes without the escapes and with the tail (STATUS = 0x0B00), and raises FramingError when the last whole byte is an
ESC that escapes nothing. -/
def Obligations.DfrByteRemovesEachEscape : Prop :=
  ∀ (s : State) (frame : List Bit), s.inBuf = .bit frame →
    (BadMarkers frame → exec .dfrByte s = .next (s.ended 0x0B31#16 .none .none) ∧
      exec .dfrBit s = .next (s.ended 0x0D31#16 .none .none)) ∧
    (¬ BadMarkers frame → ∃ body, frame = flagPattern ++ body ++ flagPattern ∧
      (∀ payload, Unescapes body payload → exec .dfrByte s = .next (s.ended 0x0B00#16 (.bit payload) .none)) ∧
      ((¬ ∃ payload, Unescapes body payload) → exec .dfrByte s = .next (s.ended 0x0B31#16 .none .none)))

/-- DFR_BYTE inverts FRM_BYTE on every payload of every length (41_framing.md R145). For every bit sequence, FRM_BYTE
succeeds with a frame from which DFR_BYTE gives the sequence. -/
def Obligations.ByteStuffingRoundTrips : Prop :=
  ∀ payload : List Bit, ∃ frame, Gives .frmByte (.bit payload) (.bit frame) ∧
    Gives .dfrByte (.bit frame) (.bit payload)

/-- FRM_BIT puts the payload between FLAGs with every payload byte FLAG replaced by P9 (41_framing.md R150,
41_framing.md R151). FRM_BIT succeeds on any bits (STATUS = 0x0C00): OUT0 is FLAG, one piece per whole byte of IN (P9
= 011111100 when the byte is FLAG, else the byte), the tail of 0 to 7 bits unchanged, and FLAG. MAX_LEN is unbounded
(log 6). -/
def Obligations.FrmBitStuffsFlagBytes : Prop :=
  ∀ (s : State) (payload : List Bit), s.inBuf = .bit payload →
    ∃ pieces : List (List Bit), pieces.length = payload.length / 8 ∧
      (∀ j < payload.length / 8, pieces[j]? =
        some (if slice payload (8 * j) 8 = flagPattern then stuffedPattern else slice payload (8 * j) 8)) ∧
      exec .frmBit s = .next (s.ended 0x0C00#16
        (.bit (flagPattern ++ pieces.flatten ++ payload.drop (8 * (payload.length / 8)) ++ flagPattern)) .none)

/-- DFR_BIT checks the markers and turns each P9 at the cursor into FLAG, copying everything else (41_framing.md
R152). A frame whose markers fail raises FramingError (STATUS = 0x0D31). Any other frame has a body between its FLAGs,
which DFR_BIT scans from the left (STATUS = 0x0D00): 9 bits of P9 give FLAG, any other 8 bits are copied, a tail
shorter than 8 bits is copied. It raises no other error. -/
def Obligations.DfrBitUnstuffsAtTheCursor : Prop :=
  ∀ (s : State) (frame : List Bit), s.inBuf = .bit frame →
    (BadMarkers frame → exec .dfrBit s = .next (s.ended 0x0D31#16 .none .none)) ∧
    (¬ BadMarkers frame → ∃ body payload, frame = flagPattern ++ body ++ flagPattern ∧ Unstuffs body payload ∧
      exec .dfrBit s = .next (s.ended 0x0D00#16 (.bit payload) .none))

/-- DFR_BIT inverts FRM_BIT on every payload of every length (41_framing.md R153). For every bit sequence, FRM_BIT
succeeds with a frame from which DFR_BIT gives the sequence. -/
def Obligations.BitStuffingRoundTrips : Prop :=
  ∀ payload : List Bit, ∃ frame, Gives .frmBit (.bit payload) (.bit frame) ∧
    Gives .dfrBit (.bit frame) (.bit payload)

/-- PAR_ENC appends the sum mod 2; PAR_DEC strips it from an even sequence and raises on an odd or empty one
(42_error_control.md R170, 42_error_control.md R171). PAR_ENC gives IN and one bit, 1 exactly when IN holds an odd
number of 1 bits (STATUS = 0x1000). PAR_DEC raises TransmissionError (STATUS = 0x1142) when IN is empty or holds an
odd number of 1 bits and else gives IN without its last bit (STATUS = 0x1100). MAX_LEN is unbounded (log 6). -/
def Obligations.ParityKeepsTheSumEven : Prop :=
  ∀ (s : State) (bits : List Bit), s.inBuf = .bit bits →
    exec .parEnc s = .next (s.ended 0x1000#16 (.bit (bits ++ [decide (bits.count true % 2 = 1)])) .none) ∧
    (bits = [] ∨ bits.count true % 2 = 1 → exec .parDec s = .next (s.ended 0x1142#16 .none .none)) ∧
    (bits ≠ [] → bits.count true % 2 = 0 →
      exec .parDec s = .next (s.ended 0x1100#16 (.bit bits.dropLast) .none))

/-- PAR_DEC detects every odd number of flipped bits of a PAR_ENC output and no even number (42_error_control.md
R172). Take any bits, PAR_ENC's output on them, and a flip mask of that length: with an odd number of flips (one in
particular) PAR_DEC raises TransmissionError (STAGE = detection), with an even number it raises nothing. -/
def Obligations.ParityDetectsOddFlipsOnly : Prop :=
  ∀ bits : List Bit, ∃ coded, Gives .parEnc (.bit bits) (.bit coded) ∧
    ∀ flips : List Bit, flips.length = coded.length →
      (flips.count true % 2 = 1 → Raises .parDec (.bit (List.zipWith xor coded flips)) 0x42#8) ∧
      (flips.count true % 2 = 0 → ∃ out, Gives .parDec (.bit (List.zipWith xor coded flips)) (.bit out))

/-- The long division of the CRC computes the remainder of the polynomial by x^3 + x^2 + 1 over GF(2)
(42_error_control.md R180, 42_error_control.md R181). For every bit sequence of 3 bits or more, crcRem has 3 bits, and
as a polynomial over GF(2) (first bit the highest coefficient) it is the sequence's polynomial modulo x^3 + x^2 + 1.
-/
def Obligations.CrcRemainderIsPolynomialRemainder : Prop :=
  ∀ w : List Bit, 3 ≤ w.length →
    (crcRem w).length = 3 ∧ bitPolynomial (crcRem w) = bitPolynomial w %ₘ crcPolynomial

/-- CRC_DEC strips 3 bits from a sequence that the generator divides, and raises on any other (42_error_control.md
R183). With fewer than 3 bits, or a polynomial that x^3 + x^2 + 1 does not divide, CRC_DEC raises TransmissionError
(STATUS = 0x1342); otherwise it gives IN without its last 3 bits (STATUS = 0x1300). -/
def Obligations.CrcDecAcceptsExactlyMultiples : Prop :=
  ∀ (s : State) (bits : List Bit), s.inBuf = .bit bits →
    (bits.length < 3 ∨ ¬ crcPolynomial ∣ bitPolynomial bits →
      exec .crcDec s = .next (s.ended 0x1342#16 .none .none)) ∧
    (3 ≤ bits.length → crcPolynomial ∣ bitPolynomial bits →
      exec .crcDec s = .next (s.ended 0x1300#16 (.bit (bits.take (bits.length - 3))) .none))

/-- CRC_ENC appends 3 bits that make the sequence a multiple of the generator, and CRC_DEC takes them off
(42_error_control.md R180, 42_error_control.md R182, 42_error_control.md R183). CRC_ENC succeeds on any bits (STATUS =
0x1200): OUT0 is IN and the 3-bit remainder of IN ++ 000, so that x^3 + x^2 + 1 divides it; CRC_DEC on it gives IN
back. MAX_LEN is unbounded (log 6). -/
def Obligations.CrcEncAppendsTheRemainder : Prop :=
  ∀ (s : State) (bits : List Bit), s.inBuf = .bit bits →
    ∃ check : List Bit, check.length = 3 ∧
      bitPolynomial check = bitPolynomial (bits ++ [false, false, false]) %ₘ crcPolynomial ∧
      crcPolynomial ∣ bitPolynomial (bits ++ check) ∧
      exec .crcEnc s = .next (s.ended 0x1200#16 (.bit (bits ++ check)) .none) ∧
      Gives .crcDec (.bit (bits ++ check)) (.bit bits)

/-- Flipping any single bit of a CRC_ENC output gives a non-zero remainder and makes CRC_DEC raise
(42_error_control.md R184). For every bit sequence, CRC_ENC gives a sequence such that flipping any one bit of it
gives a non-zero remainder and CRC_DEC raises TransmissionError (STAGE = detection). -/
def Obligations.CrcDetectsEverySingleFlip : Prop :=
  ∀ bits : List Bit, ∃ coded : List Bit, Gives .crcEnc (.bit bits) (.bit coded) ∧
    ∀ i < coded.length, crcRem (coded.modify i (!·)) ≠ [false, false, false] ∧
      Raises .crcDec (.bit (coded.modify i (!·))) 0x42#8

/-- HAM_ENC writes each whole byte as its Hamming(12,8) codeword and passes the remainder through (42_error_control.md
R190, 42_error_control.md R191, 42_error_control.md R196). HAM_ENC succeeds on any bits (STATUS = 0x1400): OUT0 is,
for every whole byte, the 12-bit group with the data bits at positions 3, 5, 6, 7, 9, 10, 11, 12 and an even XOR over
each coverage set, and then the remaining 0 to 7 bits. MAX_LEN is unbounded (log 6). -/
def Obligations.HamEncWritesCodewords : Prop :=
  ∀ (s : State) (bits : List Bit), s.inBuf = .bit bits →
    ∃ blocks : List (List Bit), blocks.length = bits.length / 8 ∧
      (∀ i < bits.length / 8, ∃ g, blocks[i]? = some g ∧ HammingCodeword (slice bits (8 * i) 8) g) ∧
      exec .hamEnc s = .next (s.ended 0x1400#16
        (.bit (blocks.flatten ++ bits.drop (8 * (bits.length / 8)))) .none)

/-- HAM_DEC flips the position a syndrome of 1 to 12 names in each group, extracts the data bits and never raises
(42_error_control.md R193, 42_error_control.md R194). HAM_DEC succeeds on any bits (STATUS = 0x1500): OUT0 is, for
every whole group of 12 bits, the 8 data bits with the bit at the position named by a syndrome of 1 to 12 flipped (a
syndrome of 0 or 13 to 15 flips nothing), and then the remaining 0 to 11 bits. -/
def Obligations.HamDecCorrectsBySyndrome : Prop :=
  ∀ (s : State) (bits : List Bit), s.inBuf = .bit bits →
    ∃ blocks : List (List Bit), blocks.length = bits.length / 12 ∧
      (∀ i < bits.length / 12, ∃ d, blocks[i]? = some d ∧ HammingCorrects (slice bits (12 * i) 12) d) ∧
      exec .hamDec s = .next (s.ended 0x1500#16
        (.bit (blocks.flatten ++ bits.drop (12 * (bits.length / 12)))) .none)

/-- HAM_DEC gives back what HAM_ENC coded when at most one bit is flipped in each 12-bit group (42_error_control.md
R195). For every bit sequence, HAM_ENC gives a coded sequence from which HAM_DEC gives the original, whatever flip
mask with at most one flip in each whole 12-bit group and none in the remainder is applied in between (none at all in
particular). -/
def Obligations.HammingCorrectsOneFlipPerGroup : Prop :=
  ∀ bits : List Bit, ∃ coded : List Bit, Gives .hamEnc (.bit bits) (.bit coded) ∧
    ∀ flips : List Bit, flips.length = coded.length → OneFlipPerGroup flips →
      Gives .hamDec (.bit (List.zipWith xor coded flips)) (.bit bits)

/-- Two flipped bits in one Hamming group give wrong data without an error (42_error_control.md R193,
42_error_control.md R195, 42_error_control.md R196). For every 8 data bits and every two different positions of their
codeword, HAM_DEC on the codeword with both bits flipped raises nothing and gives 8 bits that differ from the data. -/
def Obligations.HammingMiscorrectsTwoFlips : Prop :=
  ∀ d : List Bit, d.length = 8 → ∃ g : List Bit, Gives .hamEnc (.bit d) (.bit g) ∧
    ∀ i j, i < j → j < 12 → ∃ out : List Bit, out.length = 8 ∧ out ≠ d ∧
      Gives .hamDec (.bit ((g.modify i (!·)).modify j (!·))) (.bit out)

/-- NRZ_ENC, MAN_ENC and AMI_ENC emit the levels of their mapping, stored as 2-bit codes (43_line_coding.md R210,
43_line_coding.md R212, 43_line_coding.md R213, 43_line_coding.md R221, 43_line_coding.md R222, 10_state.md R28). On
any bits: NRZ_ENC gives +1 for 1 and -1 for 0 (STATUS = 0x1800); MAN_ENC gives (+1, 0) for 1 and (0, +1) for 0
(0x1A00); AMI_ENC gives 0 for 0 and for the 1 bits +1 and -1 by turns, +1 first (0x1C00). Codes: 00 = 0, 01 = +1, 11 =
-1. MAX_LEN is unbounded (log 6). -/
def Obligations.LineEncodersEmitTheirLevels : Prop :=
  ∀ (s : State) (bits : List Bit), s.inBuf = .bit bits →
    exec .nrzEnc s = .next (s.ended 0x1800#16 (.level (bits.map fun b => if b then 0b01#2 else 0b11#2)) .none) ∧
    exec .manEnc s = .next (s.ended 0x1A00#16
      (.level (bits.flatMap fun b => if b then [0b01#2, 0b00#2] else [0b00#2, 0b01#2])) .none) ∧
    ∃ codes, Rebuilds .ami bits codes ∧ exec .amiEnc s = .next (s.ended 0x1C00#16 (.level codes) .none)

/-- NRZ_DEC reads a level above 0 as 1, AMI_DEC reads any nonzero level as 1; only a reserved code raises
(43_line_coding.md R211, 43_line_coding.md R223). On levels without the reserved code, NRZ_DEC gives 1 for +1 and 0
for 0 and -1 (STATUS = 0x1900), AMI_DEC gives 1 for +1 and -1 and 0 for 0 (STATUS = 0x1D00). With a reserved code
among them both raise SignalError with STAGE = line (0x1966, 0x1D66). -/
def Obligations.NrzAndAmiDecodersReadLevels : Prop :=
  ∀ (s : State) (codes : List LevelCode), s.inBuf = .level codes →
    (0b10#2 ∉ codes →
      exec .nrzDec s = .next (s.ended 0x1900#16 (.bit (codes.map fun c => decide (0 < codeValue c))) .none) ∧
      exec .amiDec s = .next (s.ended 0x1D00#16 (.bit (codes.map fun c => decide (codeValue c ≠ 0))) .none)) ∧
    (0b10#2 ∈ codes → exec .nrzDec s = .next (s.ended 0x1966#16 .none .none) ∧
      exec .amiDec s = .next (s.ended 0x1D66#16 .none .none))

/-- MAN_DEC reads a rising pair as 0 and a falling pair as 1, and raises on an odd count or a flat pair
(43_line_coding.md R214). On levels without the reserved code, MAN_DEC raises SignalError (STATUS = 0x1B66) when their
number is odd or when some pair holds equal levels; otherwise it gives one bit per pair, 1 exactly when the second
level is below the first (STATUS = 0x1B00). -/
def Obligations.ManDecReadsTransitions : Prop :=
  ∀ (s : State) (codes : List LevelCode), s.inBuf = .level codes → 0b10#2 ∉ codes →
    (codes.length % 2 = 1 ∨ (∃ j c, codes[2 * j]? = some c ∧ codes[2 * j + 1]? = some c) →
      exec .manDec s = .next (s.ended 0x1B66#16 .none .none)) ∧
    (codes.length % 2 = 0 → (∀ j c, codes[2 * j]? = some c → codes[2 * j + 1]? ≠ some c) →
      ∃ bits : List Bit, bits.length = codes.length / 2 ∧
        (∀ j c0 c1, codes[2 * j]? = some c0 → codes[2 * j + 1]? = some c1 →
          bits[j]? = some (decide (codeValue c1 < codeValue c0))) ∧
        exec .manDec s = .next (s.ended 0x1B00#16 (.bit bits) .none))

/-- A reserved level code in IN makes every command that reads levels raise SignalError from its own stage
(10_state.md R28, 60_exceptions.md R321, 60_exceptions.md R323). With IN of kind LEVEL holding the code 10, NRZ_DEC,
MAN_DEC and AMI_DEC raise SignalError with STAGE = line, and ASK_MOD, FSK_MOD and QAM_MOD, with any line code, with
STAGE = carrier, whatever else holds (an odd level count, a level outside the alphabet). -/
def Obligations.ReservedLevelRaisesSignalError : Prop :=
  ∀ (s : State) (codes : List LevelCode) (lc : LineCode), s.inBuf = .level codes → 0b10#2 ∈ codes →
    exec .nrzDec s = .next (s.ended 0x1966#16 .none .none) ∧
    exec .manDec s = .next (s.ended 0x1B66#16 .none .none) ∧
    exec .amiDec s = .next (s.ended 0x1D66#16 .none .none) ∧
    exec (.askMod (lineCodeCode lc)) s = .next (s.ended 0x2076#16 .none .none) ∧
    exec (.fskMod (lineCodeCode lc)) s = .next (s.ended 0x2276#16 .none .none) ∧
    exec (.qamMod (lineCodeCode lc)) s = .next (s.ended 0x2476#16 .none .none)

/-- Each line decoder inverts its line encoder, which emits only levels of its alphabet (43_line_coding.md R220,
43_line_coding.md R224). For each of the three line codes and every bit sequence, the encoder gives levels of the
code's alphabet from which the decoder gives the bits back. -/
def Obligations.LineDecodersInvertEncoders : Prop :=
  ∀ (lc : LineCode) (bits : List Bit), ∃ ls : List Level, (∀ l ∈ ls, l ∈ alphabet lc) ∧
    Gives (lineEncoder lc) (.bit bits) (.level (ls.map Level.code)) ∧
    Gives (lineDecoder lc) (.level (ls.map Level.code)) (.bit bits)

/-- ASK_MOD sends one window of sin(2π·2k/100) for every present level and 100 zeros for every other (44_modulation.md
R240, 44_modulation.md R242, 44_modulation.md R243, 44_modulation.md R251). On any levels and any line code, ASK_MOD
succeeds (STATUS = 0x2000): OUT0 has 100 samples per level; sample k of window i is the real number sin(2π·2k/100)
when level i is on for the line code and 0 when it is off. The carrier values are the build's (log 7), samples are
exact (log 4), MAX_LEN is unbounded (log 6). -/
def Obligations.AskModGatesTheCarrier : Prop :=
  ∀ (s : State) (lc : LineCode) (ls : List Level), s.inBuf = .level (ls.map Level.code) →
    ∃ xs : List Sample, xs.length = 100 * ls.length ∧
      (∀ i k l x, k < 100 → ls[i]? = some l → xs[100 * i + k]? = some x →
        x.toReal = if carrierOn lc l then Real.sin (angle (2 * k)) else 0) ∧
      exec (.askMod (lineCodeCode lc)) s = .next (s.ended 0x2000#16 (.sample xs) .none)

/-- FSK_MOD sends one window of frequency 4 for every present level and of frequency 2 for every other
(44_modulation.md R240, 44_modulation.md R242, 44_modulation.md R243, 44_modulation.md R256). On any levels and any
line code, FSK_MOD succeeds (STATUS = 0x2200): OUT0 has 100 samples per level; sample k of window i is sin(2π·4k/100)
when level i is on for the line code and sin(2π·2k/100) when it is off. The carrier values are the build's (log 7),
samples are exact (log 4), MAX_LEN is unbounded (log 6). -/
def Obligations.FskModSendsTwoTones : Prop :=
  ∀ (s : State) (lc : LineCode) (ls : List Level), s.inBuf = .level (ls.map Level.code) →
    ∃ xs : List Sample, xs.length = 100 * ls.length ∧
      (∀ i k l x, k < 100 → ls[i]? = some l → xs[100 * i + k]? = some x →
        x.toReal = Real.sin (angle ((if carrierOn lc l then 4 else 2) * k))) ∧
      exec (.fskMod (lineCodeCode lc)) s = .next (s.ended 0x2200#16 (.sample xs) .none)

/-- QAM_MOD sends three presence bits per window by amplitude and phase, and raises on a level outside the alphabet
(43_line_coding.md R220, 44_modulation.md R242, 44_modulation.md R243, 44_modulation.md R262, 44_modulation.md R263).
A level outside the line code's alphabet raises ConstellationError (STATUS = 0x2474). Otherwise QAM_MOD succeeds
(STATUS = 0x2400) with one window per 3 levels, the last padded with 0 bits: sample k of window j is (1 +
b2)·sin(2π·(2k + 25·(2·b0 + b1))/100). The carrier values are the build's (log 7), samples are exact (log 4), MAX_LEN
is unbounded (log 6). -/
def Obligations.QamModSendsTheConstellation : Prop :=
  ∀ (s : State) (lc : LineCode) (ls : List Level), s.inBuf = .level (ls.map Level.code) →
    ((∃ l ∈ ls, l ∉ alphabet lc) →
      exec (.qamMod (lineCodeCode lc)) s = .next (s.ended 0x2474#16 .none .none)) ∧
    ((∀ l ∈ ls, l ∈ alphabet lc) →
      ∃ xs : List Sample, xs.length = 100 * ((ls.length + 2) / 3) ∧
        (∀ j k x, k < 100 → xs[100 * j + k]? = some x →
          let bit : Nat → Nat := fun i => (((ls[i]?).map (carrierOn lc)).getD false).toNat
          x.toReal = ((1 + bit (3 * j + 2) : Nat) : ℝ) *
            Real.sin (angle (2 * k + 25 * (2 * bit (3 * j) + bit (3 * j + 1))))) ∧
        exec (.qamMod (lineCodeCode lc)) s = .next (s.ended 0x2400#16 (.sample xs) .none))

/-- With every SINTAB entry within 0.01 of its sine, every unmodified window is classified as the symbol that made it,
with R267's margins (44_modulation.md R241, 44_modulation.md R243, 44_modulation.md R244, 44_modulation.md R251,
44_modulation.md R252, 44_modulation.md R256, 44_modulation.md R257, 44_modulation.md R262, 44_modulation.md R263,
44_modulation.md R264, 44_modulation.md R265, 44_modulation.md R267). For every table T of samples with |T[m] -
sin(2π·m/100)| <= 0.01, on the build whose SINTAB is T and whose other parameters are the build's (log 7; samples are
stored exactly, log 4): an ASK on window has mean >= 0.6258 and an off window 0; an FSK window has e1 >= 47.99^2 and
e2 <= 2·2.01^2 when on, and the reverse when off; an 8-QAM window has I and Q within 0.0804 of a·cos(90°·ph) and
a·sin(90°·ph), r2 in [0.785, 1.241] for a = 1 and >= 3.55 for a = 2, and its dominant component >= 0.92 against <=
0.08. So for every carrier and line code, modulating levels (of the alphabet, for 8-QAM) and demodulating the samples
raises nothing and gives the levels rebuilt from the presence bits and, for 8-QAM, the 0 to 2 pad bits. -/
def Obligations.SineTableMarginKeepsEveryDecision : Prop :=
  ∀ T : Fin 100 → Sample, (∀ m : Fin 100, |(T m).toReal - Real.sin (angle m)| ≤ 0.01) →
    (∀ lc l, let mean := (meanAbs (buildWithTable T) (askWindow (buildWithTable T) lc l)).toReal
      (carrierOn lc l = true → 0.6258 ≤ mean) ∧ (carrierOn lc l = false → mean = 0)) ∧
    (∀ lc l, let e1 := (energy (buildWithTable T) 4 (fskWindow (buildWithTable T) lc l)).toReal
      let e2 := (energy (buildWithTable T) 2 (fskWindow (buildWithTable T) lc l)).toReal
      (carrierOn lc l = true → 47.99 ^ 2 ≤ e1 ∧ e2 ≤ 2 * 2.01 ^ 2) ∧
      (carrierOn lc l = false → 47.99 ^ 2 ≤ e2 ∧ e1 ≤ 2 * 2.01 ^ 2)) ∧
    (∀ b0 b1 b2, let i := (inPhase (buildWithTable T) (qamWindow (buildWithTable T) b0 b1 b2)).toReal
      let q := (quadrature (buildWithTable T) (qamWindow (buildWithTable T) b0 b1 b2)).toReal
      let a : ℝ := 1 + (b2.toNat : ℝ)
      let phase := angle (25 * (2 * b0.toNat + b1.toNat))
      |i - a * Real.cos phase| ≤ 0.0804 ∧ |q - a * Real.sin phase| ≤ 0.0804 ∧
      (b2 = false → 0.785 ≤ i ^ 2 + q ^ 2 ∧ i ^ 2 + q ^ 2 ≤ 1.241) ∧ (b2 = true → 3.55 ≤ i ^ 2 + q ^ 2) ∧
      (b1 = false → 0.92 ≤ |i| ∧ |q| ≤ 0.08) ∧ (b1 = true → 0.92 ≤ |q| ∧ |i| ≤ 0.08)) ∧
    ∀ (car : Carrier) (lc : LineCode) (ls : List Level), (car = .qam → ∀ l ∈ ls, l ∈ alphabet lc) →
      ∃ xs codes,
        Rebuilds lc (ls.map (carrierOn lc) ++
          if car = .qam then List.replicate ((3 - ls.length % 3) % 3) false else []) codes ∧
        (∀ s : State, s.inBuf = .level (ls.map Level.code) → commandOn (buildWithTable T) (modulator car lc) s =
          s.ended (0#2 ++ (modulator car lc).opcode ++ 0#8) (.sample xs) .none) ∧
        ∀ s : State, s.inBuf = .sample xs → commandOn (buildWithTable T) (demodulator car lc) s =
          s.ended (0#2 ++ (demodulator car lc).opcode ++ 0#8) (.level codes) .none

/-- ASK_DEM reads a window as present above 1/2 mean amplitude, absent below 1/4, and raises in between and on a
partial window (44_modulation.md R244, 44_modulation.md R250, 44_modulation.md R252). A sample count that is not a
multiple of 100 raises SignalError (STATUS = 0x2176). On whole windows: if the mean of |w[k]| of some window lies from
1/4 to 1/2, ASK_DEM raises the same; otherwise it gives the levels rebuilt from one presence bit per window, 1 exactly
when the mean is above 1/2 (STATUS = 0x2100). Samples are exact (log 4); A = 1 is the build's (log 7). -/
def Obligations.AskDemClassifiesByMeanAmplitude : Prop :=
  ∀ (s : State) (lc : LineCode) (xs : List Sample), s.inBuf = .sample xs →
    (xs.length % 100 ≠ 0 → exec (.askDem (lineCodeCode lc)) s = .next (s.ended 0x2176#16 .none .none)) ∧
    (xs.length % 100 = 0 →
      ((∃ i < xs.length / 100, 1 / 4 ≤ realMeanAbs (slice xs (100 * i) 100) ∧
          realMeanAbs (slice xs (100 * i) 100) ≤ 1 / 2) →
        exec (.askDem (lineCodeCode lc)) s = .next (s.ended 0x2176#16 .none .none)) ∧
      ((∀ i < xs.length / 100, realMeanAbs (slice xs (100 * i) 100) < 1 / 4 ∨
          1 / 2 < realMeanAbs (slice xs (100 * i) 100)) →
        ∃ bits codes, bits.length = xs.length / 100 ∧
          (∀ i b, bits[i]? = some b → (b = true ↔ 1 / 2 < realMeanAbs (slice xs (100 * i) 100))) ∧
          Rebuilds lc bits codes ∧
          exec (.askDem (lineCodeCode lc)) s = .next (s.ended 0x2100#16 (.level codes) .none)))

/-- FSK_DEM reads a window as present when its energy at frequency 4 is above that at 2, and raises on a tie and on a
partial window (44_modulation.md R244, 44_modulation.md R250, 44_modulation.md R257). A sample count that is not a
multiple of 100 raises SignalError (STATUS = 0x2376). On whole windows: if some window has E(w, 4) = E(w, 2), FSK_DEM
raises the same; otherwise it gives the levels rebuilt from one presence bit per window, 1 exactly when E(w, 4) > E(w,
2) (STATUS = 0x2300), with E the quadrature energy in the real numbers. The frequencies are the build's (log 7). -/
def Obligations.FskDemPicksTheHigherEnergy : Prop :=
  ∀ (s : State) (lc : LineCode) (xs : List Sample), s.inBuf = .sample xs →
    (xs.length % 100 ≠ 0 → exec (.fskDem (lineCodeCode lc)) s = .next (s.ended 0x2376#16 .none .none)) ∧
    (xs.length % 100 = 0 →
      ((∃ i < xs.length / 100, realEnergy 4 (slice xs (100 * i) 100) = realEnergy 2 (slice xs (100 * i) 100)) →
        exec (.fskDem (lineCodeCode lc)) s = .next (s.ended 0x2376#16 .none .none)) ∧
      ((∀ i < xs.length / 100, realEnergy 4 (slice xs (100 * i) 100) ≠ realEnergy 2 (slice xs (100 * i) 100)) →
        ∃ bits codes, bits.length = xs.length / 100 ∧
          (∀ i b, bits[i]? = some b →
            (b = true ↔ realEnergy 2 (slice xs (100 * i) 100) < realEnergy 4 (slice xs (100 * i) 100))) ∧
          Rebuilds lc bits codes ∧
          exec (.fskDem (lineCodeCode lc)) s = .next (s.ended 0x2300#16 (.level codes) .none)))

/-- QAM_DEM decides amplitude and phase of each window by I, Q and r2, and raises on a boundary and on a partial
window (44_modulation.md R244, 44_modulation.md R250, 44_modulation.md R264, 44_modulation.md R265). A sample count
that is not a multiple of 100 raises SignalError (STATUS = 0x2576). On whole windows: if qamDecide rejects some window
(r2 < 1/4, r2 = 9/4 or |I| = |Q|), QAM_DEM raises the same; otherwise it gives the levels rebuilt from three presence
bits per window, the amplitude bit and the phase bits that I, Q and r2 decide in the real numbers (STATUS = 0x2500).
F_QAM = 2 is the build's (log 7). -/
def Obligations.QamDemDecidesByComponents : Prop :=
  ∀ (s : State) (lc : LineCode) (xs : List Sample), s.inBuf = .sample xs →
    (xs.length % 100 ≠ 0 → exec (.qamDem (lineCodeCode lc)) s = .next (s.ended 0x2576#16 .none .none)) ∧
    (xs.length % 100 = 0 →
      ((∃ i < xs.length / 100, QamRejects (slice xs (100 * i) 100)) →
        exec (.qamDem (lineCodeCode lc)) s = .next (s.ended 0x2576#16 .none .none)) ∧
      ((∀ i < xs.length / 100, ¬ QamRejects (slice xs (100 * i) 100)) →
        ∃ bits codes, bits.length = 3 * (xs.length / 100) ∧
          (∀ i < xs.length / 100, ∃ b0 b1 b2, slice bits (3 * i) 3 = [b0, b1, b2] ∧
            QamDecides (slice xs (100 * i) 100) b0 b1 b2) ∧
          Rebuilds lc bits codes ∧
          exec (.qamDem (lineCodeCode lc)) s = .next (s.ended 0x2500#16 (.level codes) .none)))

/-- ASK_DEM inverts ASK_MOD and FSK_DEM inverts FSK_MOD on everything a line encoder produces (44_modulation.md R245,
44_modulation.md R253, 44_modulation.md R258). For every line code and every bit sequence, the line encoder gives
levels from whose ASK and FSK samples the demodulator of the same line code gives the levels back. The carrier values
are the build's (log 7), samples are exact (log 4). -/
def Obligations.AskAndFskRoundTrip : Prop :=
  ∀ (car : Carrier) (lc : LineCode) (bits : List Bit), car = .ask ∨ car = .fsk →
    ∃ codes xs, Gives (lineEncoder lc) (.bit bits) (.level codes) ∧
      Gives (modulator car lc) (.level codes) (.sample xs) ∧
      Gives (demodulator car lc) (.sample xs) (.level codes)

/-- QAM_DEM gives back what QAM_MOD sent exactly when the level count is a multiple of 3, else with the pad's levels
behind (44_modulation.md R245, 44_modulation.md R266). For every line code and every bit sequence, the line encoder
gives levels from whose 8-QAM samples QAM_DEM gives those levels and, for a level count that is not a multiple of 3,
the levels of the 1 or 2 pad bits after them (-1 for NRZ-Polar, 0 for Manchester and AMI). -/
def Obligations.QamRoundTripsUpToPadding : Prop :=
  ∀ (lc : LineCode) (bits : List Bit),
    ∃ codes xs, Gives (lineEncoder lc) (.bit bits) (.level codes) ∧
      Gives (.qamMod (lineCodeCode lc)) (.level codes) (.sample xs) ∧
      Gives (.qamDem (lineCodeCode lc)) (.sample xs)
        (.level (codes ++ List.replicate ((3 - codes.length % 3) % 3) (padCode lc))) ∧
      (codes.length % 3 = 0 ↔ codes ++ List.replicate ((3 - codes.length % 3) % 3) (padCode lc) = codes)

/-- ENCODE, DECODE, MODULATE and DEMODULATE raise ConfigurationError while SEL.VALID is 0 (10_state.md R24,
60_exceptions.md R322, 60_exceptions.md R323). With bit 15 of SEL clear, each of the four composed commands raises
ConfigurationError with STAGE = command, whatever IN holds. -/
def Obligations.ComposedCommandsNeedValidSelectors : Prop :=
  ∀ s : State, s.sel.getLsbD 15 = false →
    exec .encode s = .next (s.ended 0x3015#16 .none .none) ∧
    exec .decode s = .next (s.ended 0x3115#16 .none .none) ∧
    exec .modulate s = .next (s.ended 0x3215#16 .none .none) ∧
    exec .demodulate s = .next (s.ended 0x3315#16 .none .none)

/-- ENCODE is T2B, the selected framer, detection encoder and correction encoder in this order (45_pipeline.md R292,
45_pipeline.md R296, 45_pipeline.md R297). With legal selectors and bytes in IN, ENCODE gives in OUT0 what the stage
commands give one after another and in OUT1 the raw bits (STATUS = 0x3000), except that length-prefix framing of 10000
bits or more raises FramingError with STAGE = framing (0x3031). MAX_LEN is unbounded (log 6). -/
def Obligations.EncodeRunsItsStagesInOrder : Prop :=
  ∀ (s : State) (m : Schemes) (bytes : List Byte), s.Selects m → s.inBuf = .byte bytes →
    (m.frm = .lengthPrefix → 10000 ≤ 8 * bytes.length → exec .encode s = .next (s.ended 0x3031#16 .none .none)) ∧
    (m.frm ≠ .lengthPrefix ∨ 8 * bytes.length < 10000 →
      ∃ raw framed det coded, Gives .t2b (.byte bytes) (.bit raw) ∧
        Gives (framer m.frm) (.bit raw) (.bit framed) ∧
        GivesIfAny (detectionEncoder m.det) (.bit framed) (.bit det) ∧
        GivesIfAny (correctionEncoder m.cor) (.bit det) (.bit coded) ∧
        exec .encode s = .next (s.ended 0x3000#16 (.bit coded) (.bit raw)))

/-- DECODE is the selected correction decoder, detection decoder, deframer and B2T in this order; the first that
raises ends it (45_pipeline.md R293, 45_pipeline.md R296, 45_pipeline.md R297). With legal selectors and bits in IN:
the correction decoder gives d1; either the detection decoder raises on d1 and DECODE raises the same error with the
same STAGE, or it gives d2, and so on through the deframer and B2T, whose text is OUT0 (STATUS = 0x3100). Raises and
Gives exclude each other, so the case is decided by the stage commands. In particular a length-framed text without
detection and correction decodes to its bytes. -/
def Obligations.DecodeRunsItsStagesInOrder : Prop :=
  ∀ (s : State) (m : Schemes) (bits : List Bit), s.Selects m → s.inBuf = .bit bits →
    (∃ d1, GivesIfAny (correctionDecoder m.cor) (.bit bits) (.bit d1) ∧
      ((∃ i e, detectionDecoder m.det = some i ∧ Raises i (.bit d1) e ∧
          exec .decode s = .next (s.ended (0x31#8 ++ e) .none .none)) ∨
        ∃ d2, GivesIfAny (detectionDecoder m.det) (.bit d1) (.bit d2) ∧
          ((∃ e, Raises (deframer m.frm) (.bit d2) e ∧
              exec .decode s = .next (s.ended (0x31#8 ++ e) .none .none)) ∨
            ∃ d3, Gives (deframer m.frm) (.bit d2) (.bit d3) ∧
              ((∃ e, Raises .b2t (.bit d3) e ∧ exec .decode s = .next (s.ended (0x31#8 ++ e) .none .none)) ∨
                ∃ text, Gives .b2t (.bit d3) (.byte text) ∧
                  exec .decode s = .next (s.ended 0x3100#16 (.byte text) .none))))) ∧
    ∀ payload bytes, m.frm = .lengthPrefix → m.det = .none → m.cor = .none → LengthFramed bits payload →
      MsbFirst bytes payload → Utf8Text bytes → exec .decode s = .next (s.ended 0x3100#16 (.byte bytes) .none)

/-- MODULATE is the selected line encoder and modulator; DEMODULATE is the selected demodulator and line decoder
(43_line_coding.md R224, 44_modulation.md R252, 44_modulation.md R268, 45_pipeline.md R294, 45_pipeline.md R295,
45_pipeline.md R296). With legal selectors: on any bits MODULATE gives what the line encoder and then the modulator
give (STATUS = 0x3200), and never raises. On samples either the demodulator raises and DEMODULATE raises the same
error with the same STAGE, or it gives levels on which the same holds of the line decoder, whose bits are OUT0
(0x3300). In particular, with ASK and NRZ-Polar or AMI, whole windows outside the dead zone give one bit each, 1 above
1/2 mean amplitude. MAX_LEN is unbounded (log 6), samples are exact (log 4). -/
def Obligations.PhysicalLayerRunsItsStagesInOrder : Prop :=
  ∀ (s : State) (m : Schemes), s.Selects m →
    (∀ bits, s.inBuf = .bit bits → ∃ codes xs, Gives (lineEncoder m.lc) (.bit bits) (.level codes) ∧
      Gives (modulator m.car m.lc) (.level codes) (.sample xs) ∧
      exec .modulate s = .next (s.ended 0x3200#16 (.sample xs) .none)) ∧
    (∀ xs, s.inBuf = .sample xs →
      ((∃ e, Raises (demodulator m.car m.lc) (.sample xs) e ∧
          exec .demodulate s = .next (s.ended (0x33#8 ++ e) .none .none)) ∨
        ∃ codes, Gives (demodulator m.car m.lc) (.sample xs) (.level codes) ∧
          ((∃ e, Raises (lineDecoder m.lc) (.level codes) e ∧
              exec .demodulate s = .next (s.ended (0x33#8 ++ e) .none .none)) ∨
            ∃ bits, Gives (lineDecoder m.lc) (.level codes) (.bit bits) ∧
              exec .demodulate s = .next (s.ended 0x3300#16 (.bit bits) .none)))) ∧
    ∀ xs, s.inBuf = .sample xs → m.car = .ask → m.lc ≠ .man → xs.length % 100 = 0 →
      (∀ i < xs.length / 100, realMeanAbs (slice xs (100 * i) 100) < 1 / 4 ∨
        1 / 2 < realMeanAbs (slice xs (100 * i) 100)) →
      ∃ bits : List Bit, bits.length = xs.length / 100 ∧
        (∀ i b, bits[i]? = some b → (b = true ↔ 1 / 2 < realMeanAbs (slice xs (100 * i) 100))) ∧
        exec .demodulate s = .next (s.ended 0x3300#16 (.bit bits) .none)

/-- The pipeline gives the message back for every selection of schemes, with 8-QAM for level counts that are multiples
of 3 (45_pipeline.md R298). For every selection of schemes and every well-formed UTF-8 message of fewer than 10000
bits: ENCODE succeeds with coded bits, MODULATE succeeds on them with samples, DEMODULATE of the samples gives the
coded bits (for 8-QAM when the number of line levels is a multiple of 3), and DECODE of the coded bits gives the
message. Samples are exact (log 4), MAX_LEN is unbounded (log 6). -/
def Obligations.PipelineRoundTrips : Prop :=
  ∀ (m : Schemes) (bytes : List Byte), Utf8Text bytes → 8 * bytes.length < 10000 →
    ∃ coded raw xs,
      (∀ s : State, s.Selects m → s.inBuf = .byte bytes →
        exec .encode s = .next (s.ended 0x3000#16 (.bit coded) (.bit raw))) ∧
      (∀ s : State, s.Selects m → s.inBuf = .bit coded →
        exec .modulate s = .next (s.ended 0x3200#16 (.sample xs) .none)) ∧
      (m.car ≠ .qam ∨ ((if m.lc = .man then 2 else 1) * coded.length) % 3 = 0 →
        ∀ s : State, s.Selects m → s.inBuf = .sample xs →
          exec .demodulate s = .next (s.ended 0x3300#16 (.bit coded) .none)) ∧
      ∀ s : State, s.Selects m → s.inBuf = .bit coded →
        exec .decode s = .next (s.ended 0x3100#16 (.byte bytes) .none)

/-- With 8-QAM and a level count that is not a multiple of 3 the pipeline never gives the message back (41_framing.md
R132, 41_framing.md R142, 41_framing.md R152, 42_error_control.md R171, 42_error_control.md R183, 42_error_control.md
R194, 43_line_coding.md R214, 44_modulation.md R266, 45_pipeline.md R293, 45_pipeline.md R298). For every selection
with CAR = 8-QAM and every well-formed UTF-8 message of fewer than 10000 bits whose coded bits make a number of line
levels that is not a multiple of 3: with Manchester DEMODULATE raises SignalError with STAGE = line; with NRZ-Polar
and AMI it gives the coded bits with the 1 or 2 pad bits (0) behind, on which DECODE raises an error. -/
def Obligations.QamPaddingBreaksTheRoundTrip : Prop :=
  ∀ (m : Schemes) (bytes : List Byte), m.car = .qam → Utf8Text bytes → 8 * bytes.length < 10000 →
    ∃ coded raw xs,
      (∀ s : State, s.Selects m → s.inBuf = .byte bytes →
        exec .encode s = .next (s.ended 0x3000#16 (.bit coded) (.bit raw))) ∧
      (∀ s : State, s.Selects m → s.inBuf = .bit coded →
        exec .modulate s = .next (s.ended 0x3200#16 (.sample xs) .none)) ∧
      (m.lc = .man → 2 * coded.length % 3 ≠ 0 → ∀ s : State, s.Selects m → s.inBuf = .sample xs →
        exec .demodulate s = .next (s.ended 0x3366#16 .none .none)) ∧
      (m.lc ≠ .man → coded.length % 3 ≠ 0 → ∀ s : State, s.Selects m →
        (s.inBuf = .sample xs → exec .demodulate s = .next (s.ended 0x3300#16
          (.bit (coded ++ List.replicate (3 - coded.length % 3) false)) .none)) ∧
        (s.inBuf = .bit (coded ++ List.replicate (3 - coded.length % 3) false) →
          ∃ t, exec .decode s = .next t ∧ statusErr t.status ≠ 0#4))

/-- Every command ends with a whole STATUS; an error clears OUT0 and OUT1 and changes nothing else (10_state.md R25,
10_state.md R32, 60_exceptions.md R320, 60_exceptions.md R321, 60_exceptions.md R325, 60_exceptions.md R326). Every
command in every state answers a next state: LASTOP is its opcode, STATUS[15:14] = 0, ERR and STAGE are at most 7, ERR
= 0 exactly when STAGE = 0, and when ERR is not 0 the state is as before but for STATUS, OUT0 and OUT1, which are
NONE. -/
def Obligations.EveryCommandReportsItsOutcome : Prop :=
  ∀ (i : Instr) (s : State), ∃ t, exec i s = .next t ∧
    t.status.extractLsb' 8 6 = i.opcode ∧ t.status.extractLsb' 14 2 = 0#2 ∧
    t.status.extractLsb' 0 4 ≤ 7#4 ∧ t.status.extractLsb' 4 4 ≤ 7#4 ∧
    (t.status.extractLsb' 0 4 = 0#4 ↔ t.status.extractLsb' 4 4 = 0#4) ∧
    (t.status.extractLsb' 0 4 ≠ 0#4 → t = s.ended t.status .none .none)

/-- Only SETSEL writes SEL, only XFER among the commands writes IN, and only ENCODE leaves anything in OUT1
(10_state.md R21, 10_state.md R22, 10_state.md R31, 10_state.md R32). In every state every command answers a next
state in which SEL is as before unless the command is SETSEL, IN is as before unless it is XFER, OUT1 is NONE unless
it is ENCODE, and the host's list (the model's own field, log 1) is as before. -/
def Obligations.OnlySetselAndXferWriteSelAndIn : Prop :=
  ∀ (i : Instr) (s : State), ∃ t, exec i s = .next t ∧
    (i.opcode ≠ 0x01#6 → t.sel = s.sel) ∧ (i.opcode ≠ 0x02#6 → t.inBuf = s.inBuf) ∧
    (i.opcode ≠ 0x30#6 → t.out1 = .none) ∧ t.host = s.host

/-- A command's outcome depends on IN, on SEL for the composed commands only, on OUT0 for XFER only, and on nothing
else (10_state.md R21, 10_state.md R24, 10_state.md R26). Take two states that agree on IN, on SEL if the command is
ENCODE, DECODE, MODULATE or DEMODULATE, and on OUT0 if it is XFER: the command writes the same STATUS, IN, OUT0 and
OUT1 in both, and SETSEL the same SEL when it raises nothing. STATUS, OUT1 and the old outputs are never read. -/
def Obligations.CommandsReadOnlyTheirOperands : Prop :=
  ∀ (i : Instr) (s s' : State), s.inBuf = s'.inBuf → (i.composed = true → s.sel = s'.sel) →
    (i = .xfer → s.out0 = s'.out0) →
    ∃ t t', exec i s = .next t ∧ exec i s' = .next t' ∧ t.status = t'.status ∧ t.inBuf = t'.inBuf ∧
      t.out0 = t'.out0 ∧ t.out1 = t'.out1 ∧ (i.opcode = 0x01#6 → t.status = 0x0100#16 → t.sel = t'.sel)

/-- A command whose IN is of another kind than R83's IN column raises ConfigurationError with STAGE = command
(10_state.md R27, 20_memory.md R63, 30_encoding.md R83, 60_exceptions.md R322). For every command that reads IN and
every state whose IN is of another kind, the command writes STATUS = (LASTOP = its opcode, STAGE = 1, ERR = 5), OUT0
and OUT1 become NONE and nothing else changes. -/
def Obligations.WrongInputKindRaises : Prop :=
  ∀ (i : Instr) (s : State) (k : BitVec 3), i.inKind = some k → s.inBuf.kind ≠ k →
    exec i s = .next (s.ended (0#2 ++ i.opcode ++ 0x15#8) .none .none)

/-- On a build with MAX_LEN = n, every stage whose output has more than n elements raises CapacityError from it, alone
or in a composed command (10_state.md R30, 40_codec.md R110, 42_error_control.md R170, 43_line_coding.md R213,
44_modulation.md R251, 45_pipeline.md R292, 45_pipeline.md R293, 45_pipeline.md R294, 45_pipeline.md R295,
45_pipeline.md R296, 60_exceptions.md R321, 60_exceptions.md R323). Take any build, any n and any of the 26 commands
that are one stage, and compare the build with MAX_LEN = n to the same with MAX_LEN unbounded: what raises without the
limit raises the same with it; an output of at most n elements is given unchanged; a longer one becomes CapacityError
(ERR = 7) with the command's own STAGE (codec for T2B and B2T, framing, detection, correction, line, carrier). On
every build, bounded or not, each composed command with legal selectors does what its stage commands do one after
another on that build: it raises the first stage's error that occurs, CapacityError included, with its STAGE, or it
gives the last output and, for ENCODE, T2B's in OUT1. The build that exec runs takes MAX_LEN unbounded (log 6). -/
def Obligations.CapacityLimitsEachStageOutput : Prop :=
  (∀ (p : Params Sample) (n : Nat) (i : Instr) (g : BitVec 4) (s : State), stageCode i = some g →
      let free := commandOn { p with maxLen := none } i s
      let limited := commandOn { p with maxLen := some n } i s
      (statusErr free.status ≠ 0#4 → limited = free) ∧
      (statusErr free.status = 0#4 → free.out0.elements.length ≤ n → limited = free) ∧
      (statusErr free.status = 0#4 → n < free.out0.elements.length →
        limited = s.ended (0#2 ++ i.opcode ++ g ++ 7#4) .none .none)) ∧
    ∀ (p : Params Sample) (m : Schemes) (i : Instr) (stages : List Instr) (s : State), s.Selects m →
      composedStages m i = some stages →
      (∀ e, stagesOn p stages s.inBuf = .error e →
        commandOn p i s = s.ended (0#2 ++ i.opcode ++ e) .none .none) ∧
      (∀ b, stagesOn p stages s.inBuf = .ok b →
        commandOn p i s = s.ended (0#2 ++ i.opcode ++ 0#8) b (composedRaw p i s.inBuf))

/-- From every legal state every step, of a command or of the host, answers a legal next state (10_state.md R20,
10_state.md R23, 10_state.md R25, 10_state.md R28, 60_exceptions.md R325). A legal state has SEL as reset left it or
valid with no reserved code and its reserved bits 0, STATUS with reserved bits 0 and assigned codes, nothing in OUT0
and OUT1 after an error, no reserved level code in OUT0, OUT1 of kind BIT or NONE, and samples in NUM's canonical form
(log 4). Every step from a legal state answers a next state and that state is legal. -/
def Obligations.StepKeepsLegalStates : Prop :=
  ∀ s : State, s.Legal → ∃ t, step s = .next t ∧ t.Legal

/-- The state after reset is legal (10_state.md R36, 70_reset_and_hazards.md R350). The invariant of
StepKeepsLegalStates holds in the state after reset. -/
def Obligations.ResetStateIsLegal : Prop :=
  State.reset.Legal

end Statements
end

