-- ==== Sys2Proof/Laws/State.lean ====
section
/-!
SUPPORT. One lemma per field per update of State, so that no later proof unfolds an update.
-/

namespace Sys2Proof.Machine

variable (op : Opcode) (r : Raise) (o0 o1 : Buffer) (s : State) (w : Word)

@[simp] theorem raise_sel : (s.raise op r).sel = s.sel := rfl
@[simp] theorem raise_status : (s.raise op r).status = errorStatus op r := rfl
@[simp] theorem raise_inBuf : (s.raise op r).inBuf = s.inBuf := rfl
@[simp] theorem raise_out0 : (s.raise op r).out0 = .none := rfl
@[simp] theorem raise_out1 : (s.raise op r).out1 = .none := rfl
@[simp] theorem raise_host : (s.raise op r).host = s.host := rfl

@[simp] theorem succeed_sel : (s.succeed op o0 o1).sel = s.sel := rfl
@[simp] theorem succeed_status : (s.succeed op o0 o1).status = successStatus op := rfl
@[simp] theorem succeed_inBuf : (s.succeed op o0 o1).inBuf = s.inBuf := rfl
@[simp] theorem succeed_out0 : (s.succeed op o0 o1).out0 = o0 := rfl
@[simp] theorem succeed_out1 : (s.succeed op o0 o1).out1 = o1 := rfl
@[simp] theorem succeed_host : (s.succeed op o0 o1).host = s.host := rfl

@[simp] theorem rejectWord_sel : (s.rejectWord w).sel = s.sel := rfl
@[simp] theorem rejectWord_status : (s.rejectWord w).status = errorStatus (opField w) configurationError := rfl
@[simp] theorem rejectWord_inBuf : (s.rejectWord w).inBuf = s.inBuf := rfl
@[simp] theorem rejectWord_out0 : (s.rejectWord w).out0 = .none := rfl
@[simp] theorem rejectWord_out1 : (s.rejectWord w).out1 = .none := rfl
@[simp] theorem rejectWord_host : (s.rejectWord w).host = s.host := rfl

@[simp] theorem hostReset_sel : s.hostReset.sel = 0#16 := rfl
@[simp] theorem hostReset_status : s.hostReset.status = 0#16 := rfl
@[simp] theorem hostReset_inBuf : s.hostReset.inBuf = .none := rfl
@[simp] theorem hostReset_out0 : s.hostReset.out0 = .none := rfl
@[simp] theorem hostReset_out1 : s.hostReset.out1 = .none := rfl
@[simp] theorem hostReset_host : s.hostReset.host = s.host := rfl

end Sys2Proof.Machine
end

