-- ==== Sys2Proof/Laws/Ops.lean ====
section
/-!
SUPPORT. One lemma per shared operation that says once everything it can do. Later proofs cite these.
-/

namespace Sys2Proof.Machine

/-! ### STATUS and SEL -/

/-- STATUS as a number: its fields side by side (10_state.md R25). -/
theorem statusWord_toNat (op : Opcode) (g e : BitVec 4) :
    (statusWord op g e).toNat = op.toNat * 256 + g.toNat * 16 + e.toNat := by
  have h : (statusWord op g e).toNat = (((0#2 ++ op : BitVec (2 + 6)) ++ g : BitVec (2 + 6 + 4)) ++ e).toNat := rfl
  have he := e.isLt
  have hg := g.isLt
  have ho := op.isLt
  rw [h, BitVec.toNat_append, BitVec.toNat_append, BitVec.toNat_append,
    ← Nat.shiftLeft_add_eq_or_of_lt he, ← Nat.shiftLeft_add_eq_or_of_lt hg, ← Nat.shiftLeft_add_eq_or_of_lt ho]
  simp only [Nat.shiftLeft_eq, BitVec.toNat_ofNat]
  omega

@[simp] theorem statusErr_statusWord (op : Opcode) (g e : BitVec 4) : statusErr (statusWord op g e) = e := by
  apply BitVec.eq_of_toNat_eq
  rw [statusErr, BitVec.extractLsb'_toNat, statusWord_toNat, Nat.shiftRight_eq_div_pow]
  have := e.isLt; have := g.isLt; have := op.isLt
  omega

@[simp] theorem statusStage_statusWord (op : Opcode) (g e : BitVec 4) : statusStage (statusWord op g e) = g := by
  apply BitVec.eq_of_toNat_eq
  rw [statusStage, BitVec.extractLsb'_toNat, statusWord_toNat, Nat.shiftRight_eq_div_pow]
  have := e.isLt; have := g.isLt; have := op.isLt
  omega

@[simp] theorem statusLastOp_statusWord (op : Opcode) (g e : BitVec 4) :
    statusLastOp (statusWord op g e) = op := by
  apply BitVec.eq_of_toNat_eq
  rw [statusLastOp, BitVec.extractLsb'_toNat, statusWord_toNat, Nat.shiftRight_eq_div_pow]
  have := e.isLt; have := g.isLt; have := op.isLt
  omega

@[simp] theorem statusReserved_statusWord (op : Opcode) (g e : BitVec 4) :
    (statusWord op g e).extractLsb' 14 2 = 0#2 := by
  apply BitVec.eq_of_toNat_eq
  rw [BitVec.extractLsb'_toNat, statusWord_toNat, Nat.shiftRight_eq_div_pow]
  have := e.isLt; have := g.isLt; have := op.isLt
  simp only [BitVec.toNat_ofNat]
  omega

@[simp] theorem statusErr_errorStatus (op : Opcode) (r : Raise) : statusErr (errorStatus op r) = r.kind.code :=
  statusErr_statusWord _ _ _

@[simp] theorem statusStage_errorStatus (op : Opcode) (r : Raise) : statusStage (errorStatus op r) = r.stage.code :=
  statusStage_statusWord _ _ _

@[simp] theorem statusLastOp_errorStatus (op : Opcode) (r : Raise) : statusLastOp (errorStatus op r) = op :=
  statusLastOp_statusWord _ _ _

@[simp] theorem statusErr_successStatus (op : Opcode) : statusErr (successStatus op) = 0#4 :=
  statusErr_statusWord _ _ _

@[simp] theorem statusStage_successStatus (op : Opcode) : statusStage (successStatus op) = 0#4 :=
  statusStage_statusWord _ _ _

@[simp] theorem statusLastOp_successStatus (op : Opcode) : statusLastOp (successStatus op) = op :=
  statusLastOp_statusWord _ _ _

/-- Every error code is one that R320 assigns. -/
theorem errorKind_code (k : ErrorKind) : k.code ≠ 0#4 ∧ k.code ≤ 7#4 := by
  cases k <;> decide

/-- Every stage code is one that R321 assigns. -/
theorem stage_code (g : Stage) : g.code ≠ 0#4 ∧ g.code ≤ 7#4 := by
  cases g <;> decide

/-! ### Stages in sequence -/

@[simp] theorem chain_ok {α β : Type} (a : α) (f : α → Result β) : chain (.ok a) f = f a := rfl

@[simp] theorem chain_error {α β : Type} (e : Raise) (f : α → Result β) : chain (.error e) f = .error e := rfl

/-- A sequence of two stages succeeds exactly when both do. -/
theorem chain_eq_ok {α β : Type} {r : Result α} {f : α → Result β} {b : β} :
    chain r f = .ok b ↔ ∃ a, r = .ok a ∧ f a = .ok b := by
  cases r <;> simp

/-- A sequence of two stages raises what the first raises, or what the second raises on its output. -/
theorem chain_eq_error {α β : Type} {r : Result α} {f : α → Result β} {e : Raise} :
    chain r f = .error e ↔ r = .error e ∨ ∃ a, r = .ok a ∧ f a = .error e := by
  cases r <;> simp

@[simp] theorem finish_ok (op : Opcode) (outs : Buffer × Buffer) (s : State) :
    s.finish op (.ok outs) = s.succeed op outs.1 outs.2 := rfl

@[simp] theorem finish_error (op : Opcode) (e : Raise) (s : State) :
    s.finish op (.error e) = s.raise op e := rfl

/-- Everything the end of a command can do. -/
theorem finish_cases (op : Opcode) (r : Result (Buffer × Buffer)) (s : State) :
    (∃ e, r = .error e ∧ s.finish op r = s.raise op e) ∨
      (∃ outs, r = .ok outs ∧ s.finish op r = s.succeed op outs.1 outs.2) := by
  cases r <;> simp

/-- Everything a command over an operand can do: it raises what its operand or its stages raise, or it succeeds. -/
theorem runStage_cases {α β : Type} (op : Opcode) (operand : Result α) (body : α → Result β)
    (outs : β → Buffer × Buffer) (s : State) :
    (∃ e, (operand = .error e ∨ ∃ x, operand = .ok x ∧ body x = .error e) ∧
        s.runStage op operand body outs = s.raise op e) ∨
      (∃ x y, operand = .ok x ∧ body x = .ok y ∧
        s.runStage op operand body outs = s.succeed op (outs y).1 (outs y).2) := by
  unfold State.runStage
  cases operand with
  | error e => simp
  | ok x => cases h : body x <;> simp [h]

@[simp] theorem runStage_ok {α β : Type} (op : Opcode) (x : α) (body : α → Result β)
    (outs : β → Buffer × Buffer) (s : State) :
    s.runStage op (.ok x) body outs = s.finish op (chain (body x) fun y => .ok (outs y)) := rfl

@[simp] theorem runStage_error {α β : Type} (op : Opcode) (e : Raise) (body : α → Result β)
    (outs : β → Buffer × Buffer) (s : State) :
    s.runStage op (.error e) body outs = s.raise op e := rfl

/-! ### Capacity -/

/-- With MAX_LEN unbounded a stage's output always fits (10_state.md R30). -/
theorem within_unbounded {α ν : Type} {p : Params ν} (h : p.maxLen = none) (g : Stage) (out : List α) :
    within p g out = .ok out := by
  simp [within, fits, h]

@[simp] theorem within_build {α : Type} (g : Stage) (out : List α) : within Config.build g out = .ok out := rfl

/-- With MAX_LEN = m a stage's output is kept exactly when it has at most m elements (10_state.md R30). -/
theorem within_bounded {α ν : Type} {p : Params ν} {m : Nat} (h : p.maxLen = some m) (g : Stage) (out : List α) :
    within p g out = if out.length ≤ m then .ok out else .error ⟨.capacity, g⟩ := by
  simp [within, fits, h]

/-- What a stage keeps is its output. -/
theorem within_eq_ok {α ν : Type} {p : Params ν} {g : Stage} {out kept : List α} (h : within p g out = .ok kept) :
    kept = out ∧ fits p out.length = true := by
  unfold within at h
  split at h <;> simp_all

/-- The only error of the capacity check is CapacityError of its stage. -/
theorem within_eq_error {α ν : Type} {p : Params ν} {g : Stage} {out : List α} {e : Raise}
    (h : within p g out = .error e) : e = ⟨.capacity, g⟩ ∧ fits p out.length = false := by
  unfold within at h
  split at h <;> simp_all

/-! ### Comparisons -/

/-- Where the format settles a comparison, it is the exact order (00_scope.md R14). -/
theorem compare_settled {ν : Type} {n : NumFormat ν} {w : List ν} {x y : ν} (h : n.near w x y = false) :
    n.compare w x y = n.order x y := by
  simp [NumFormat.compare, h]

/-- Where it does not, the outcome is the draw (93_implementation_defined.md U9). -/
theorem compare_draw {ν : Type} {n : NumFormat ν} {w : List ν} {x y : ν} (h : n.near w x y = true) :
    n.compare w x y = n.draw w x y := by
  simp [NumFormat.compare, h]

/-! ### Sequences -/

@[simp] theorem bytebits_length (b : Byte) : (bytebits b).length = 8 := rfl

/-- A byte's bits read back as the byte (00_scope.md R13). -/
@[simp] theorem bitsByte_bytebits (b : Byte) : bitsByte (bytebits b) = b := by
  revert b; decide +kernel

/-- Eight bits written as a byte give the same bits. -/
theorem bytebits_bitsByte {x : List Bit} (h : x.length = 8) : bytebits (bitsByte x) = x := by
  match x, h with
  | [a, b, c, d, e, f, g, i], _ =>
    cases a <;> cases b <;> cases c <;> cases d <;> cases e <;> cases f <;> cases g <;> cases i <;> decide

theorem groups_length {α : Type} (n count : Nat) (s : List α) : (groups n count s).length = count := by
  induction count generalizing s with
  | zero => rfl
  | succ k ih => simp [groups, ih]

/-- The groups that fit are the sequence cut in order. -/
theorem groups_flatten {α : Type} (n count : Nat) (s : List α) :
    (groups n count s).flatten = s.take (n * count) := by
  induction count generalizing s with
  | zero => simp [groups]
  | succ k ih =>
    rw [groups, List.flatten_cons, ih, Nat.mul_succ, Nat.add_comm, List.take_add]

/-- Every group that fits has `n` elements. -/
theorem length_of_mem_groups {α : Type} {n count : Nat} {s g : List α} (h : n * count ≤ s.length)
    (hg : g ∈ groups n count s) : g.length = n := by
  induction count generalizing s with
  | zero => simp [groups] at hg
  | succ k ih =>
    rw [Nat.mul_succ] at h
    rcases List.mem_cons.1 hg with rfl | hg
    · simp; omega
    · exact ih (by simp; omega) hg

theorem length_of_mem_wholeGroups {α : Type} {n : Nat} {s g : List α} (hg : g ∈ wholeGroups n s) :
    g.length = n :=
  length_of_mem_groups (Nat.mul_div_le _ _) hg

/-- The whole groups and the tail are the sequence (20_memory.md R64). -/
theorem wholeGroups_append_tail {α : Type} (n : Nat) (s : List α) :
    (wholeGroups n s).flatten ++ groupTail n s = s := by
  rw [wholeGroups, groups_flatten, groupTail, List.take_append_drop]

/-- The tail is shorter than a group. -/
theorem groupTail_length {α : Type} (n : Nat) (s : List α) : (groupTail n s).length = s.length % n := by
  rw [groupTail, List.length_drop, Nat.mod_eq_sub]

/-- A sequence of groups of `n` elements is cut back into those groups, whatever follows. -/
theorem groups_append {α : Type} {n : Nat} (gs : List (List α)) (tail : List α)
    (h : ∀ g ∈ gs, g.length = n) : groups n gs.length (gs.flatten ++ tail) = gs := by
  induction gs with
  | nil => rfl
  | cons g t ih =>
    have hg := h g List.mem_cons_self
    rw [List.length_cons, groups, List.flatten_cons, List.append_assoc]
    have h1 : (g ++ (t.flatten ++ tail)).take n = g := by rw [← hg]; simp
    have h2 : (g ++ (t.flatten ++ tail)).drop n = t.flatten ++ tail := by rw [← hg]; simp
    rw [h1, h2, ih fun x hx => h x (List.mem_cons_of_mem _ hx)]

/-- Groups of `n` elements followed by a shorter tail are cut back exactly (20_memory.md R64). -/
theorem wholeGroups_append {α : Type} {n : Nat} (gs : List (List α)) (tail : List α)
    (h : ∀ g ∈ gs, g.length = n) (ht : tail.length < n) :
    wholeGroups n (gs.flatten ++ tail) = gs ∧ groupTail n (gs.flatten ++ tail) = tail := by
  have hl : gs.flatten.length = n * gs.length := by
    rw [List.length_flatten, List.eq_replicate_of_mem (l := gs.map List.length) (a := n) (by simpa using h)]
    simp [Nat.mul_comm]
  have hd : (gs.flatten ++ tail).length / n = gs.length := by
    rw [List.length_append, hl, Nat.mul_add_div (by omega), Nat.div_eq_of_lt ht, Nat.add_zero]
  constructor
  · rw [wholeGroups, hd, groups_append gs tail h]
  · rw [groupTail, hd, ← hl, List.drop_left]

/-! ### Element by element -/

/-- A check over a sequence succeeds exactly when it succeeds on every element. -/
theorem mapResult_eq_ok {α β : Type} {f : α → Result β} {xs : List α} {ys : List β} :
    mapResult f xs = .ok ys ↔ List.Forall₂ (fun x y => f x = .ok y) xs ys := by
  induction xs generalizing ys with
  | nil => simp [mapResult, eq_comm]
  | cons x t ih =>
    rw [mapResult]
    cases hx : f x with
    | error e =>
      simp only [reduceCtorEq, false_iff]
      intro h
      cases h with
      | cons h1 _ => rw [hx] at h1; cases h1
    | ok b =>
      cases ht : mapResult f t with
      | error e =>
        simp only [reduceCtorEq, false_iff]
        intro h
        cases h with
        | cons _ h2 => rw [ih.2 h2] at ht; cases ht
      | ok bs =>
        constructor
        · intro h
          cases h
          exact .cons hx (ih.1 ht)
        · intro h
          cases h with
          | cons h1 h2 =>
            rw [hx] at h1
            rw [ih.2 h2] at ht
            cases h1; cases ht; rfl

/-- What a check over a sequence raises is what it raises on the first element that fails (60_exceptions.md R324). -/
theorem mapResult_eq_error {α β : Type} {f : α → Result β} {xs : List α} {e : Raise} :
    mapResult f xs = .error e ↔
      ∃ before x after, xs = before ++ x :: after ∧ (∀ y ∈ before, ∃ b, f y = .ok b) ∧ f x = .error e := by
  induction xs with
  | nil => simp [mapResult]
  | cons a t ih =>
    rw [mapResult]
    cases ha : f a with
    | error e' =>
      constructor
      · intro h
        cases h
        exact ⟨[], a, t, rfl, by simp, ha⟩
      · rintro ⟨before, x, after, hxs, hb, hx⟩
        cases before with
        | nil => cases hxs; rw [ha] at hx; cases hx; rfl
        | cons b bs =>
          cases hxs
          obtain ⟨c, hc⟩ := hb a List.mem_cons_self
          rw [ha] at hc; cases hc
    | ok b =>
      have key : (∃ before x after, a :: t = before ++ x :: after ∧ (∀ y ∈ before, ∃ b, f y = .ok b) ∧
          f x = .error e) ↔ ∃ before x after, t = before ++ x :: after ∧ (∀ y ∈ before, ∃ b, f y = .ok b) ∧
          f x = .error e := by
        constructor
        · rintro ⟨before, x, after, hxs, hb, hx⟩
          cases before with
          | nil => cases hxs; rw [ha] at hx; cases hx
          | cons c cs => cases hxs; exact ⟨cs, x, after, rfl, fun y hy => hb y (List.mem_cons_of_mem _ hy), hx⟩
        · rintro ⟨before, x, after, rfl, hb, hx⟩
          refine ⟨a :: before, x, after, rfl, fun y hy => ?_, hx⟩
          rcases List.mem_cons.1 hy with rfl | hy
          · exact ⟨b, ha⟩
          · exact hb y hy
      rw [key, ← ih]
      cases mapResult f t <;> simp

/-- A check that succeeds everywhere is a map. -/
theorem mapResult_ok {α β : Type} {f : α → Result β} {g : α → β} {xs : List α} (h : ∀ x ∈ xs, f x = .ok (g x)) :
    mapResult f xs = .ok (xs.map g) := by
  induction xs with
  | nil => rfl
  | cons x t ih =>
    rw [mapResult, h x List.mem_cons_self, ih fun y hy => h y (List.mem_cons_of_mem _ hy)]; rfl

/-! ### Levels -/

@[simp] theorem levelOf_code (l : Level) : levelOf (Level.code l) = some l := by cases l <;> rfl

/-- A level's code is never the reserved one (10_state.md R28). -/
theorem code_ne_reserved (l : Level) : Level.code l ≠ 0b10#2 := by cases l <;> decide

/-- The stored codes of Levels read back as those Levels (10_state.md R28). -/
@[simp] theorem readLevels_codes (g : Stage) (ls : List Level) : readLevels g (ls.map Level.code) = .ok ls := by
  induction ls with
  | nil => rfl
  | cons l t ih =>
    unfold readLevels at ih ⊢
    rw [List.map_cons, mapResult]
    simp [ih]

/-- Codes without the reserved one are the codes of Levels. -/
theorem codes_eq_map {codes : List LevelCode} (h : 0b10#2 ∉ codes) : ∃ ls : List Level, codes = ls.map Level.code := by
  induction codes with
  | nil => exact ⟨[], rfl⟩
  | cons c t ih =>
    obtain ⟨ls, hls⟩ := ih fun hm => h (List.mem_cons_of_mem _ hm)
    have hc : c ≠ 0b10#2 := fun e => h (e ▸ List.mem_cons_self)
    have : ∃ l, c = Level.code l := by
      have hcases : c = 0b00#2 ∨ c = 0b01#2 ∨ c = 0b10#2 ∨ c = 0b11#2 := by
        clear h hc; revert c; decide
      rcases hcases with rfl | rfl | rfl | rfl
      · exact ⟨.zero, rfl⟩
      · exact ⟨.pos, rfl⟩
      · exact absurd rfl hc
      · exact ⟨.neg, rfl⟩
    obtain ⟨l, rfl⟩ := this
    exact ⟨l :: ls, by rw [hls]; rfl⟩

/-- A reserved code among the codes raises SignalError from the reading stage (10_state.md R28). -/
theorem readLevels_reserved {g : Stage} {codes : List LevelCode} (h : 0b10#2 ∈ codes) :
    readLevels g codes = .error ⟨.signal, g⟩ := by
  induction codes with
  | nil => simp at h
  | cons c t ih =>
    unfold readLevels at ih ⊢
    rw [mapResult]
    rcases List.mem_cons.1 h with rfl | h
    · rfl
    · rw [ih h]
      cases levelOf c <;> rfl

end Sys2Proof.Machine
end

