-- ==== Sys2Proof/Laws/Sample.lean ====
section
/-!
SUPPORT. The numbers of NUM: every operation answers a canonical sample, and the real number each operation stands
for. Later proofs cite these instead of unfolding the operations.
-/

namespace Sys2Proof.Machine

/-! ### Canonical form -/

/-- The indices are strictly rising and no coefficient is zero. -/
def CosSum.Sorted (r : CosSum) : Prop :=
  r.Pairwise (fun p q => p.1 < q.1) ∧ ∀ p ∈ r, p.2 ≠ 0

theorem mem_putTerm_index {j : Nat} {c : Rat} {r : CosSum} {p : Nat × Rat} (h : p ∈ putTerm j c r) :
    p.1 = j ∨ ∃ q ∈ r, q.1 = p.1 := by
  induction r with
  | nil =>
    simp only [putTerm] at h
    split at h <;> simp_all
  | cons q t ih =>
    obtain ⟨i, d⟩ := q
    simp only [putTerm] at h
    split_ifs at h with h1 h2 h3 h4
    · exact Or.inr ⟨p, h, rfl⟩
    · rcases List.mem_cons.1 h with rfl | h
      · exact Or.inl rfl
      · exact Or.inr ⟨p, h, rfl⟩
    · exact Or.inr ⟨p, List.mem_cons_of_mem _ h, rfl⟩
    · rcases List.mem_cons.1 h with rfl | h
      · exact Or.inl h3.symm
      · exact Or.inr ⟨p, List.mem_cons_of_mem _ h, rfl⟩
    · rcases List.mem_cons.1 h with rfl | h
      · exact Or.inr ⟨(i, d), List.mem_cons_self, rfl⟩
      · rcases ih h with h | ⟨q, hq, e⟩
        · exact Or.inl h
        · exact Or.inr ⟨q, List.mem_cons_of_mem _ hq, e⟩

theorem sorted_putTerm (j : Nat) (c : Rat) {r : CosSum} (h : CosSum.Sorted r) :
    CosSum.Sorted (putTerm j c r) := by
  induction r with
  | nil =>
    simp only [putTerm]
    split <;> simp_all [CosSum.Sorted]
  | cons q t ih =>
    obtain ⟨i, d⟩ := q
    obtain ⟨hp, hn⟩ := h
    rw [List.pairwise_cons] at hp
    have ht : CosSum.Sorted t := ⟨hp.2, fun p hp' => hn p (List.mem_cons_of_mem _ hp')⟩
    simp only [putTerm]
    split_ifs with h1 h2 h3 h4
    · exact ⟨List.pairwise_cons.2 hp, hn⟩
    · refine ⟨List.pairwise_cons.2 ⟨?_, List.pairwise_cons.2 hp⟩, ?_⟩
      · intro p hp'
        rcases List.mem_cons.1 hp' with rfl | hp'
        · exact h1
        · exact lt_trans h1 (hp.1 p hp')
      · intro p hp'
        rcases List.mem_cons.1 hp' with rfl | hp'
        · exact h2
        · exact hn p hp'
    · exact ht
    · refine ⟨List.pairwise_cons.2 hp, ?_⟩
      intro p hp'
      rcases List.mem_cons.1 hp' with rfl | hp'
      · exact h4
      · exact ht.2 p hp'
    · refine ⟨List.pairwise_cons.2 ⟨?_, (ih ht).1⟩, ?_⟩
      · intro p hp'
        rcases mem_putTerm_index hp' with e | ⟨q, hq, e⟩
        · simp only [e]; omega
        · rw [← e]; exact hp.1 q hq
      · intro p hp'
        rcases List.mem_cons.1 hp' with rfl | hp'
        · exact hn _ List.mem_cons_self
        · exact (ih ht).2 p hp'

theorem sorted_collect (r : CosSum) : CosSum.Sorted (collect r) := by
  induction r with
  | nil => simp [collect, CosSum.Sorted]
  | cons q t ih => exact sorted_putTerm _ _ ih

/-- Collecting adds no index. -/
theorem mem_collect_index {r : CosSum} {p : Nat × Rat} (h : p ∈ collect r) : ∃ q ∈ r, q.1 = p.1 := by
  induction r generalizing p with
  | nil => simp [collect] at h
  | cons a t ih =>
    rcases mem_putTerm_index (r := collect t) h with e | ⟨q, hq, e⟩
    · exact ⟨a, List.mem_cons_self, e.symm⟩
    · obtain ⟨q', hq', e'⟩ := ih hq
      exact ⟨q', List.mem_cons_of_mem _ hq', by simp_all⟩

theorem foldTerm_index_le (p : Nat × Rat) : (foldTerm p).1 ≤ 25 := by
  have := Nat.mod_lt p.1 (y := 100) (by norm_num)
  simp only [foldTerm]
  split_ifs <;> simp only <;> omega

theorem reduceTerm_index_lt {p q : Nat × Rat} (h : q ∈ reduceTerm p) : q.1 < 20 := by
  simp only [reduceTerm] at h
  split_ifs at h with h1 h2 h3
  · simp_all
  · simp at h; rcases h with rfl | rfl <;> norm_num
  · simp at h
    rcases h with rfl | rfl | rfl | rfl <;> simp only <;> omega
  · simp at h

/-- Every number an operation answers is in canonical form. -/
theorem ofSum_canonical (r : CosSum) : (ofSum r).Canonical := by
  obtain ⟨hp, hn⟩ := sorted_collect ((collect (r.map foldTerm)).flatMap reduceTerm)
  refine ⟨hp, fun p h => ⟨?_, hn p h⟩⟩
  obtain ⟨q, hq, e⟩ := mem_collect_index h
  obtain ⟨a, -, ha⟩ := List.mem_flatMap.1 hq
  rw [← e]; exact reduceTerm_index_lt ha

@[simp] theorem zero_canonical : Sample.zero.Canonical := by
  simp [Sample.zero, Sample.Canonical]

@[simp] theorem ofRat_canonical (q : Rat) : (Sample.ofRat q).Canonical := ofSum_canonical _

@[simp] theorem add_canonical (x y : Sample) : (x.add y).Canonical := ofSum_canonical _

@[simp] theorem sub_canonical (x y : Sample) : (x.sub y).Canonical := ofSum_canonical _

@[simp] theorem mul_canonical (x y : Sample) : (x.mul y).Canonical := ofSum_canonical _

@[simp] theorem scale_canonical (c : Rat) (x : Sample) : (x.scale c).Canonical := ofSum_canonical _

@[simp] theorem sum_canonical (xs : List Sample) : (Sample.sum xs).Canonical := ofSum_canonical _

@[simp] theorem sin_canonical (m : Nat) : (SIN m).Canonical := ofSum_canonical _

@[simp] theorem inner_canonical (w : List Sample) (g : Nat → Sample) : (Sample.inner w g).Canonical :=
  ofSum_canonical _

theorem abs_canonical {x : Sample} (h : x.Canonical) : x.abs.Canonical := by
  unfold Sample.abs
  split
  · exact scale_canonical _ _
  · exact h

/-! ### The real number of a sum -/

@[simp] theorem toReal_nil : CosSum.toReal [] = 0 := rfl

@[simp] theorem toReal_cons (p : Nat × Rat) (r : CosSum) :
    CosSum.toReal (p :: r) = (p.2 : ℝ) * Real.cos (2 * Real.pi * p.1 / 100) + CosSum.toReal r := by
  simp [CosSum.toReal]

@[simp] theorem toReal_append (r t : CosSum) :
    CosSum.toReal (r ++ t) = CosSum.toReal r + CosSum.toReal t := by
  simp [CosSum.toReal]

theorem toReal_putTerm (j : Nat) (c : Rat) (r : CosSum) :
    CosSum.toReal (putTerm j c r) = (c : ℝ) * Real.cos (2 * Real.pi * j / 100) + CosSum.toReal r := by
  induction r with
  | nil =>
    simp only [putTerm]
    split <;> simp_all
  | cons q t ih =>
    obtain ⟨i, d⟩ := q
    simp only [putTerm]
    split_ifs with h1 h2 h3 h4
    · simp [h2]
    · simp
    · subst h3
      have : (c : ℝ) + d = 0 := by exact_mod_cast h4
      simp only [toReal_cons]
      linear_combination (-Real.cos (2 * Real.pi * j / 100)) * this
    · subst h3
      simp only [toReal_cons]; push_cast; ring
    · simp only [toReal_cons, ih]; ring

theorem toReal_collect (r : CosSum) : CosSum.toReal (collect r) = CosSum.toReal r := by
  induction r with
  | nil => rfl
  | cons q t ih =>
    show CosSum.toReal (putTerm q.1 q.2 (collect t)) = _
    rw [toReal_putTerm, ih, toReal_cons]

/-- C(n) depends on n mod 100 only. -/
theorem cos_mod (n : Nat) :
    Real.cos (2 * Real.pi * n / 100) = Real.cos (2 * Real.pi * (n % 100 : ℕ) / 100) := by
  have h : (n : ℝ) = (n % 100 : ℕ) + 100 * (n / 100 : ℕ) := by
    exact_mod_cast (Nat.mod_add_div n 100).symm
  have : 2 * Real.pi * n / 100 = 2 * Real.pi * (n % 100 : ℕ) / 100 + (n / 100 : ℕ) * (2 * Real.pi) := by
    rw [h]; ring
  rw [this, Real.cos_add_nat_mul_two_pi]

theorem toReal_foldTerm (p : Nat × Rat) :
    CosSum.toReal [foldTerm p] = CosSum.toReal [p] := by
  obtain ⟨n, c⟩ := p
  have hlt := Nat.mod_lt n (y := 100) (by norm_num)
  simp only [toReal_cons, toReal_nil, add_zero, cos_mod n]
  generalize hm : n % 100 = m at *
  simp only [foldTerm, hm]
  split_ifs with h1 h2 h3
  · rfl
  · have : 2 * Real.pi * ((50 - m : ℕ) : ℝ) / 100 = Real.pi - 2 * Real.pi * m / 100 := by
      rw [Nat.cast_sub (by omega)]; push_cast; ring
    simp only [this, Real.cos_pi_sub]; push_cast; ring
  · have : 2 * Real.pi * ((m - 50 : ℕ) : ℝ) / 100 = 2 * Real.pi * m / 100 - Real.pi := by
      rw [Nat.cast_sub (by omega)]; push_cast; ring
    simp only [this, Real.cos_sub_pi]; push_cast; ring
  · have : 2 * Real.pi * ((100 - m : ℕ) : ℝ) / 100 = 2 * Real.pi - 2 * Real.pi * m / 100 := by
      rw [Nat.cast_sub (by omega)]; push_cast; ring
    simp only [this, Real.cos_two_pi_sub]

theorem toReal_map_foldTerm (r : CosSum) : CosSum.toReal (r.map foldTerm) = CosSum.toReal r := by
  induction r with
  | nil => rfl
  | cons q t ih =>
    have := toReal_foldTerm q
    simp only [toReal_cons, toReal_nil, add_zero] at this
    rw [List.map_cons, toReal_cons, toReal_cons, ih, this]

/-- 2·cos 36° − 2·cos 72° = 1. -/
theorem cos_thirtySix_sub : 2 * Real.cos (Real.pi / 5) - 2 * Real.cos (2 * Real.pi / 5) = 1 := by
  have h : Real.cos (2 * Real.pi / 5) = 2 * Real.cos (Real.pi / 5) ^ 2 - 1 := by
    rw [← Real.cos_two_mul]; ring_nf
  rw [h, Real.cos_pi_div_five]
  have h5 : Real.sqrt 5 ^ 2 = 5 := Real.sq_sqrt (by norm_num)
  nlinarith [h5]

/-- The relation of degree 20: C(t + 20) + C(20 − t) = C(10 + t) + C(10 − t) − C(t), for every angle t. -/
theorem cos_relation (t : ℝ) :
    Real.cos (t + 2 * Real.pi / 5) + Real.cos (2 * Real.pi / 5 - t) =
      Real.cos (t + Real.pi / 5) + Real.cos (Real.pi / 5 - t) - Real.cos t := by
  rw [Real.cos_add, Real.cos_sub, Real.cos_add, Real.cos_sub]
  linear_combination (-Real.cos t) * cos_thirtySix_sub

theorem toReal_reduceTerm {p : Nat × Rat} (h : p.1 ≤ 25) :
    CosSum.toReal (reduceTerm p) = CosSum.toReal [p] := by
  obtain ⟨n, c⟩ := p
  simp only at h
  simp only [reduceTerm]
  split_ifs with h1 h2 h3
  · rfl
  · subst h2
    have r := cos_relation 0
    simp only [zero_add, sub_zero, Real.cos_zero] at r
    have e1 : 2 * Real.pi * ((10 : ℕ) : ℝ) / 100 = Real.pi / 5 := by push_cast; ring
    have e2 : 2 * Real.pi * ((20 : ℕ) : ℝ) / 100 = 2 * Real.pi / 5 := by push_cast; ring
    simp only [toReal_cons, toReal_nil, e1, e2]
    push_cast
    simp only [mul_zero, zero_div, Real.cos_zero]
    linear_combination (-(c : ℝ) / 2) * r
  · obtain ⟨i, rfl⟩ : ∃ i, n = 20 + i := ⟨n - 20, by omega⟩
    have hi : 20 + i - 20 = i := by omega
    have r := cos_relation (2 * Real.pi * i / 100)
    have e1 : 2 * Real.pi * ((30 - (20 + i) : ℕ) : ℝ) / 100 = Real.pi / 5 - 2 * Real.pi * i / 100 := by
      rw [Nat.cast_sub (by omega)]; push_cast; ring
    have e2 : 2 * Real.pi * ((20 + i - 10 : ℕ) : ℝ) / 100 = 2 * Real.pi * i / 100 + Real.pi / 5 := by
      rw [Nat.cast_sub (by omega)]; push_cast; ring
    have e3 : 2 * Real.pi * ((40 - (20 + i) : ℕ) : ℝ) / 100 = 2 * Real.pi / 5 - 2 * Real.pi * i / 100 := by
      rw [Nat.cast_sub (by omega)]; push_cast; ring
    have e4 : 2 * Real.pi * ((20 + i : ℕ) : ℝ) / 100 = 2 * Real.pi * i / 100 + 2 * Real.pi / 5 := by
      push_cast; ring
    simp only [toReal_cons, toReal_nil, hi, e1, e2, e3, e4]
    push_cast
    linear_combination (-(c : ℝ)) * r
  · have : n = 25 := by omega
    subst this
    have e : 2 * Real.pi * ((25 : ℕ) : ℝ) / 100 = Real.pi / 2 := by push_cast; ring
    simp only [toReal_cons, toReal_nil, e, Real.cos_pi_div_two]; simp

theorem toReal_flatMap_reduceTerm {r : CosSum} (h : ∀ p ∈ r, p.1 ≤ 25) :
    CosSum.toReal (r.flatMap reduceTerm) = CosSum.toReal r := by
  induction r with
  | nil => rfl
  | cons q t ih =>
    have hq := toReal_reduceTerm (h q List.mem_cons_self)
    simp only [toReal_cons, toReal_nil, add_zero] at hq
    rw [List.flatMap_cons, toReal_append, ih fun p hp => h p (List.mem_cons_of_mem _ hp), hq, toReal_cons]

/-- Bringing a sum to canonical form keeps its value. -/
theorem toReal_ofSum (r : CosSum) : (ofSum r).toReal = CosSum.toReal r := by
  unfold Sample.toReal ofSum
  rw [toReal_collect, toReal_flatMap_reduceTerm, toReal_collect, toReal_map_foldTerm]
  intro p hp
  obtain ⟨q, hq, e⟩ := mem_collect_index hp
  obtain ⟨a, -, rfl⟩ := List.mem_map.1 hq
  rw [← e]; exact foldTerm_index_le a

theorem toReal_scaleSum (c : Rat) (r : CosSum) :
    CosSum.toReal (scaleSum c r) = (c : ℝ) * CosSum.toReal r := by
  induction r with
  | nil => simp [scaleSum]
  | cons q t ih =>
    have : scaleSum c (q :: t) = (q.1, c * q.2) :: scaleSum c t := rfl
    rw [this, toReal_cons, toReal_cons, ih]; push_cast; ring

theorem toReal_mulSum_single (p : Nat × Rat) (y : CosSum) :
    CosSum.toReal (y.flatMap fun q =>
      let c := p.2 * q.2 / 2
      [(p.1 + q.1, c), (if p.1 ≤ q.1 then q.1 - p.1 else p.1 - q.1, c)]) =
      (p.2 : ℝ) * Real.cos (2 * Real.pi * p.1 / 100) * CosSum.toReal y := by
  induction y with
  | nil => simp
  | cons q t ih =>
    rw [List.flatMap_cons, toReal_append, ih, toReal_cons]
    have hd : Real.cos (2 * Real.pi * ((if p.1 ≤ q.1 then q.1 - p.1 else p.1 - q.1 : ℕ) : ℝ) / 100) =
        Real.cos (2 * Real.pi * p.1 / 100 - 2 * Real.pi * q.1 / 100) := by
      split_ifs with h
      · rw [Nat.cast_sub h, ← Real.cos_neg]; ring_nf
      · rw [Nat.cast_sub (by omega)]; ring_nf
    have hs : Real.cos (2 * Real.pi * ((p.1 + q.1 : ℕ) : ℝ) / 100) =
        Real.cos (2 * Real.pi * p.1 / 100 + 2 * Real.pi * q.1 / 100) := by
      push_cast; ring_nf
    simp only [toReal_cons, toReal_nil, hd, hs, Real.cos_add, Real.cos_sub]
    push_cast; ring

theorem toReal_mulSum (x y : CosSum) :
    CosSum.toReal (mulSum x y) = CosSum.toReal x * CosSum.toReal y := by
  induction x with
  | nil => simp [mulSum]
  | cons p t ih =>
    have : mulSum (p :: t) y = (y.flatMap fun q =>
      let c := p.2 * q.2 / 2
      [(p.1 + q.1, c), (if p.1 ≤ q.1 then q.1 - p.1 else p.1 - q.1, c)]) ++ mulSum t y := rfl
    rw [this, toReal_append, toReal_mulSum_single, ih, toReal_cons]; ring

@[simp] theorem toReal_zero : Sample.zero.toReal = 0 := rfl

@[simp] theorem toReal_ofRat (q : Rat) : (Sample.ofRat q).toReal = q := by
  rw [Sample.ofRat, toReal_ofSum]; simp

@[simp] theorem toReal_add (x y : Sample) : (x.add y).toReal = x.toReal + y.toReal := by
  rw [Sample.add, toReal_ofSum, toReal_append]; rfl

@[simp] theorem toReal_scale (c : Rat) (x : Sample) : (x.scale c).toReal = (c : ℝ) * x.toReal := by
  rw [Sample.scale, toReal_ofSum, toReal_scaleSum]; rfl

@[simp] theorem toReal_sub (x y : Sample) : (x.sub y).toReal = x.toReal - y.toReal := by
  rw [Sample.sub, toReal_ofSum, toReal_append, toReal_scaleSum]
  simp only [Sample.toReal]; push_cast; ring

@[simp] theorem toReal_mul (x y : Sample) : (x.mul y).toReal = x.toReal * y.toReal := by
  rw [Sample.mul, toReal_ofSum, toReal_mulSum]; rfl

@[simp] theorem toReal_sum (xs : List Sample) : (Sample.sum xs).toReal = (xs.map Sample.toReal).sum := by
  rw [Sample.sum, toReal_ofSum]
  induction xs with
  | nil => simp
  | cons x t ih => rw [List.flatMap_cons, toReal_append, ih]; simp [Sample.toReal]

/-- The ideal SINTAB holds exact sines (44_modulation.md R241). -/
@[simp] theorem toReal_SIN (m : Nat) : (SIN m).toReal = Real.sin (angle m) := by
  have e : 2 * Real.pi * ((m % 100 + 75 : ℕ) : ℝ) / 100 =
      -(Real.pi / 2 - 2 * Real.pi * (m % 100 : ℕ) / 100) + 2 * Real.pi := by push_cast; ring
  have hm : angle m = 2 * Real.pi * (m % 100 : ℕ) / 100 + (m / 100 : ℕ) * (2 * Real.pi) := by
    have h : (m : ℝ) = (m % 100 : ℕ) + 100 * (m / 100 : ℕ) := by exact_mod_cast (Nat.mod_add_div m 100).symm
    unfold angle; rw [h]; ring
  rw [SIN, toReal_ofSum, toReal_cons, toReal_nil, e, Real.cos_add_two_pi, Real.cos_neg, Real.cos_pi_div_two_sub, hm,
    Real.sin_add_nat_mul_two_pi]
  simp

/-- COS(m) = SIN(m + 25) is the cosine (00_scope.md R13). -/
theorem sin_angle_add_quarter (m : Nat) : Real.sin (angle (m + 25)) = Real.cos (angle m) := by
  have : angle (m + 25) = angle m + Real.pi / 2 := by unfold angle; push_cast; ring
  rw [this, Real.sin_add_pi_div_two]

/-- The angle of a table entry depends on m mod 100 only, up to whole turns. -/
theorem sin_angle_mod (m : Nat) : Real.sin (angle (m % 100)) = Real.sin (angle m) := by
  have h : (m : ℝ) = (m % 100 : ℕ) + 100 * (m / 100 : ℕ) := by exact_mod_cast (Nat.mod_add_div m 100).symm
  have : angle m = angle (m % 100) + (m / 100 : ℕ) * (2 * Real.pi) := by unfold angle; rw [h]; ring
  rw [this, Real.sin_add_nat_mul_two_pi]

theorem toReal_innerSum (g : Nat → Sample) (k : Nat) (w : List Sample) :
    CosSum.toReal (innerSum g k w) =
      ((List.range w.length).map fun j => ((w[j]?).map Sample.toReal).getD 0 * (g (k + j)).toReal).sum := by
  induction w generalizing k with
  | nil => simp [innerSum]
  | cons x t ih =>
    rw [innerSum, toReal_append, toReal_mulSum, ih, List.length_cons, List.range_succ_eq_map,
      List.map_cons, List.sum_cons, List.map_map]
    congr 1
    congr 1
    refine List.map_congr_left fun j _ => ?_
    have : k + 1 + j = k + (j + 1) := by omega
    simp [this]

/-- The inner product is the real inner product (44_modulation.md R257, R264). -/
@[simp] theorem toReal_inner (w : List Sample) (g : Nat → Sample) :
    (Sample.inner w g).toReal = realInner w fun k => (g k).toReal := by
  rw [Sample.inner, toReal_ofSum, toReal_innerSum]
  simp [realInner]

end Sys2Proof.Machine
end

