-- ==== Sys2Proof/Laws/SampleSign.lean ====
section
/-!
SUPPORT. The exact sign of a number of NUM is the sign of the real number it stands for (00_scope.md R14). The
enclosure of C(1) is sound, it shrinks by half at each bisection, and a nonzero number is bounded away from 0 by its
norm, so the bisections that `signFuel` allows always settle the sign.
-/

namespace Sys2Proof.Machine

open Real

/-! ### Chebyshev values are cosines of multiples -/

theorem chebyshevFrom_getD (x : ℚ) (α : ℝ) (hx : (x : ℝ) = cos α) (n : ℕ) :
    ∀ (a b : ℚ) (k j : ℕ), (a : ℝ) = cos (k * α) → (b : ℝ) = cos ((k + 1) * α) → j < n →
      (((chebyshevFrom x n a b).getD j 0 : ℚ) : ℝ) = cos ((k + j) * α) := by
  induction n with
  | zero => intro a b k j _ _ h; omega
  | succ n ih =>
    intro a b k j ha hb hj
    cases j with
    | zero => simpa [chebyshevFrom] using ha
    | succ j =>
      have hstep : ((2 * x * b - a : ℚ) : ℝ) = cos (((k + 1 : ℕ) + 1) * α) := by
        have e1 : (((k + 1 : ℕ) : ℝ) + 1) * α = (k + 1) * α + α := by push_cast; ring
        have e2 : (k : ℝ) * α = (k + 1) * α - α := by ring
        push_cast at e1 ⊢
        rw [hx, hb, ha, e1, e2, cos_add, cos_sub]; ring
      have := ih b (2 * x * b - a) (k + 1) j (by rw [hb]; push_cast; ring_nf) hstep (by omega)
      simp only [chebyshevFrom, List.getD_cons_succ]
      rw [this]; push_cast; ring_nf

/-- Entry j of the Chebyshev list at cos α is cos(j·α). -/
theorem chebyshev_getD {x : ℚ} {α : ℝ} (hx : (x : ℝ) = cos α) {n j : ℕ} (hj : j < n) :
    (((chebyshev x n).getD j 0 : ℚ) : ℝ) = cos (j * α) := by
  have := chebyshevFrom_getD x α hx n 1 x 0 j (by simp) (by simpa using hx) hj
  simpa [chebyshev] using this

/-! ### The enclosure of C(1) -/

/-- The first angle, 2π/100. -/
noncomputable def firstAngle : ℝ := 2 * π / 100

theorem cos_third_le : cos (3 * π / 50) ≤ 0.998 := by
  have h := cos_le_one_sub_mul_cos_sq (x := 3 * π / 50) (by rw [abs_of_pos (by positivity)]; linarith [pi_pos])
  have e : 1 - 2 / π ^ 2 * (3 * π / 50) ^ 2 = 1 - 18 / 2500 := by
    have := pi_ne_zero
    field_simp
    ring
  rw [e] at h; linarith

theorem cos_nineteenth_le : cos (π / 19) ≤ 0.998 := by
  have h := cos_le_one_sub_mul_cos_sq (x := π / 19) (by rw [abs_of_pos (by positivity)]; linarith [pi_pos])
  have e : 1 - 2 / π ^ 2 * (π / 19) ^ 2 = 1 - 2 / 361 := by
    have := pi_ne_zero
    field_simp
    ring
  rw [e] at h; linarith

/-- A rational of the enclosure's range is the cosine of an angle below π/19. -/
theorem exists_angle {y : ℚ} (h1 : (0.998 : ℝ) ≤ y) (h2 : (y : ℝ) ≤ 1) :
    ∃ α, (y : ℝ) = cos α ∧ 0 ≤ α ∧ α ≤ π / 19 ∧ α ≤ 3 * π / 50 := by
  refine ⟨arccos y, (cos_arccos (by linarith) h2).symm, arccos_nonneg _, ?_, ?_⟩
  · rw [← arccos_cos (x := π / 19) (by positivity) (by linarith [pi_pos])]
    exact arccos_le_arccos (cos_nineteenth_le.trans h1)
  · rw [← arccos_cos (x := 3 * π / 50) (by positivity) (by linarith [pi_pos])]
    exact arccos_le_arccos (cos_third_le.trans h1)

/-- T₂₅ is positive above C(1) only, in the enclosure's range. -/
theorem bisect_side {y : ℚ} (h1 : (0.998 : ℝ) ≤ y) (h2 : (y : ℝ) ≤ 1) :
    (0 < (chebyshev y 26).getD 25 0 → cos firstAngle ≤ y) ∧
      (¬ 0 < (chebyshev y 26).getD 25 0 → (y : ℝ) ≤ cos firstAngle) := by
  obtain ⟨α, hy, h0, -, h3⟩ := exists_angle h1 h2
  have hT := chebyshev_getD hy (n := 26) (j := 25) (by norm_num)
  have hpi := pi_pos
  constructor
  · intro hpos
    have hc : 0 < cos (25 * α) := by
      have : (0 : ℝ) < ((chebyshev y 26).getD 25 0 : ℚ) := by exact_mod_cast hpos
      rw [hT] at this; simpa using this
    by_contra hlt
    push Not at hlt
    have hα : firstAngle < α := by
      by_contra hle
      push Not at hle
      have := cos_le_cos_of_nonneg_of_le_pi h0 (by unfold firstAngle; linarith) hle
      rw [hy] at hlt; linarith
    have := cos_nonpos_of_pi_div_two_le_of_le (x := 25 * α) (by unfold firstAngle at hα; linarith) (by linarith)
    linarith
  · intro hneg
    have hc : cos (25 * α) ≤ 0 := by
      have : (((chebyshev y 26).getD 25 0 : ℚ) : ℝ) ≤ 0 := by exact_mod_cast not_lt.1 hneg
      rw [hT] at this; simpa using this
    have hα : firstAngle ≤ α := by
      by_contra hlt
      push Not at hlt
      have := cos_pos_of_mem_Ioo (x := 25 * α) ⟨by linarith, by unfold firstAngle at hlt; linarith⟩
      linarith
    rw [hy]
    exact cos_le_cos_of_nonneg_of_le_pi (by unfold firstAngle; positivity) (by linarith) hα

/-- `lo` and `hi` enclose C(1), within the range where every T_j is increasing. -/
structure Encloses (lo hi : ℚ) : Prop where
  low : (0.998 : ℝ) ≤ lo
  below : (lo : ℝ) ≤ cos firstAngle
  above : cos firstAngle ≤ hi
  high : (hi : ℝ) ≤ 1

theorem encloses_start : Encloses cosLow cosHigh := by
  have hl : (0.998 : ℝ) ≤ (cosLow : ℚ) := by norm_num [cosLow]
  have hl' : ((cosLow : ℚ) : ℝ) ≤ 1 := by norm_num [cosLow]
  have hh : (0.998 : ℝ) ≤ (cosHigh : ℚ) := by norm_num [cosHigh]
  have hh' : ((cosHigh : ℚ) : ℝ) ≤ 1 := by norm_num [cosHigh]
  refine ⟨hl, (bisect_side hl hl').2 ?_, (bisect_side hh hh').1 ?_, hh'⟩
  · decide +kernel
  · decide +kernel

/-- One bisection keeps the enclosure. -/
theorem encloses_bisect {lo hi : ℚ} (h : Encloses lo hi) :
    if 0 < (chebyshev ((lo + hi) / 2) 26).getD 25 0 then Encloses lo ((lo + hi) / 2)
    else Encloses ((lo + hi) / 2) hi := by
  have hle : (lo : ℝ) ≤ hi := h.below.trans h.above
  have e : (((lo + hi) / 2 : ℚ) : ℝ) = ((lo : ℝ) + hi) / 2 := by push_cast; ring
  have h1 : (0.998 : ℝ) ≤ ((lo + hi) / 2 : ℚ) := by rw [e]; linarith [h.low]
  have h2 : (((lo + hi) / 2 : ℚ) : ℝ) ≤ 1 := by rw [e]; linarith [h.high]
  split
  · rename_i hp; exact ⟨h.low, h.below, (bisect_side h1 h2).1 hp, h2⟩
  · rename_i hp; exact ⟨h1, (bisect_side h1 h2).2 hp, h.above, h.high⟩

/-! ### The enclosure of a number -/

theorem abs_sin_nat_mul_le (n : ℕ) (x : ℝ) : |sin (n * x)| ≤ n * |sin x| := by
  induction n with
  | zero => simp
  | succ n ih =>
    have e : ((n + 1 : ℕ) : ℝ) * x = n * x + x := by push_cast; ring
    rw [e, sin_add]
    have h1 : |sin (n * x) * cos x| ≤ |sin (n * x)| := by
      rw [abs_mul]; exact mul_le_of_le_one_right (abs_nonneg _) (abs_cos_le_one _)
    have h2 : |cos (n * x) * sin x| ≤ |sin x| := by
      rw [abs_mul]; exact mul_le_of_le_one_left (abs_nonneg _) (abs_cos_le_one _)
    calc |sin (n * x) * cos x + cos (n * x) * sin x|
        ≤ |sin (n * x) * cos x| + |cos (n * x) * sin x| := abs_add_le _ _
      _ ≤ n * |sin x| + |sin x| := by linarith
      _ = ((n + 1 : ℕ) : ℝ) * |sin x| := by push_cast; ring

/-- cos(j·) varies at most j² times as fast as cos. -/
theorem abs_cos_mul_sub_le (j : ℕ) (a b : ℝ) : |cos (j * a) - cos (j * b)| ≤ (j : ℝ) ^ 2 * |cos a - cos b| := by
  have e1 : (j * a + j * b) / 2 = j * ((a + b) / 2) := by ring
  have e2 : (j * a - j * b) / 2 = j * ((a - b) / 2) := by ring
  rw [cos_sub_cos, cos_sub_cos a b, e1, e2]
  simp only [abs_mul]
  have h1 := abs_sin_nat_mul_le j ((a + b) / 2)
  have h2 := abs_sin_nat_mul_le j ((a - b) / 2)
  have := mul_le_mul h1 h2 (abs_nonneg _) (by positivity)
  calc |(-2 : ℝ)| * |sin (j * ((a + b) / 2))| * |sin (j * ((a - b) / 2))|
      = |(-2 : ℝ)| * (|sin (j * ((a + b) / 2))| * |sin (j * ((a - b) / 2))|) := by ring
    _ ≤ |(-2 : ℝ)| * (j * |sin ((a + b) / 2)| * (j * |sin ((a - b) / 2)|)) := by
        exact mul_le_mul_of_nonneg_left this (abs_nonneg _)
    _ = _ := by ring

/-- Each C(j), j < 20, lies between the Chebyshev values at the ends of the enclosure, which differ by at most
361 times its width. -/
theorem chebyshev_encloses {lo hi : ℚ} (h : Encloses lo hi) {j : ℕ} (hj : j < 20) :
    (((chebyshev lo 20).getD j 0 : ℚ) : ℝ) ≤ cos (2 * π * j / 100) ∧
      cos (2 * π * j / 100) ≤ (((chebyshev hi 20).getD j 0 : ℚ) : ℝ) ∧
      (((chebyshev hi 20).getD j 0 : ℚ) : ℝ) - ((chebyshev lo 20).getD j 0 : ℚ) ≤ 361 * ((hi : ℝ) - lo) := by
  have hle : (lo : ℝ) ≤ hi := h.below.trans h.above
  obtain ⟨α, hα, hα0, hα19, -⟩ := exists_angle h.low (hle.trans h.high)
  obtain ⟨β, hβ, hβ0, hβ19, -⟩ := exists_angle (h.low.trans hle) h.high
  have hpi := pi_pos
  have hj19 : (j : ℝ) ≤ 19 := by exact_mod_cast Nat.lt_succ_iff.1 hj
  have hj0 : (0 : ℝ) ≤ j := Nat.cast_nonneg j
  rw [chebyshev_getD hα hj, chebyshev_getD hβ hj]
  have e : 2 * π * j / 100 = j * firstAngle := by unfold firstAngle; ring
  have hθ0 : 0 ≤ firstAngle := by unfold firstAngle; positivity
  have hθα : firstAngle ≤ α := by
    by_contra hlt
    push Not at hlt
    have := strictAntiOn_cos ⟨hα0, by linarith⟩ ⟨hθ0, by unfold firstAngle; linarith⟩ hlt
    linarith [h.below]
  have hβθ : β ≤ firstAngle := by
    by_contra hlt
    push Not at hlt
    have := strictAntiOn_cos ⟨hθ0, by unfold firstAngle; linarith⟩ ⟨hβ0, by linarith⟩ hlt
    linarith [h.above]
  have hjα : (j : ℝ) * α ≤ π := by nlinarith
  refine ⟨?_, ?_, ?_⟩
  · rw [e]
    exact cos_le_cos_of_nonneg_of_le_pi (by positivity) hjα (mul_le_mul_of_nonneg_left hθα hj0)
  · rw [e]
    refine cos_le_cos_of_nonneg_of_le_pi (by positivity) ?_ (mul_le_mul_of_nonneg_left hβθ hj0)
    exact (mul_le_mul_of_nonneg_left hθα hj0).trans hjα
  · have hd := abs_cos_mul_sub_le j β α
    have hw : |cos β - cos α| = (hi : ℝ) - lo := by rw [← hα, ← hβ, abs_of_nonneg (by linarith)]
    rw [hw] at hd
    have hsq : (j : ℝ) ^ 2 ≤ 361 := by nlinarith
    have := le_abs_self (cos (j * β) - cos (j * α))
    have : (j : ℝ) ^ 2 * ((hi : ℝ) - lo) ≤ 361 * ((hi : ℝ) - lo) :=
      mul_le_mul_of_nonneg_right hsq (by linarith)
    linarith

/-- The sum of the absolute values of the coefficients. -/
noncomputable def absCoeff (r : CosSum) : ℝ := (r.map fun p => |(p.2 : ℝ)|).sum

theorem absCoeff_nonneg (r : CosSum) : 0 ≤ absCoeff r := by
  refine List.sum_nonneg fun x hx => ?_
  obtain ⟨p, -, rfl⟩ := List.mem_map.1 hx
  exact abs_nonneg _

theorem enclose_cons (lo hi : List ℚ) (p : ℕ × ℚ) (r : CosSum) :
    enclose lo hi (p :: r) = p.2 * (if 0 ≤ p.2 then lo.getD p.1 0 else hi.getD p.1 0) + enclose lo hi r := rfl

/-- `enclose` encloses the number, within 361 times the width times the sum of the coefficients. -/
theorem enclose_spec {lo hi : ℚ} (h : Encloses lo hi) {r : CosSum} (hr : ∀ p ∈ r, p.1 < 20) :
    ((enclose (chebyshev lo 20) (chebyshev hi 20) r : ℚ) : ℝ) ≤ CosSum.toReal r ∧
      CosSum.toReal r ≤ ((enclose (chebyshev hi 20) (chebyshev lo 20) r : ℚ) : ℝ) ∧
      ((enclose (chebyshev hi 20) (chebyshev lo 20) r : ℚ) : ℝ) -
        ((enclose (chebyshev lo 20) (chebyshev hi 20) r : ℚ) : ℝ) ≤ absCoeff r * (361 * ((hi : ℝ) - lo)) := by
  induction r with
  | nil => simp [enclose, absCoeff]
  | cons p t ih =>
    obtain ⟨i1, i2, i3⟩ := ih fun q hq => hr q (List.mem_cons_of_mem _ hq)
    obtain ⟨c1, c2, c3⟩ := chebyshev_encloses h (hr p List.mem_cons_self)
    have ha : absCoeff (p :: t) = |(p.2 : ℝ)| + absCoeff t := by simp [absCoeff]
    rw [enclose_cons, enclose_cons, toReal_cons, ha]
    generalize (enclose (chebyshev lo 20) (chebyshev hi 20) t : ℚ) = el at *
    generalize (enclose (chebyshev hi 20) (chebyshev lo 20) t : ℚ) = eh at *
    generalize (chebyshev lo 20).getD p.1 0 = tl at *
    generalize (chebyshev hi 20).getD p.1 0 = th at *
    split_ifs with hp
    · have hp' : (0 : ℝ) ≤ (p.2 : ℚ) := by exact_mod_cast hp
      rw [abs_of_nonneg hp']
      push_cast
      refine ⟨?_, ?_, ?_⟩
      · nlinarith
      · nlinarith
      · nlinarith
    · have hp' : ((p.2 : ℚ) : ℝ) ≤ 0 := by exact_mod_cast (not_le.1 hp).le
      rw [abs_of_nonpos hp']
      push_cast
      refine ⟨?_, ?_, ?_⟩
      · nlinarith
      · nlinarith
      · nlinarith

/-- Where the number is far enough from 0 for the bisections that are left, `signFrom` answers its sign. -/
theorem signFrom_eq {r : CosSum} (hr : ∀ p ∈ r, p.1 < 20) (fuel : ℕ) :
    ∀ {lo hi : ℚ}, Encloses lo hi → absCoeff r * (361 * ((hi : ℝ) - lo)) < 2 ^ fuel * |CosSum.toReal r| →
      signFrom r (fuel + 1) lo hi = SignType.sign (CosSum.toReal r) := by
  induction fuel with
  | zero =>
    intro lo hi h hs
    obtain ⟨e1, e2, e3⟩ := enclose_spec h hr
    rw [pow_zero, one_mul] at hs
    simp only [signFrom]
    split_ifs with h1 h2
    · have : (0 : ℝ) < (enclose (chebyshev lo 20) (chebyshev hi 20) r : ℚ) := by exact_mod_cast h1
      rw [sign_pos (by linarith)]; rfl
    · have : ((enclose (chebyshev hi 20) (chebyshev lo 20) r : ℚ) : ℝ) < 0 := by exact_mod_cast h2
      rw [sign_neg (by linarith)]; rfl
    all_goals
      have h1' : ((enclose (chebyshev lo 20) (chebyshev hi 20) r : ℚ) : ℝ) ≤ 0 := by exact_mod_cast not_lt.1 h1
      have h2' : (0 : ℝ) ≤ (enclose (chebyshev hi 20) (chebyshev lo 20) r : ℚ) := by exact_mod_cast not_lt.1 h2
      have : |CosSum.toReal r| ≤ absCoeff r * (361 * ((hi : ℝ) - lo)) := abs_le.2 ⟨by linarith, by linarith⟩
      linarith
  | succ fuel ih =>
    intro lo hi h hs
    obtain ⟨e1, e2, -⟩ := enclose_spec h hr
    rw [signFrom]
    dsimp only
    split_ifs with h1 h2 h3
    · have : (0 : ℝ) < (enclose (chebyshev lo 20) (chebyshev hi 20) r : ℚ) := by exact_mod_cast h1
      rw [sign_pos (by linarith)]; rfl
    · have : ((enclose (chebyshev hi 20) (chebyshev lo 20) r : ℚ) : ℝ) < 0 := by exact_mod_cast h2
      rw [sign_neg (by linarith)]; rfl
    · have hb := encloses_bisect h
      rw [if_pos h3] at hb
      refine ih hb ?_
      push_cast
      rw [pow_succ] at hs
      linarith
    · have hb := encloses_bisect h
      rw [if_neg h3] at hb
      refine ih hb ?_
      push_cast
      rw [pow_succ] at hs
      linarith

/-! ### A nonzero number is bounded away from 0 -/

/-- D·c as an integer, for a coefficient c and a common denominator D. -/
def scaledCoeff (d : ℕ) (c : ℚ) : ℤ := c.num * (d / c.den : ℕ)

theorem scaledCoeff_cast {d : ℕ} {c : ℚ} (h : c.den ∣ d) : ((scaledCoeff d c : ℤ) : ℚ) = d * c := by
  obtain ⟨k, rfl⟩ := h
  have hd : (c.den : ℚ) ≠ 0 := by exact_mod_cast c.den_nz
  rw [scaledCoeff, Nat.mul_div_cancel_left _ c.den_pos]
  push_cast
  conv_rhs => rw [← Rat.num_div_den c]
  rw [Rat.num_div_den]
  field_simp
  have := Rat.mul_den_eq_num c
  linear_combination (-(k : ℚ)) * this

/-- The polynomial that is ζ^19·2D·x at ζ = exp(2πi/100), where x is the number of a sum. -/
noncomputable def normPolynomial (d : ℕ) (r : CosSum) : Polynomial ℤ :=
  (r.map fun p => Polynomial.C (scaledCoeff d p.2) *
    (Polynomial.X ^ (19 + p.1) + Polynomial.X ^ (19 - p.1))).sum

theorem normPolynomial_cons (d : ℕ) (p : ℕ × ℚ) (r : CosSum) :
    normPolynomial d (p :: r) = Polynomial.C (scaledCoeff d p.2) *
      (Polynomial.X ^ (19 + p.1) + Polynomial.X ^ (19 - p.1)) + normPolynomial d r := by
  simp [normPolynomial]

theorem commonDenominator_dvd {r : CosSum} {p : ℕ × ℚ} (h : p ∈ r) : p.2.den ∣ commonDenominator r := by
  induction r with
  | nil => simp at h
  | cons q t ih =>
    rcases List.mem_cons.1 h with rfl | h
    · exact Nat.dvd_lcm_left _ _
    · exact (ih h).trans (Nat.dvd_lcm_right _ _)

theorem commonDenominator_pos (r : CosSum) : 0 < commonDenominator r := by
  induction r with
  | nil => simp [commonDenominator]
  | cons q t ih => exact Nat.lcm_pos q.2.den_pos ih

/-- The primitive 100th root of unity e^(2πi/100). -/
noncomputable def rootOfUnity : ℂ := Complex.exp (2 * π * Complex.I / (100 : ℕ))

theorem rootOfUnity_primitive : IsPrimitiveRoot rootOfUnity 100 := Complex.isPrimitiveRoot_exp 100 (by norm_num)

theorem rootOfUnity_pow_add (j : ℕ) (hj : j ≤ 19) :
    rootOfUnity ^ (19 + j) + rootOfUnity ^ (19 - j) =
      rootOfUnity ^ 19 * (2 * (cos (2 * π * j / 100) : ℝ)) := by
  have h0 : rootOfUnity ≠ 0 := Complex.exp_ne_zero _
  have e1 : rootOfUnity ^ (19 + j) = rootOfUnity ^ 19 * rootOfUnity ^ j := pow_add _ _ _
  have e2 : rootOfUnity ^ (19 - j) = rootOfUnity ^ 19 * (rootOfUnity ^ j)⁻¹ := by
    rw [pow_sub₀ _ h0 hj]
  have e3 : rootOfUnity ^ j = Complex.exp ((2 * π * j / 100 : ℝ) * Complex.I) := by
    rw [rootOfUnity, ← Complex.exp_nat_mul]; congr 1; push_cast; ring
  rw [e1, e2, e3, ← Complex.exp_neg, Complex.ofReal_cos, Complex.two_cos]
  ring_nf

theorem aeval_normPolynomial {d : ℕ} {r : CosSum} (hr : ∀ p ∈ r, p.1 < 20) (hd : ∀ p ∈ r, p.2.den ∣ d) :
    Polynomial.aeval rootOfUnity (normPolynomial d r) =
      rootOfUnity ^ 19 * ((2 * d * CosSum.toReal r : ℝ) : ℂ) := by
  induction r with
  | nil => simp [normPolynomial]
  | cons p t ih =>
    rw [normPolynomial_cons, map_add, ih (fun q h => hr q (List.mem_cons_of_mem _ h))
      (fun q h => hd q (List.mem_cons_of_mem _ h))]
    have hc : ((scaledCoeff d p.2 : ℤ) : ℂ) = d * (p.2 : ℚ) := by
      have := scaledCoeff_cast (hd p List.mem_cons_self)
      exact_mod_cast congrArg (fun q : ℚ => (q : ℂ)) this
    have hp := rootOfUnity_pow_add p.1 (Nat.lt_succ_iff.1 (hr p List.mem_cons_self))
    simp only [map_mul, map_add, map_pow, Polynomial.aeval_X, eq_intCast, map_intCast]
    rw [hp, hc, toReal_cons]
    push_cast
    ring

theorem coeff_normPolynomial_eq_zero {d k : ℕ} {r : CosSum} (h : ∀ p ∈ r, 19 + p.1 ≠ k ∧ 19 - p.1 ≠ k) :
    (normPolynomial d r).coeff k = 0 := by
  induction r with
  | nil => simp [normPolynomial]
  | cons p t ih =>
    obtain ⟨h1, h2⟩ := h p List.mem_cons_self
    rw [normPolynomial_cons, Polynomial.coeff_add, ih fun q hq => h q (List.mem_cons_of_mem _ hq)]
    simp [Polynomial.coeff_X_pow, h1.symm, h2.symm]

theorem normPolynomial_ne_zero {d : ℕ} (hd0 : 0 < d) {p : ℕ × ℚ} {t : CosSum} (hs : CosSum.Sorted (p :: t))
    (hd : p.2.den ∣ d) : normPolynomial d (p :: t) ≠ 0 := by
  intro h
  have hc := congrArg (fun q => Polynomial.coeff q (19 + p.1)) h
  have ht : (normPolynomial d t).coeff (19 + p.1) = 0 := by
    refine coeff_normPolynomial_eq_zero fun q hq => ?_
    have := (List.pairwise_cons.1 hs.1).1 q hq
    omega
  have hne : scaledCoeff d p.2 ≠ 0 := by
    intro h0
    have h1 := scaledCoeff_cast hd
    rw [h0] at h1
    have hp := hs.2 p List.mem_cons_self
    have : (d : ℚ) ≠ 0 := by exact_mod_cast hd0.ne'
    simp_all
  simp only [normPolynomial_cons, Polynomial.coeff_add, ht, Polynomial.coeff_zero, add_zero,
    Polynomial.coeff_C_mul, Polynomial.coeff_X_pow] at hc
  rcases Nat.eq_zero_or_pos p.1 with h0 | h0
  · simp [h0] at hc; exact hne hc
  · have : ¬ 19 + p.1 = 19 - p.1 := by omega
    simp [this] at hc; exact hne hc

theorem natDegree_normPolynomial_le {d : ℕ} {r : CosSum} (hr : ∀ p ∈ r, p.1 < 20) :
    (normPolynomial d r).natDegree ≤ 38 := by
  induction r with
  | nil => simp [normPolynomial]
  | cons p t ih =>
    have hp := hr p List.mem_cons_self
    rw [normPolynomial_cons]
    refine (Polynomial.natDegree_add_le _ _).trans (max_le ?_ (ih fun q h => hr q (List.mem_cons_of_mem _ h)))
    refine (Polynomial.natDegree_C_mul_le _ _).trans ?_
    refine (Polynomial.natDegree_add_le _ _).trans (max_le ?_ ?_)
    · rw [Polynomial.natDegree_X_pow]; omega
    · rw [Polynomial.natDegree_X_pow]; omega

/-- No nonzero integer polynomial of degree below 40 vanishes at a primitive 100th root of unity. -/
theorem aeval_ne_zero {q : Polynomial ℤ} (hq : q ≠ 0) (hdeg : q.natDegree ≤ 38) :
    Polynomial.aeval rootOfUnity q ≠ 0 := by
  intro h
  have hmap : q.map (Int.castRingHom ℚ) ≠ 0 := by
    rwa [Ne, Polynomial.map_eq_zero_iff (Int.cast_injective)]
  have hev : Polynomial.aeval rootOfUnity (q.map (Int.castRingHom ℚ)) = 0 := by
    have := Polynomial.aeval_map_algebraMap (R := ℤ) ℚ rootOfUnity q
    rw [show algebraMap ℤ ℚ = Int.castRingHom ℚ from rfl] at this
    rw [this, h]
  have hle := minpoly.degree_le_of_ne_zero ℚ rootOfUnity hmap hev
  rw [← Polynomial.cyclotomic_eq_minpoly_rat rootOfUnity_primitive (by norm_num),
    Polynomial.degree_cyclotomic, Polynomial.degree_eq_natDegree hmap] at hle
  have h40 : Nat.totient 100 = 40 := by decide +kernel
  have := Polynomial.natDegree_map_le (p := q) (f := Int.castRingHom ℚ)
  rw [h40] at hle
  have : (40 : ℕ) ≤ (q.map (Int.castRingHom ℚ)).natDegree := by exact_mod_cast hle
  omega

theorem norm_product_bound {K : Type} [Field K] [Algebra ℚ K] [IsCyclotomicExtension {100} ℚ K]
    {q : Polynomial ℤ} {M : ℝ} (hq : Polynomial.aeval rootOfUnity q ≠ 0)
    (hM : ∀ z : ℂ, ‖z‖ = 1 → ‖Polynomial.aeval z q‖ ≤ M) :
    1 ≤ ‖Polynomial.aeval rootOfUnity q‖ * M ^ 39 := by
  classical
  have hfd : FiniteDimensional ℚ K := IsCyclotomicExtension.finiteDimensional {100} ℚ K
  obtain ⟨ζ, hζ⟩ : ∃ ζ : K, IsPrimitiveRoot ζ 100 := ⟨_, IsCyclotomicExtension.zeta_spec 100 ℚ K⟩
  have hirr : Irreducible (Polynomial.cyclotomic 100 ℚ) := Polynomial.cyclotomic.irreducible_rat (by norm_num)
  have hmem : rootOfUnity ∈ primitiveRoots 100 ℂ := (mem_primitiveRoots (by norm_num)).2 rootOfUnity_primitive
  obtain ⟨σ₀, hσ₀⟩ : ∃ σ : K →ₐ[ℚ] ℂ, σ ζ = rootOfUnity := by
    refine ⟨(hζ.embeddingsEquivPrimitiveRoots ℂ hirr).symm ⟨rootOfUnity, hmem⟩, ?_⟩
    rw [← IsPrimitiveRoot.embeddingsEquivPrimitiveRoots_apply_coe hζ ℂ hirr, Equiv.apply_symm_apply]
  have happ : ∀ σ : K →ₐ[ℚ] ℂ, σ (Polynomial.aeval ζ q) = Polynomial.aeval (σ ζ) q := by
    intro σ
    have := Polynomial.aeval_algHom_apply (σ.restrictScalars ℤ) ζ q
    exact this.symm
  have hα : Polynomial.aeval ζ q ≠ 0 := by
    intro h0
    apply hq
    rw [← hσ₀, ← happ, h0, map_zero]
  have hint : IsIntegral ℤ (Algebra.norm ℚ (Polynomial.aeval ζ q)) :=
    Algebra.isIntegral_norm ℚ
      (adjoin_le_integralClosure (hζ.isIntegral (by norm_num)) (Polynomial.aeval_mem_adjoin_singleton ℤ ζ))
  obtain ⟨n, hn⟩ := IsIntegrallyClosed.isIntegral_iff.1 hint
  have hn0 : n ≠ 0 := by
    rintro rfl
    rw [map_zero] at hn
    exact hα (Algebra.norm_eq_zero_iff.1 hn.symm)
  have hprod := Algebra.norm_eq_prod_embeddings ℚ ℂ (Polynomial.aeval ζ q)
  rw [← hn] at hprod
  have hnorm : (1 : ℝ) ≤ ∏ σ : K →ₐ[ℚ] ℂ, ‖σ (Polynomial.aeval ζ q)‖ := by
    rw [← norm_prod, ← hprod]
    have : (algebraMap ℚ ℂ) ((algebraMap ℤ ℚ) n) = (n : ℂ) := by simp
    rw [this, Complex.norm_intCast]
    exact_mod_cast Int.one_le_abs hn0
  have hcard : (Finset.univ.erase σ₀ : Finset (K →ₐ[ℚ] ℂ)).card = 39 := by
    rw [Finset.card_erase_of_mem (Finset.mem_univ _), Finset.card_univ, AlgHom.card,
      IsCyclotomicExtension.finrank K hirr, show Nat.totient 100 = 40 by decide +kernel]
  rw [← Finset.mul_prod_erase _ _ (Finset.mem_univ σ₀), happ, hσ₀] at hnorm
  refine hnorm.trans (mul_le_mul_of_nonneg_left ?_ (norm_nonneg _))
  rw [← hcard]
  refine (Finset.prod_le_prod (fun _ _ => norm_nonneg _) fun σ _ => ?_).trans (Finset.prod_const M).le
  rw [happ]
  refine hM _ (Complex.norm_eq_one_of_pow_eq_one (n := 100) ?_ (by norm_num))
  rw [← map_pow, hζ.pow_eq_one, map_one]

/-- The value of an integer polynomial at a primitive 100th root of unity, where it is not 0, is at least 1/M^39
when its value at every such root is at most M: the product over the 40 roots is a nonzero integer. -/
theorem one_le_norm_mul_pow {q : Polynomial ℤ} {M : ℝ} (hq : Polynomial.aeval rootOfUnity q ≠ 0)
    (hM : ∀ z : ℂ, ‖z‖ = 1 → ‖Polynomial.aeval z q‖ ≤ M) :
    1 ≤ ‖Polynomial.aeval rootOfUnity q‖ * M ^ 39 :=
  @norm_product_bound (CyclotomicField 100 ℚ) _ (CyclotomicField.algebra 100 ℚ)
    (CyclotomicField.isCyclotomicExtension 100 ℚ) q M hq hM

theorem conjugateBound_cons_le (d : ℕ) (r : CosSum) {z : ℂ} (hz : ‖z‖ = 1) :
    ‖Polynomial.aeval z (normPolynomial d r)‖ ≤
      (r.map fun p => 2 * ((p.2.num.natAbs * (d / p.2.den) : ℕ) : ℝ)).sum := by
  induction r with
  | nil => simp [normPolynomial]
  | cons p t ih =>
    rw [normPolynomial_cons, map_add, List.map_cons, List.sum_cons]
    refine (norm_add_le _ _).trans (add_le_add ?_ ih)
    simp only [map_mul, map_add, map_pow, Polynomial.aeval_X, eq_intCast, map_intCast, norm_mul]
    have h1 : ‖((scaledCoeff d p.2 : ℤ) : ℂ)‖ = ((p.2.num.natAbs * (d / p.2.den) : ℕ) : ℝ) := by
      rw [Complex.norm_intCast, scaledCoeff, Int.cast_mul, Int.cast_natCast, abs_mul, Nat.abs_cast, Nat.cast_mul,
        Nat.cast_natAbs, Int.cast_abs]
    have h2 : ‖z ^ (19 + p.1) + z ^ (19 - p.1)‖ ≤ 2 := by
      refine (norm_add_le _ _).trans ?_
      simp only [norm_pow, hz, one_pow]; norm_num
    rw [h1, mul_comm 2]
    exact mul_le_mul_of_nonneg_left h2 (Nat.cast_nonneg _)

theorem conjugateBound_eq (r : CosSum) :
    ((conjugateBound r : ℕ) : ℝ) =
      (r.map fun p => 2 * ((p.2.num.natAbs * (commonDenominator r / p.2.den) : ℕ) : ℝ)).sum := by
  unfold conjugateBound
  generalize commonDenominator r = d
  induction r with
  | nil => simp
  | cons p t ih => simp only [List.foldr_cons, List.map_cons, List.sum_cons]; rw [← ih]; push_cast; ring

theorem conjugateBound_eq_absCoeff (r : CosSum) :
    ((conjugateBound r : ℕ) : ℝ) = 2 * (commonDenominator r : ℝ) * absCoeff r := by
  rw [conjugateBound_eq, absCoeff]
  have h : ∀ p ∈ r, p.2.den ∣ commonDenominator r := fun p hp => commonDenominator_dvd hp
  generalize commonDenominator r = d at *
  induction r with
  | nil => simp
  | cons p t ih =>
    simp only [List.map_cons, List.sum_cons]
    rw [ih fun q hq => h q (List.mem_cons_of_mem _ hq)]
    have : ((p.2.num.natAbs * (d / p.2.den) : ℕ) : ℝ) = d * |(p.2 : ℝ)| := by
      have hc := scaledCoeff_cast (h p List.mem_cons_self)
      have h1 : ((scaledCoeff d p.2 : ℤ) : ℝ) = d * (p.2 : ℝ) := by exact_mod_cast congrArg (fun q : ℚ => (q : ℝ)) hc
      have h2 : ((p.2.num.natAbs * (d / p.2.den) : ℕ) : ℝ) = |((scaledCoeff d p.2 : ℤ) : ℝ)| := by
        rw [scaledCoeff, Int.cast_mul, Int.cast_natCast, abs_mul, Nat.abs_cast, Nat.cast_mul,
          Nat.cast_natAbs, Int.cast_abs]
      rw [h2, h1, abs_mul, Nat.abs_cast]
    rw [this]; ring

/-- A number in canonical form that is not written as 0 is far from 0: |2D·x| ≥ 1/M^39. -/
theorem away_from_zero {r : CosSum} (hs : CosSum.Sorted r) (hr : ∀ p ∈ r, p.1 < 20) (hne : r ≠ []) :
    1 ≤ |2 * (commonDenominator r : ℝ) * CosSum.toReal r| * ((conjugateBound r : ℕ) : ℝ) ^ 39 := by
  have hd : ∀ p ∈ r, p.2.den ∣ commonDenominator r := fun p hp => commonDenominator_dvd hp
  have hq : normPolynomial (commonDenominator r) r ≠ 0 := by
    cases r with
    | nil => exact absurd rfl hne
    | cons p t => exact normPolynomial_ne_zero (commonDenominator_pos _) hs (hd p List.mem_cons_self)
  have h := one_le_norm_mul_pow (aeval_ne_zero hq (natDegree_normPolynomial_le hr))
    (M := ((conjugateBound r : ℕ) : ℝ)) fun z hz => by
      rw [conjugateBound_eq]; exact conjugateBound_cons_le _ _ hz
  rw [aeval_normPolynomial hr hd, norm_mul, norm_pow,
    Complex.norm_eq_one_of_pow_eq_one rootOfUnity_primitive.pow_eq_one (by norm_num), one_pow, one_mul,
    Complex.norm_real, Real.norm_eq_abs] at h
  exact h

/-- The spec lemma of `Sample.sign`: a number's sign is the sign of the real number it stands for. -/
theorem sign_eq {x : Sample} (hx : x.Canonical) : x.sign = SignType.sign x.toReal := by
  obtain ⟨r⟩ := x
  have hr : ∀ p ∈ r, p.1 < 20 := fun p hp => (hx.2 p hp).1
  have hs : CosSum.Sorted r := ⟨hx.1, fun p hp => (hx.2 p hp).2⟩
  unfold Sample.sign Sample.toReal
  dsimp only
  split
  · rename_i h0; subst h0; simp
  rename_i hne
  have hfar := away_from_zero hs hr hne
  have hM := conjugateBound_eq_absCoeff r
  have hD : (0 : ℝ) < commonDenominator r := by exact_mod_cast commonDenominator_pos r
  have hA := absCoeff_nonneg r
  set M : ℝ := ((conjugateBound r : ℕ) : ℝ) with hMdef
  set k := 40 * Nat.log2 (conjugateBound r) + 39 with hk
  have hfuel : signFuel r = k + 1 := by unfold signFuel; omega
  rw [hfuel]
  refine signFrom_eq hr k encloses_start ?_
  have hM0 : 0 ≤ M := Nat.cast_nonneg _
  have hlt : M < 2 ^ (Nat.log2 (conjugateBound r) + 1) := by
    have := Nat.lt_log2_self (n := conjugateBound r)
    rw [hMdef]; exact_mod_cast this
  have hpow : M ^ 40 ≤ 2 ^ k * 2 := by
    have h1 : M ^ 40 ≤ (2 ^ (Nat.log2 (conjugateBound r) + 1)) ^ 40 := pow_le_pow_left₀ hM0 hlt.le 40
    have h2 : ((2 : ℝ) ^ (Nat.log2 (conjugateBound r) + 1)) ^ 40 = 2 ^ k * 2 := by
      rw [← pow_mul, ← pow_succ]; congr 1; omega
    rw [h2] at h1; exact h1
  have habs : |2 * (commonDenominator r : ℝ) * CosSum.toReal r| =
      2 * (commonDenominator r : ℝ) * |CosSum.toReal r| := by
    rw [abs_mul, abs_of_pos (by positivity)]
  rw [habs] at hfar
  have hMpos : 0 < M := by
    rcases hM0.lt_or_eq with h | h
    · exact h
    · rw [← h] at hfar; norm_num at hfar
  have hwidth : ((cosHigh : ℚ) : ℝ) - (cosLow : ℚ) = 1 / 1000000000 := by norm_num [cosHigh, cosLow]
  rw [hwidth]
  have hxpos : 0 ≤ |CosSum.toReal r| := abs_nonneg _
  have key : M ≤ M ^ 40 * (2 * (commonDenominator r : ℝ) * |CosSum.toReal r|) := by
    calc M = M * 1 := (mul_one M).symm
      _ ≤ M * (2 * (commonDenominator r : ℝ) * |CosSum.toReal r| * M ^ 39) := mul_le_mul_of_nonneg_left hfar hM0
      _ = _ := by ring
  have hAle : absCoeff r ≤ 2 ^ k * 2 * |CosSum.toReal r| := by
    have h1 : 2 * (commonDenominator r : ℝ) * absCoeff r ≤
        2 * (commonDenominator r : ℝ) * (2 ^ k * 2 * |CosSum.toReal r|) := by
      rw [← hM]
      refine key.trans ?_
      calc M ^ 40 * (2 * (commonDenominator r : ℝ) * |CosSum.toReal r|)
          ≤ 2 ^ k * 2 * (2 * (commonDenominator r : ℝ) * |CosSum.toReal r|) :=
            mul_le_mul_of_nonneg_right hpow (by positivity)
        _ = _ := by ring
    exact le_of_mul_le_mul_left h1 (by positivity)
  have hApos : 0 < absCoeff r := by
    rcases hA.lt_or_eq with h | h
    · exact h
    · rw [← h, mul_zero] at hM; linarith
  have : 0 < 2 ^ k * |CosSum.toReal r| := by linarith
  nlinarith

/-- A canonical number is 0 exactly when it is written as 0. -/
theorem toReal_eq_zero_iff {x : Sample} (hx : x.Canonical) : x.toReal = 0 ↔ x.terms = [] := by
  constructor
  · intro h
    by_contra hne
    have hfar := away_from_zero (r := x.terms) ⟨hx.1, fun p hp => (hx.2 p hp).2⟩ (fun p hp => (hx.2 p hp).1) hne
    have h0 : CosSum.toReal x.terms = 0 := h
    rw [h0, mul_zero, abs_zero, zero_mul] at hfar
    norm_num at hfar
  · intro h
    obtain ⟨r⟩ := x
    subst h; rfl

/-- The order of two numbers is the order of the real numbers (00_scope.md R14). -/
theorem order_eq (x y : Sample) : x.order y = cmp x.toReal y.toReal := by
  rw [Sample.order, sign_eq (sub_canonical _ _), toReal_sub]
  rcases lt_trichotomy x.toReal y.toReal with h | h | h
  · rw [sign_neg (sub_neg.2 h), (cmp_eq_lt_iff _ _).2 h]
  · rw [sub_eq_zero.2 h, (cmp_eq_eq_iff _ _).2 h]; simp
  · rw [sign_pos (sub_pos.2 h), (cmp_eq_gt_iff _ _).2 h]

/-- |x| is the real absolute value. -/
@[simp] theorem toReal_abs (x : Sample) : x.abs.toReal = |x.toReal| := by
  unfold Sample.abs
  split_ifs with h <;> rw [order_eq, toReal_zero] at h
  · rw [toReal_scale, abs_of_neg ((cmp_eq_lt_iff _ _).1 h)]; push_cast; ring
  · rw [abs_of_nonneg (not_lt.1 (mt (cmp_eq_lt_iff _ _).2 h))]

end Sys2Proof.Machine
end

