-- ==== Sys2Proof/Laws/Carrier.lean ====
section
/-!
SUPPORT. What the demodulators' measurements are as real numbers, on any build whose NUM is exact; what each decision on
a window of the build can answer; and that each body decides as it does on the ideal real numbers.
-/

namespace Sys2Proof.Machine

/-! ### SINTAB -/

@[simp] theorem build_num : Config.build.num = .exact := rfl

@[simp] theorem buildWithTable_num (T : Fin 100 → Sample) : (buildWithTable T).num = .exact := rfl

@[simp] theorem buildWithTable_sintab (T : Fin 100 → Sample) : (buildWithTable T).sintab = T := rfl

@[simp] theorem buildWithTable_maxLen (T : Fin 100 → Sample) : (buildWithTable T).maxLen = none := rfl

/-- The ideal table is the table of the build that exec runs. -/
theorem buildWithTable_ideal : buildWithTable SINTAB = Config.build := rfl

@[simp] theorem build_sin (m : Nat) : (Config.build.sin m).toReal = Real.sin (angle m) := by
  simp [Params.sin, Config.build, SINTAB, sin_angle_mod]

@[simp] theorem build_cos (m : Nat) : (Config.build.cos m).toReal = Real.cos (angle m) := by
  rw [Params.cos, build_sin, sin_angle_add_quarter]

/-- SINTAB and what a modulator sends are numbers of the build's NUM (00_scope.md R11, 44_modulation.md R241). -/
theorem build_inFormat : Config.build.InFormat := by
  have holds {x : Sample} (h : x.Canonical) : NumFormat.exact.holds x = true := decide_eq_true h
  exact ⟨fun m => holds (sin_canonical m.val), holds zero_canonical,
    fun a m => holds (scale_canonical a (Config.build.sin m))⟩

/-! ### Windows -/

/-- What a modulator computes from SINTAB is canonical where NUM is exact. -/
theorem carrierWindow_canonical {p : Params Sample} (hp : p.num = .exact) {a : Rat} {f ph : Nat} {x : Sample}
    (h : x ∈ carrierWindow p a f ph) : x.Canonical := by
  obtain ⟨k, -, rfl⟩ := List.mem_map.1 h
  rw [hp]; exact scale_canonical _ _

/-- So are the windows of 8-QAM. -/
theorem qamWindows_canonical {p : Params Sample} (hp : p.num = .exact) (bits : List Bit) :
    ∀ x ∈ qamWindows p bits, x.Canonical := by
  fun_induction qamWindows p bits with
  | case1 b0 b1 b2 t ih =>
    intro x hx
    rcases List.mem_append.1 hx with h | h
    · exact carrierWindow_canonical hp h
    · exact ih x h
  | case2 => simp

@[simp] theorem carrierWindow_length {ν : Type} (p : Params ν) (a : Rat) (f ph : Nat) :
    (carrierWindow p a f ph).length = 100 := by simp [carrierWindow, Config.nSps]

/-- Sample k of a carrier window is a·SIN(f·k + ph) (44_modulation.md R240). -/
theorem toReal_carrierWindow {p : Params Sample} (hp : p.num = .exact) {a : Rat} {f ph k : Nat} {x : Sample}
    (h : (carrierWindow p a f ph)[k]? = some x) : x.toReal = (a : ℝ) * (p.sin (f * k + ph)).toReal := by
  rw [carrierWindow, List.getElem?_map, Option.map_eq_some_iff] at h
  obtain ⟨j, hj, rfl⟩ := h
  obtain ⟨hlt, rfl⟩ := List.getElem?_eq_some_iff.1 hj
  rw [hp]; simp [NumFormat.exact]

/-! ### Measurements -/

/-- An exact NUM compares as the real numbers do (00_scope.md R14). -/
@[simp] theorem compare_exact (w : List Sample) (x y : Sample) :
    NumFormat.exact.compare w x y = cmp x.toReal y.toReal := order_eq x y

/-- The mean is the real mean absolute amplitude (44_modulation.md R252). -/
theorem toReal_meanAbs {p : Params Sample} (hp : p.num = .exact) (w : List Sample) :
    (meanAbs p w).toReal = realMeanAbs w := by
  have habs : Sample.toReal ∘ Sample.abs = fun x => |x.toReal| := funext toReal_abs
  simp only [meanAbs, hp, NumFormat.exact, toReal_scale, toReal_sum, List.map_map, realMeanAbs, Config.nSps, habs]
  push_cast; ring

/-- The correlator with SIN is the real inner product (44_modulation.md R257, R264). -/
theorem toReal_correlateSin {p : Params Sample} (hp : p.num = .exact) (f : Nat) (w : List Sample) :
    (correlateSin p f w).toReal = realInner w fun k => (p.sin (f * k)).toReal := by
  simp [correlateSin, hp, NumFormat.exact]

/-- The correlator with COS is the real inner product (44_modulation.md R257, R264). -/
theorem toReal_correlateCos {p : Params Sample} (hp : p.num = .exact) (f : Nat) (w : List Sample) :
    (correlateCos p f w).toReal = realInner w fun k => (p.cos (f * k)).toReal := by
  simp [correlateCos, hp, NumFormat.exact]

theorem toReal_squareSum {p : Params Sample} (hp : p.num = .exact) (x y : Sample) :
    (squareSum p x y).toReal = x.toReal ^ 2 + y.toReal ^ 2 := by
  simp [squareSum, hp, NumFormat.exact, pow_two]

/-- The energy is the real quadrature energy over SINTAB (44_modulation.md R257). -/
theorem toReal_energy {p : Params Sample} (hp : p.num = .exact) (f : Nat) (w : List Sample) :
    (energy p f w).toReal = (realInner w fun k => (p.sin (f * k)).toReal) ^ 2 +
      (realInner w fun k => (p.cos (f * k)).toReal) ^ 2 := by
  rw [energy, toReal_squareSum hp, toReal_correlateSin hp, toReal_correlateCos hp]

/-- I over SINTAB (44_modulation.md R264). -/
theorem toReal_inPhase {p : Params Sample} (hp : p.num = .exact) (w : List Sample) :
    (inPhase p w).toReal = 2 / 100 * realInner w fun k => (p.sin (p.fQam * k)).toReal := by
  simp [inPhase, hp, NumFormat.exact, correlateSin, Config.nSps]

/-- Q over SINTAB (44_modulation.md R264). -/
theorem toReal_quadrature {p : Params Sample} (hp : p.num = .exact) (w : List Sample) :
    (quadrature p w).toReal = 2 / 100 * realInner w fun k => (p.cos (p.fQam * k)).toReal := by
  simp [quadrature, hp, NumFormat.exact, correlateCos, Config.nSps]

theorem build_energy (f : Nat) (w : List Sample) : (energy Config.build f w).toReal = realEnergy f w := by
  rw [toReal_energy build_num]; simp [realEnergy]

theorem build_inPhase (w : List Sample) : (inPhase Config.build w).toReal = realI w := by
  rw [toReal_inPhase build_num]; simp [realI, show Config.build.fQam = 2 from rfl]

theorem build_quadrature (w : List Sample) : (quadrature Config.build w).toReal = realQ w := by
  rw [toReal_quadrature build_num]; simp [realQ, show Config.build.fQam = 2 from rfl]

/-! ### Decisions -/

/-- ASK's decision for one window where NUM is exact (44_modulation.md R252). -/
theorem askDecide_eq {p : Params Sample} (hp : p.num = .exact) (w : List Sample) :
    askDecide p w = if (p.aAsk : ℝ) / 2 < realMeanAbs w then .ok true
      else if realMeanAbs w < (p.aAsk : ℝ) / 4 then .ok false else .error carrierSignalError := by
  have h (q : Rat) : (p.num.ofRat q).toReal = q := by simp [hp, NumFormat.exact]
  simp only [askDecide, hp, compare_exact, cmp_eq_gt_iff, cmp_eq_lt_iff, toReal_meanAbs hp]
  simp only [← hp, h]; push_cast; rfl

/-- ASK's decision for one window of the build (44_modulation.md R252). -/
theorem askDecide_cases (w : List Sample) :
    (1 / 2 < realMeanAbs w ∧ askDecide Config.build w = .ok true) ∨
      (realMeanAbs w < 1 / 4 ∧ askDecide Config.build w = .ok false) ∨
      (1 / 4 ≤ realMeanAbs w ∧ realMeanAbs w ≤ 1 / 2 ∧ askDecide Config.build w = .error carrierSignalError) := by
  rw [askDecide_eq build_num, show ((Config.build.aAsk : ℚ) : ℝ) = 1 by norm_num [Config.build]]
  split_ifs with c1 c2
  · exact .inl ⟨c1, rfl⟩
  · exact .inr (.inl ⟨c2, rfl⟩)
  · exact .inr (.inr ⟨not_lt.1 c2, not_lt.1 c1, rfl⟩)

/-- FSK's decision for one window where NUM is exact (44_modulation.md R257). -/
theorem fskDecide_cases_exact {p : Params Sample} (hp : p.num = .exact) (w : List Sample) :
    let e1 := (energy p p.fFsk1 w).toReal
    let e2 := (energy p p.fFsk2 w).toReal
    (e2 < e1 ∧ fskDecide p w = .ok true) ∨ (e1 < e2 ∧ fskDecide p w = .ok false) ∨
      (e1 = e2 ∧ fskDecide p w = .error carrierSignalError) := by
  intro e1 e2
  have hc : p.num.compare w (energy p p.fFsk1 w) (energy p p.fFsk2 w) = cmp e1 e2 := by rw [hp, compare_exact]
  unfold fskDecide
  rcases lt_trichotomy e2 e1 with c | c | c
  · rw [hc, (cmp_eq_gt_iff _ _).2 c]; exact .inl ⟨c, rfl⟩
  · rw [hc, (cmp_eq_eq_iff _ _).2 c.symm]; exact .inr (.inr ⟨c.symm, rfl⟩)
  · rw [hc, (cmp_eq_lt_iff _ _).2 c]; exact .inr (.inl ⟨c, rfl⟩)

/-- FSK's decision for one window of the build (44_modulation.md R257). -/
theorem fskDecide_cases (w : List Sample) :
    (realEnergy 2 w < realEnergy 4 w ∧ fskDecide Config.build w = .ok true) ∨
      (realEnergy 4 w < realEnergy 2 w ∧ fskDecide Config.build w = .ok false) ∨
      (realEnergy 4 w = realEnergy 2 w ∧ fskDecide Config.build w = .error carrierSignalError) := by
  have h := fskDecide_cases_exact build_num w
  rwa [build_energy, build_energy] at h

/-- The phase decision where NUM is exact (44_modulation.md R264). -/
theorem qamPhaseDecide_cases {p : Params Sample} (hp : p.num = .exact) (w : List Sample) :
    let i := (inPhase p w).toReal
    let q := (quadrature p w).toReal
    (|q| < |i| ∧ ∃ b0, (b0 = false ↔ 0 < i) ∧ qamPhaseDecide p w = .ok (b0, false)) ∨
      (|i| < |q| ∧ ∃ b0, (b0 = false ↔ 0 < q) ∧ qamPhaseDecide p w = .ok (b0, true)) ∨
      (|i| = |q| ∧ qamPhaseDecide p w = .error carrierSignalError) := by
  intro i q
  have hc : p.num.compare w (p.num.abs (inPhase p w)) (p.num.abs (quadrature p w)) = cmp |i| |q| := by
    rw [hp, compare_exact]; simp only [NumFormat.exact, toReal_abs, i, q]
  have hb (x : Sample) : (p.num.compare w x p.num.zero != .gt) = false ↔ 0 < x.toReal := by
    rw [bne_eq_false_iff_eq, hp, compare_exact, cmp_eq_gt_iff]; rfl
  unfold qamPhaseDecide
  rcases lt_trichotomy |q| |i| with c | c | c
  · rw [hc, (cmp_eq_gt_iff _ _).2 c]; exact .inl ⟨c, _, hb _, rfl⟩
  · rw [hc, (cmp_eq_eq_iff _ _).2 c.symm]; exact .inr (.inr ⟨c.symm, rfl⟩)
  · rw [hc, (cmp_eq_lt_iff _ _).2 c]; exact .inr (.inl ⟨c, _, hb _, rfl⟩)

/-- 8-QAM's decision for one window where NUM is exact: the checks on r2, then the phase (44_modulation.md R264). -/
theorem qamDecide_eq {p : Params Sample} (hp : p.num = .exact) (w : List Sample) :
    let r2 := (inPhase p w).toReal ^ 2 + (quadrature p w).toReal ^ 2
    qamDecide p w = if r2 < 1 / 4 ∨ r2 = 9 / 4 then .error carrierSignalError
      else chain (qamPhaseDecide p w) fun ph => .ok [ph.1, ph.2, decide (9 / 4 < r2)] := by
  intro r2
  have h (q : Rat) : (p.num.ofRat q).toReal = q := by simp [hp, NumFormat.exact]
  have hr : (squareSum p (inPhase p w) (quadrature p w)).toReal = r2 := toReal_squareSum hp _ _
  have hc (x y : Sample) : p.num.compare w x y = cmp x.toReal y.toReal := by rw [hp, compare_exact]
  have hgt : (cmp r2 (9 / 4) == .gt) = decide (9 / 4 < r2) := by
    rw [Bool.eq_iff_iff, beq_iff_eq, cmp_eq_gt_iff, decide_eq_true_iff]
  simp only [qamDecide, hc, hr, h]
  push_cast
  simp only [cmp_eq_lt_iff, cmp_eq_eq_iff, hgt]
  by_cases c1 : r2 < 1 / 4
  · rw [if_pos c1, if_pos (.inl c1)]
  by_cases c2 : r2 = 9 / 4
  · rw [if_neg c1, if_pos c2, if_pos (.inr c2)]
  · rw [if_neg c1, if_neg c2, if_neg (not_or.2 ⟨c1, c2⟩)]

/-- 8-QAM's decision for one window of the build (44_modulation.md R264). -/
theorem qamDecide_cases (w : List Sample) :
    (QamRejects w ∧ qamDecide Config.build w = .error carrierSignalError) ∨
      (¬ QamRejects w ∧ ∃ b0 b1 b2, QamDecides w b0 b1 b2 ∧ qamDecide Config.build w = .ok [b0, b1, b2]) := by
  have hphase := qamPhaseDecide_cases build_num w
  have hr : realR2 w = realI w ^ 2 + realQ w ^ 2 := rfl
  rw [qamDecide_eq build_num]
  simp only [build_inPhase, build_quadrature, ← hr] at hphase ⊢
  by_cases c : realR2 w < 1 / 4 ∨ realR2 w = 9 / 4
  · exact .inl ⟨c.elim .inl (.inr ∘ .inl), if_pos c⟩
  obtain ⟨c1, c2⟩ := not_or.1 c
  rcases hphase with ⟨d, b0, hb, e⟩ | ⟨d, b0, hb, e⟩ | ⟨d, e⟩
  · exact .inr ⟨by rintro (h | h | h) <;> [exact c1 h; exact c2 h; exact d.ne' h], b0, false, _,
      ⟨not_lt.1 c1, c2, decide_eq_true_iff, .inl ⟨d, rfl, hb⟩⟩, by rw [if_neg c, e]; rfl⟩
  · exact .inr ⟨by rintro (h | h | h) <;> [exact c1 h; exact c2 h; exact d.ne h], b0, true, _,
      ⟨not_lt.1 c1, c2, decide_eq_true_iff, .inr ⟨d, rfl, hb⟩⟩, by rw [if_neg c, e]; rfl⟩
  · exact .inl ⟨.inr (.inr d), by rw [if_neg c, e]; rfl⟩

end Sys2Proof.Machine
end

