-- ==== Sys2Proof/Laws/Exec.lean ====
section
/-!
SUPPORT. What each command answers on an operand of its kind and on any other, in terms of its stages. Later proofs
cite these and never unfold a command.
-/

namespace Sys2Proof.Machine

/-! ### The end of a command, as one update -/

theorem raise_eq_ended (op : Opcode) (r : Raise) (s : State) :
    s.raise op r = s.ended (errorStatus op r) .none .none := rfl

theorem succeed_eq_ended (op : Opcode) (o0 o1 : Buffer) (s : State) :
    s.succeed op o0 o1 = s.ended (successStatus op) o0 o1 := rfl

@[simp] theorem ended_sel (s : State) (w : Word) (o0 o1 : Buffer) : (s.ended w o0 o1).sel = s.sel := rfl
@[simp] theorem ended_status (s : State) (w : Word) (o0 o1 : Buffer) : (s.ended w o0 o1).status = w := rfl
@[simp] theorem ended_inBuf (s : State) (w : Word) (o0 o1 : Buffer) : (s.ended w o0 o1).inBuf = s.inBuf := rfl
@[simp] theorem ended_out0 (s : State) (w : Word) (o0 o1 : Buffer) : (s.ended w o0 o1).out0 = o0 := rfl
@[simp] theorem ended_out1 (s : State) (w : Word) (o0 o1 : Buffer) : (s.ended w o0 o1).out1 = o1 := rfl
@[simp] theorem ended_host (s : State) (w : Word) (o0 o1 : Buffer) : (s.ended w o0 o1).host = s.host := rfl

/-! ### Operands -/

/-- Every buffer has one kind, and a kind other than NONE its sequence. -/
theorem kind_eq_one {b : Buffer} (h : b.kind = 1#3) : ∃ xs, b = .bit xs := by cases b <;> simp_all [Buffer.kind]
theorem kind_eq_two {b : Buffer} (h : b.kind = 2#3) : ∃ xs, b = .byte xs := by cases b <;> simp_all [Buffer.kind]
theorem kind_eq_three {b : Buffer} (h : b.kind = 3#3) : ∃ xs, b = .level xs := by cases b <;> simp_all [Buffer.kind]
theorem kind_eq_four {b : Buffer} (h : b.kind = 4#3) : ∃ xs, b = .sample xs := by cases b <;> simp_all [Buffer.kind]

theorem inBits_ok {s : State} {xs : List Bit} (h : s.inBuf = .bit xs) : s.inBits = .ok xs := by
  simp [State.inBits, h]

theorem inBits_error {s : State} (h : s.inBuf.kind ≠ 1#3) : s.inBits = .error configurationError := by
  unfold State.inBits; split <;> simp_all [Buffer.kind]

theorem inBytes_ok {s : State} {xs : List Byte} (h : s.inBuf = .byte xs) : s.inBytes = .ok xs := by
  simp [State.inBytes, h]

theorem inBytes_error {s : State} (h : s.inBuf.kind ≠ 2#3) : s.inBytes = .error configurationError := by
  unfold State.inBytes; split <;> simp_all [Buffer.kind]

theorem inSamples_ok {s : State} {xs : List Sample} (h : s.inBuf = .sample xs) : s.inSamples = .ok xs := by
  simp [State.inSamples, h]

theorem inSamples_error {s : State} (h : s.inBuf.kind ≠ 4#3) : s.inSamples = .error configurationError := by
  unfold State.inSamples; split <;> simp_all [Buffer.kind]

theorem inLevels_ok {s : State} {ls : List Level} (g : Stage) (h : s.inBuf = .level (ls.map Level.code)) :
    s.inLevels g = .ok ls := by
  simp [State.inLevels, h]

theorem inLevels_reserved {s : State} {codes : List LevelCode} (g : Stage) (h : s.inBuf = .level codes)
    (hr : 0b10#2 ∈ codes) : s.inLevels g = .error ⟨.signal, g⟩ := by
  simp [State.inLevels, h, readLevels_reserved hr]

theorem inLevels_error {s : State} (g : Stage) (h : s.inBuf.kind ≠ 3#3) :
    s.inLevels g = .error configurationError := by
  unfold State.inLevels; split <;> simp_all [Buffer.kind]

/-- The LC operand of a line code's own code. -/
@[simp] theorem lineCodeOperand_code (lc : LineCode) : lineCodeOperand (lineCodeCode lc) = .ok lc := by
  cases lc <;> rfl

/-- The schemes SEL selects are the ones a composed command runs with (10_state.md R22, R24). -/
theorem schemes_ok {s : State} {m : Schemes} (h : s.Selects m) : s.schemes = .ok m := by
  obtain ⟨hv, h0, h1, h2, h3, h4⟩ := h
  simp [State.schemes, selValid, hv, schemesOf, selFrm, selDet, selCor, selLc, selCar, h0, h1, h2, h3, h4]

theorem schemes_invalid {s : State} (h : s.sel.getLsbD 15 = false) : s.schemes = .error configurationError := by
  simp only [State.schemes, selValid, h, Bool.false_eq_true, if_false]

/-! ### The commands on an operand of their kind -/

/-- `exec` runs each command on the build of 00_scope.md R8's defaults. -/
theorem exec_eq_commandOn (i : Instr) (s : State) : exec i s = .next (commandOn Config.build i s) := by
  cases i <;> rfl

theorem exec_t2b {s : State} {xs : List Byte} (h : s.inBuf = .byte xs) :
    exec .t2b s =
      .next (s.finish Instr.t2b.opcode (chain (t2b Config.build xs) fun y => .ok (bitOutput y))) := by
  simp only [exec, execT2b, t2bOn, inBytes_ok h, runStage_ok]

theorem exec_b2t {s : State} {xs : List Bit} (h : s.inBuf = .bit xs) :
    exec .b2t s =
      .next (s.finish Instr.b2t.opcode (chain (b2t Config.build xs) fun y => .ok (byteOutput y))) := by
  simp only [exec, execB2t, b2tOn, inBits_ok h, runStage_ok]

theorem exec_frmLp {s : State} {xs : List Bit} (h : s.inBuf = .bit xs) :
    exec .frmLp s =
      .next (s.finish Instr.frmLp.opcode (chain (frmLp Config.build xs) fun y => .ok (bitOutput y))) := by
  simp only [exec, execFrmLp, frmLpOn, inBits_ok h, runStage_ok]

theorem exec_dfrLp {s : State} {xs : List Bit} (h : s.inBuf = .bit xs) :
    exec .dfrLp s =
      .next (s.finish Instr.dfrLp.opcode (chain (dfrLp Config.build xs) fun y => .ok (bitOutput y))) := by
  simp only [exec, execDfrLp, dfrLpOn, inBits_ok h, runStage_ok]

theorem exec_frmByte {s : State} {xs : List Bit} (h : s.inBuf = .bit xs) :
    exec .frmByte s =
      .next (s.finish Instr.frmByte.opcode (chain (frmByte Config.build xs) fun y => .ok (bitOutput y))) := by
  simp only [exec, execFrmByte, frmByteOn, inBits_ok h, runStage_ok]

theorem exec_dfrByte {s : State} {xs : List Bit} (h : s.inBuf = .bit xs) :
    exec .dfrByte s =
      .next (s.finish Instr.dfrByte.opcode (chain (dfrByte Config.build xs) fun y => .ok (bitOutput y))) := by
  simp only [exec, execDfrByte, dfrByteOn, inBits_ok h, runStage_ok]

theorem exec_frmBit {s : State} {xs : List Bit} (h : s.inBuf = .bit xs) :
    exec .frmBit s =
      .next (s.finish Instr.frmBit.opcode (chain (frmBit Config.build xs) fun y => .ok (bitOutput y))) := by
  simp only [exec, execFrmBit, frmBitOn, inBits_ok h, runStage_ok]

theorem exec_dfrBit {s : State} {xs : List Bit} (h : s.inBuf = .bit xs) :
    exec .dfrBit s =
      .next (s.finish Instr.dfrBit.opcode (chain (dfrBit Config.build xs) fun y => .ok (bitOutput y))) := by
  simp only [exec, execDfrBit, dfrBitOn, inBits_ok h, runStage_ok]

theorem exec_parEnc {s : State} {xs : List Bit} (h : s.inBuf = .bit xs) :
    exec .parEnc s =
      .next (s.finish Instr.parEnc.opcode (chain (parEnc Config.build xs) fun y => .ok (bitOutput y))) := by
  simp only [exec, execParEnc, parEncOn, inBits_ok h, runStage_ok]

theorem exec_parDec {s : State} {xs : List Bit} (h : s.inBuf = .bit xs) :
    exec .parDec s =
      .next (s.finish Instr.parDec.opcode (chain (parDec Config.build xs) fun y => .ok (bitOutput y))) := by
  simp only [exec, execParDec, parDecOn, inBits_ok h, runStage_ok]

theorem exec_crcEnc {s : State} {xs : List Bit} (h : s.inBuf = .bit xs) :
    exec .crcEnc s =
      .next (s.finish Instr.crcEnc.opcode (chain (crcEnc Config.build xs) fun y => .ok (bitOutput y))) := by
  simp only [exec, execCrcEnc, crcEncOn, inBits_ok h, runStage_ok]

theorem exec_crcDec {s : State} {xs : List Bit} (h : s.inBuf = .bit xs) :
    exec .crcDec s =
      .next (s.finish Instr.crcDec.opcode (chain (crcDec Config.build xs) fun y => .ok (bitOutput y))) := by
  simp only [exec, execCrcDec, crcDecOn, inBits_ok h, runStage_ok]

theorem exec_hamEnc {s : State} {xs : List Bit} (h : s.inBuf = .bit xs) :
    exec .hamEnc s =
      .next (s.finish Instr.hamEnc.opcode (chain (hamEnc Config.build xs) fun y => .ok (bitOutput y))) := by
  simp only [exec, execHamEnc, hamEncOn, inBits_ok h, runStage_ok]

theorem exec_hamDec {s : State} {xs : List Bit} (h : s.inBuf = .bit xs) :
    exec .hamDec s =
      .next (s.finish Instr.hamDec.opcode (chain (hamDec Config.build xs) fun y => .ok (bitOutput y))) := by
  simp only [exec, execHamDec, hamDecOn, inBits_ok h, runStage_ok]

theorem exec_nrzEnc {s : State} {xs : List Bit} (h : s.inBuf = .bit xs) :
    exec .nrzEnc s =
      .next (s.finish Instr.nrzEnc.opcode (chain (nrzEnc Config.build xs) fun y => .ok (levelOutput y))) := by
  simp only [exec, execNrzEnc, nrzEncOn, inBits_ok h, runStage_ok]

theorem exec_manEnc {s : State} {xs : List Bit} (h : s.inBuf = .bit xs) :
    exec .manEnc s =
      .next (s.finish Instr.manEnc.opcode (chain (manEnc Config.build xs) fun y => .ok (levelOutput y))) := by
  simp only [exec, execManEnc, manEncOn, inBits_ok h, runStage_ok]

theorem exec_amiEnc {s : State} {xs : List Bit} (h : s.inBuf = .bit xs) :
    exec .amiEnc s =
      .next (s.finish Instr.amiEnc.opcode (chain (amiEnc Config.build xs) fun y => .ok (levelOutput y))) := by
  simp only [exec, execAmiEnc, amiEncOn, inBits_ok h, runStage_ok]

theorem exec_nrzDec {s : State} {ls : List Level} (h : s.inBuf = .level (ls.map Level.code)) :
    exec .nrzDec s =
      .next (s.finish Instr.nrzDec.opcode (chain (nrzDec Config.build ls) fun y => .ok (bitOutput y))) := by
  simp only [exec, execNrzDec, nrzDecOn, inLevels_ok .line h, runStage_ok]

theorem exec_manDec {s : State} {ls : List Level} (h : s.inBuf = .level (ls.map Level.code)) :
    exec .manDec s =
      .next (s.finish Instr.manDec.opcode (chain (manDec Config.build ls) fun y => .ok (bitOutput y))) := by
  simp only [exec, execManDec, manDecOn, inLevels_ok .line h, runStage_ok]

theorem exec_amiDec {s : State} {ls : List Level} (h : s.inBuf = .level (ls.map Level.code)) :
    exec .amiDec s =
      .next (s.finish Instr.amiDec.opcode (chain (amiDec Config.build ls) fun y => .ok (bitOutput y))) := by
  simp only [exec, execAmiDec, amiDecOn, inLevels_ok .line h, runStage_ok]

theorem exec_askMod {s : State} {ls : List Level} (lc : LineCode)
    (h : s.inBuf = .level (ls.map Level.code)) :
    exec (.askMod (lineCodeCode lc)) s =
      .next (s.finish (Instr.askMod (lineCodeCode lc)).opcode
        (chain (askMod Config.build lc ls) fun y => .ok (sampleOutput y))) := by
  simp only [exec, execAskMod, askModOn, State.modOperand, lineCodeOperand_code, inLevels_ok .carrier h, chain_ok,
    runStage_ok]

theorem exec_fskMod {s : State} {ls : List Level} (lc : LineCode)
    (h : s.inBuf = .level (ls.map Level.code)) :
    exec (.fskMod (lineCodeCode lc)) s =
      .next (s.finish (Instr.fskMod (lineCodeCode lc)).opcode
        (chain (fskMod Config.build lc ls) fun y => .ok (sampleOutput y))) := by
  simp only [exec, execFskMod, fskModOn, State.modOperand, lineCodeOperand_code, inLevels_ok .carrier h, chain_ok,
    runStage_ok]

theorem exec_qamMod {s : State} {ls : List Level} (lc : LineCode)
    (h : s.inBuf = .level (ls.map Level.code)) :
    exec (.qamMod (lineCodeCode lc)) s =
      .next (s.finish (Instr.qamMod (lineCodeCode lc)).opcode
        (chain (qamMod Config.build lc ls) fun y => .ok (sampleOutput y))) := by
  simp only [exec, execQamMod, qamModOn, State.modOperand, lineCodeOperand_code, inLevels_ok .carrier h, chain_ok,
    runStage_ok]

theorem exec_askDem {s : State} {xs : List Sample} (lc : LineCode) (h : s.inBuf = .sample xs) :
    exec (.askDem (lineCodeCode lc)) s =
      .next (s.finish (Instr.askDem (lineCodeCode lc)).opcode
        (chain (askDem Config.build lc xs) fun y => .ok (levelOutput y))) := by
  simp only [exec, execAskDem, askDemOn, State.demOperand, lineCodeOperand_code, inSamples_ok h, chain_ok,
    runStage_ok]

theorem exec_fskDem {s : State} {xs : List Sample} (lc : LineCode) (h : s.inBuf = .sample xs) :
    exec (.fskDem (lineCodeCode lc)) s =
      .next (s.finish (Instr.fskDem (lineCodeCode lc)).opcode
        (chain (fskDem Config.build lc xs) fun y => .ok (levelOutput y))) := by
  simp only [exec, execFskDem, fskDemOn, State.demOperand, lineCodeOperand_code, inSamples_ok h, chain_ok,
    runStage_ok]

theorem exec_qamDem {s : State} {xs : List Sample} (lc : LineCode) (h : s.inBuf = .sample xs) :
    exec (.qamDem (lineCodeCode lc)) s =
      .next (s.finish (Instr.qamDem (lineCodeCode lc)).opcode
        (chain (qamDem Config.build lc xs) fun y => .ok (levelOutput y))) := by
  simp only [exec, execQamDem, qamDemOn, State.demOperand, lineCodeOperand_code, inSamples_ok h, chain_ok,
    runStage_ok]

theorem exec_encode {s : State} {m : Schemes} {xs : List Byte} (hm : s.Selects m)
    (h : s.inBuf = .byte xs) :
    exec .encode s = .next (s.finish Instr.encode.opcode
      (chain (encodeStages Config.build m xs) fun y => .ok (codedOutput y))) := by
  simp only [exec, execEncode, encodeOn, withSchemes, schemes_ok hm, inBytes_ok h, chain_ok, runStage_ok]

theorem exec_decode {s : State} {m : Schemes} {xs : List Bit} (hm : s.Selects m)
    (h : s.inBuf = .bit xs) :
    exec .decode s = .next (s.finish Instr.decode.opcode
      (chain (decodeStages Config.build m xs) fun y => .ok (byteOutput y))) := by
  simp only [exec, execDecode, decodeOn, withSchemes, schemes_ok hm, inBits_ok h, chain_ok, runStage_ok]

theorem exec_modulate {s : State} {m : Schemes} {xs : List Bit} (hm : s.Selects m)
    (h : s.inBuf = .bit xs) :
    exec .modulate s = .next (s.finish Instr.modulate.opcode
      (chain (modulateStages Config.build m xs) fun y => .ok (sampleOutput y))) := by
  simp only [exec, execModulate, modulateOn, withSchemes, schemes_ok hm, inBits_ok h, chain_ok, runStage_ok]

theorem exec_demodulate {s : State} {m : Schemes} {xs : List Sample} (hm : s.Selects m)
    (h : s.inBuf = .sample xs) :
    exec .demodulate s = .next (s.finish Instr.demodulate.opcode
      (chain (demodulateStages Config.build m xs) fun y => .ok (bitOutput y))) := by
  simp only [exec, execDemodulate, demodulateOn, withSchemes, schemes_ok hm, inSamples_ok h, chain_ok, runStage_ok]

end Sys2Proof.Machine
end

