-- ==== Sys2Proof/Laws/Ideal.lean ====
section
/-!
SUPPORT. Where NUM is exact, every modulator and demodulator body does on `Sample`s what it does on the ideal real numbers
they stand for (00_scope.md R8, R14; 93_implementation_defined.md U10). So the build that exec runs is the ideal build,
restricted to the samples that State can hold (log 4).
-/

namespace Sys2Proof.Machine

variable {p : Params Sample}

@[simp] theorem onReals_sin (m : Nat) : (onReals p).sin m = (p.sin m).toReal := rfl

@[simp] theorem onReals_cos (m : Nat) : (onReals p).cos m = (p.cos m).toReal := rfl

@[simp] theorem ideal_compare (w : List ℝ) (x y : ℝ) : idealFormat.compare w x y = cmp x y := rfl

theorem onReals_inner (w : List Sample) (g : Nat → ℝ) :
    idealFormat.inner (w.map Sample.toReal) g = realInner w g := by
  simp [idealFormat, realInner]

/-! ### Modulators -/

theorem onReals_carrierWindow (hp : p.num = .exact) (a : Rat) (f ph : Nat) :
    carrierWindow (onReals p) a f ph = (carrierWindow p a f ph).map Sample.toReal := by
  simp only [carrierWindow, List.map_map, hp]
  refine List.map_congr_left fun k _ => ?_
  simp [onReals, idealFormat, NumFormat.exact, Params.sin]

theorem onReals_silentWindow (hp : p.num = .exact) :
    silentWindow (onReals p) = (silentWindow p).map Sample.toReal := by
  simp [silentWindow, onReals, idealFormat, NumFormat.exact, hp]

theorem onReals_askWindow (hp : p.num = .exact) (lc : LineCode) (l : Level) :
    askWindow (onReals p) lc l = (askWindow p lc l).map Sample.toReal := by
  unfold askWindow
  split
  · exact onReals_carrierWindow hp _ _ _
  · exact onReals_silentWindow hp

theorem onReals_qamWindows (hp : p.num = .exact) (bits : List Bit) :
    qamWindows (onReals p) bits = (qamWindows p bits).map Sample.toReal := by
  fun_induction qamWindows p bits with
  | case1 b0 b1 b2 t ih =>
    rw [qamWindows, ih, List.map_append]
    exact congrArg (· ++ _) (onReals_carrierWindow hp _ _ _)
  | case2 bits h =>
    unfold qamWindows
    split
    · exact absurd rfl (h _ _ _ _)
    · rfl

theorem onReals_fits (n : Nat) : fits (onReals p) n = fits p n := rfl

theorem onReals_within (g : Stage) (out : List Sample) :
    within (onReals p) g (out.map Sample.toReal) = (within p g out).map (List.map Sample.toReal) := by
  unfold within
  rw [List.length_map, onReals_fits]
  split <;> rfl

/-- Every modulator sends the real numbers that its samples stand for. -/
theorem onReals_carMod (hp : p.num = .exact) (car : Carrier) (lc : LineCode) (ls : List Level) :
    carMod (onReals p) car lc ls = (carMod p car lc ls).map (List.map Sample.toReal) := by
  cases car with
  | ask =>
    refine Eq.trans ?_ (onReals_within _ _)
    simp only [carMod, askMod, List.map_flatMap, ← onReals_askWindow hp]
  | fsk =>
    refine Eq.trans ?_ (onReals_within _ _)
    rw [List.map_flatMap]
    exact congrArg (fun w => within (onReals p) .carrier (ls.flatMap w))
      (funext fun l => onReals_carrierWindow hp _ _ _)
  | qam =>
    simp only [carMod, qamMod, onReals_qamWindows hp]
    split
    · exact onReals_within _ _
    · rfl

/-! ### Demodulators -/

theorem onReals_meanAbs (hp : p.num = .exact) (w : List Sample) :
    meanAbs (onReals p) (w.map Sample.toReal) = (meanAbs p w).toReal := by
  rw [toReal_meanAbs hp]
  simp only [meanAbs, onReals, idealFormat, realMeanAbs, List.map_map, Config.nSps, Function.comp_def]
  push_cast; ring

theorem onReals_correlateSin (hp : p.num = .exact) (f : Nat) (w : List Sample) :
    correlateSin (onReals p) f (w.map Sample.toReal) = (correlateSin p f w).toReal := by
  rw [toReal_correlateSin hp]; exact onReals_inner _ _

theorem onReals_correlateCos (hp : p.num = .exact) (f : Nat) (w : List Sample) :
    correlateCos (onReals p) f (w.map Sample.toReal) = (correlateCos p f w).toReal := by
  rw [toReal_correlateCos hp]; exact onReals_inner _ _

theorem onReals_squareSum (hp : p.num = .exact) (x y : Sample) :
    squareSum (onReals p) x.toReal y.toReal = (squareSum p x y).toReal := by
  rw [toReal_squareSum hp, pow_two, pow_two]; rfl

theorem onReals_energy (hp : p.num = .exact) (f : Nat) (w : List Sample) :
    energy (onReals p) f (w.map Sample.toReal) = (energy p f w).toReal := by
  rw [energy, onReals_correlateSin hp, onReals_correlateCos hp, onReals_squareSum hp]; rfl

theorem onReals_inPhase (hp : p.num = .exact) (w : List Sample) :
    inPhase (onReals p) (w.map Sample.toReal) = (inPhase p w).toReal := by
  simp only [inPhase, show (onReals p).fQam = p.fQam from rfl, onReals_correlateSin hp, hp]
  simp [onReals, idealFormat, NumFormat.exact]

theorem onReals_quadrature (hp : p.num = .exact) (w : List Sample) :
    quadrature (onReals p) (w.map Sample.toReal) = (quadrature p w).toReal := by
  simp only [quadrature, show (onReals p).fQam = p.fQam from rfl, onReals_correlateCos hp, hp]
  simp [onReals, idealFormat, NumFormat.exact]

theorem onReals_compare (hp : p.num = .exact) (w : List ℝ) (v : List Sample) (x y : Sample) :
    (onReals p).num.compare w x.toReal y.toReal = p.num.compare v x y := by
  rw [hp, compare_exact]; rfl

theorem onReals_ofRat (hp : p.num = .exact) (q : Rat) : (onReals p).num.ofRat q = (p.num.ofRat q).toReal := by
  rw [hp]; exact (toReal_ofRat q).symm

theorem onReals_askDecide (hp : p.num = .exact) (w : List Sample) :
    askDecide (onReals p) (w.map Sample.toReal) = askDecide p w := by
  simp only [askDecide, onReals_meanAbs hp, onReals_ofRat hp, onReals_compare hp _ w]; rfl

theorem onReals_fskDecide (hp : p.num = .exact) (w : List Sample) :
    fskDecide (onReals p) (w.map Sample.toReal) = fskDecide p w := by
  simp only [fskDecide, onReals_energy hp, onReals_compare hp _ w]; rfl

theorem onReals_qamPhaseDecide (hp : p.num = .exact) (w : List Sample) :
    qamPhaseDecide (onReals p) (w.map Sample.toReal) = qamPhaseDecide p w := by
  have habs (x : Sample) : (onReals p).num.abs x.toReal = (p.num.abs x).toReal := by
    rw [hp]; exact (toReal_abs x).symm
  have hzero : (onReals p).num.zero = p.num.zero.toReal := by rw [hp]; exact toReal_zero.symm
  simp only [qamPhaseDecide, onReals_inPhase hp, onReals_quadrature hp, habs, hzero, onReals_compare hp _ w]

theorem onReals_qamDecide (hp : p.num = .exact) (w : List Sample) :
    qamDecide (onReals p) (w.map Sample.toReal) = qamDecide p w := by
  simp only [qamDecide, onReals_inPhase hp, onReals_quadrature hp, onReals_squareSum hp, onReals_ofRat hp,
    onReals_compare hp _ w, onReals_qamPhaseDecide hp]

theorem groups_map {α β : Type} (f : α → β) (n count : Nat) (s : List α) :
    groups n count (s.map f) = (groups n count s).map (List.map f) := by
  induction count generalizing s with
  | zero => rfl
  | succ k ih => simp [groups, ← List.map_drop, ih]

theorem mapResult_map {α β γ : Type} (f : β → Result γ) (g : α → β) (xs : List α) :
    mapResult f (xs.map g) = mapResult (fun x => f (g x)) xs := by
  induction xs with
  | nil => rfl
  | cons x t ih => rw [List.map_cons, mapResult, mapResult, ih]

theorem splitWindows_map {α β : Type} (f : α → β) (s : List α) :
    splitWindows (s.map f) = (splitWindows s).map (List.map (List.map f)) := by
  unfold splitWindows wholeGroups
  rw [List.length_map, groups_map]
  split <;> rfl

theorem chain_map {α β γ : Type} (r : Result α) (f : α → β) (next : β → Result γ) :
    chain (r.map f) next = chain r fun x => next (f x) := by cases r <;> rfl

/-- Every demodulator decides on the real numbers its samples stand for. -/
theorem onReals_carDem (hp : p.num = .exact) (car : Carrier) (lc : LineCode) (xs : List Sample) :
    carDem (onReals p) car lc (xs.map Sample.toReal) = carDem p car lc xs := by
  cases car <;>
    simp only [carDem, askDem, fskDem, qamDem, splitWindows_map, chain_map, mapResult_map, onReals_askDecide hp,
      onReals_fskDecide hp, onReals_qamDecide hp] <;> rfl

end Sys2Proof.Machine
end

