-- ==== Sys2Proof/Laws/PerInstr.lean ====
section
/-!
SUPPORT. The encoder's fields, per command: OP is w[15:10] and ARG is w[9:0] (30_encoding.md R80).
-/

namespace Sys2Proof.Laws

open Sys2Proof

/-- A command word as a number. -/
theorem word_toNat (op : Opcode) (arg : BitVec 10) :
    (op ++ arg : Word).toNat = op.toNat * 1024 + arg.toNat := by
  have h : (op ++ arg : Word).toNat = (op ++ arg : BitVec (6 + 10)).toNat := rfl
  have := arg.isLt
  rw [h, BitVec.toNat_append, ← Nat.shiftLeft_add_eq_or_of_lt this, Nat.shiftLeft_eq]

/-- The two fields of a word put together from an opcode and an argument. -/
theorem fields_append (op : Opcode) (arg : BitVec 10) : opField (op ++ arg) = op ∧ argField (op ++ arg) = arg := by
  have := arg.isLt
  have := op.isLt
  constructor
  · apply BitVec.eq_of_toNat_eq
    rw [opField, BitVec.extractLsb'_toNat, word_toNat, Nat.shiftRight_eq_div_pow]
    omega
  · apply BitVec.eq_of_toNat_eq
    rw [argField, BitVec.extractLsb'_toNat, word_toNat, Nat.shiftRight_eq_div_pow]
    omega

/-- The opcode and the argument of a command stand in their places in its word. -/
def Encoding.Statement (i : Instr) : Prop :=
  opField (Sys2Proof.encode i) = i.opcode ∧ argField (Sys2Proof.encode i) = i.argument

theorem Encoding.setsel (car lc cor det frm : Code) : Encoding.Statement (.setsel car lc cor det frm) := fields_append _ _

theorem Encoding.xfer : Encoding.Statement .xfer := fields_append _ _

theorem Encoding.t2b : Encoding.Statement .t2b := fields_append _ _

theorem Encoding.b2t : Encoding.Statement .b2t := fields_append _ _

theorem Encoding.frmLp : Encoding.Statement .frmLp := fields_append _ _

theorem Encoding.dfrLp : Encoding.Statement .dfrLp := fields_append _ _

theorem Encoding.frmByte : Encoding.Statement .frmByte := fields_append _ _

theorem Encoding.dfrByte : Encoding.Statement .dfrByte := fields_append _ _

theorem Encoding.frmBit : Encoding.Statement .frmBit := fields_append _ _

theorem Encoding.dfrBit : Encoding.Statement .dfrBit := fields_append _ _

theorem Encoding.parEnc : Encoding.Statement .parEnc := fields_append _ _

theorem Encoding.parDec : Encoding.Statement .parDec := fields_append _ _

theorem Encoding.crcEnc : Encoding.Statement .crcEnc := fields_append _ _

theorem Encoding.crcDec : Encoding.Statement .crcDec := fields_append _ _

theorem Encoding.hamEnc : Encoding.Statement .hamEnc := fields_append _ _

theorem Encoding.hamDec : Encoding.Statement .hamDec := fields_append _ _

theorem Encoding.nrzEnc : Encoding.Statement .nrzEnc := fields_append _ _

theorem Encoding.nrzDec : Encoding.Statement .nrzDec := fields_append _ _

theorem Encoding.manEnc : Encoding.Statement .manEnc := fields_append _ _

theorem Encoding.manDec : Encoding.Statement .manDec := fields_append _ _

theorem Encoding.amiEnc : Encoding.Statement .amiEnc := fields_append _ _

theorem Encoding.amiDec : Encoding.Statement .amiDec := fields_append _ _

theorem Encoding.askMod (lc : Code) : Encoding.Statement (.askMod lc) := fields_append _ _

theorem Encoding.askDem (lc : Code) : Encoding.Statement (.askDem lc) := fields_append _ _

theorem Encoding.fskMod (lc : Code) : Encoding.Statement (.fskMod lc) := fields_append _ _

theorem Encoding.fskDem (lc : Code) : Encoding.Statement (.fskDem lc) := fields_append _ _

theorem Encoding.qamMod (lc : Code) : Encoding.Statement (.qamMod lc) := fields_append _ _

theorem Encoding.qamDem (lc : Code) : Encoding.Statement (.qamDem lc) := fields_append _ _

theorem Encoding.encode : Encoding.Statement .encode := fields_append _ _

theorem Encoding.decode : Encoding.Statement .decode := fields_append _ _

theorem Encoding.modulate : Encoding.Statement .modulate := fields_append _ _

theorem Encoding.demodulate : Encoding.Statement .demodulate := fields_append _ _

end Sys2Proof.Laws
end

