-- ==== Sys2Proof/Tests/Slice0.lean ====
section
/-!
SUPPORT. The author's own tests. Expected values come from the spec: the examples of the rules and
95_test_vectors.md, or hand calculation from the rules. Each comment names the source.
-/

namespace Sys2Proof.Tests

open Sys2Proof Sys2Proof.Machine

-- One theorem at a time: each kernel evaluation waits for the declarations before it, and many waiting at once
-- would hold a thread each.
set_option Elab.async false

/-! ### Helpers -/

/-- The state after reset with IN and SEL set. -/
def stateOf (sel : Word) (b : Buffer) : State := { State.reset with sel := sel, inBuf := b }

/-- The state after a command; a fault or a refusal would leave it as it was. -/
def after (i : Instr) (s : State) : State :=
  match exec i s with
  | .next t => t
  | .fault _ => s
  | .refused _ => s

/-- The state after a step; a fault or a refusal would leave it as it was. -/
def stepped (s : State) : State :=
  match step s with
  | .next t => t
  | .fault _ => s
  | .refused _ => s

/-- STATUS and OUT0 after a command on IN = `b`. -/
def ran (i : Instr) (b : Buffer) : Word × Buffer :=
  let t := after i (stateOf 0x8004#16 b)
  (t.status, t.out0)

/-- A bit sequence from a string of 0 and 1 (30_encoding.md R86). -/
def bitsOf (text : String) : List Bit := (text.toList.filter (· ≠ ' ')).map (· == '1')

/-- `n` samples of one rational value. -/
def flat (n : Nat) (q : Rat) : List Sample := List.replicate n (Sample.ofRat q)

/-- The samples of a buffer. -/
def samplesOf : Buffer → List Sample
  | .sample xs => xs
  | _ => []

/-! ### WellFormed: an ill-formed term for each check -/

/-- LC = 3 in a format C command is refused (30_encoding.md R84). -/
theorem test_wellFormed_refuses_line_code_three :
    [Instr.askMod 3#2, .askDem 3#2, .fskMod 3#2, .fskDem 3#2, .qamMod 3#2, .qamDem 3#2].all (!·.wellFormed) = true := by
  decide

theorem test_wellFormed_accepts :
    [Instr.askMod 2#2, .qamDem 0#2, .setsel 3#2 3#2 3#2 3#2 3#2, .encode].all Instr.wellFormed = true := by
  decide

/-! ### Decoding: words written out from 30_encoding.md R80, R81 and R83 as OP ++ ARG -/

theorem test_decode_control :
    decode (0b000001#6 ++ 0b0101011001#10) = .ok (.setsel 1#2 1#2 1#2 2#2 1#2) ∧
      decode (0b000010#6 ++ 0b0000000000#10) = .ok .xfer := by decide

theorem test_decode_codec :
    decode (0b000100#6 ++ 0#10) = .ok .t2b ∧ decode (0b000101#6 ++ 0#10) = .ok .b2t := by decide

theorem test_decode_framing :
    decode (0b001000#6 ++ 0#10) = .ok .frmLp ∧ decode (0b001001#6 ++ 0#10) = .ok .dfrLp ∧
      decode (0b001010#6 ++ 0#10) = .ok .frmByte ∧ decode (0b001011#6 ++ 0#10) = .ok .dfrByte ∧
      decode (0b001100#6 ++ 0#10) = .ok .frmBit ∧ decode (0b001101#6 ++ 0#10) = .ok .dfrBit := by decide

theorem test_decode_error_control :
    decode (0b010000#6 ++ 0#10) = .ok .parEnc ∧ decode (0b010001#6 ++ 0#10) = .ok .parDec ∧
      decode (0b010010#6 ++ 0#10) = .ok .crcEnc ∧ decode (0b010011#6 ++ 0#10) = .ok .crcDec ∧
      decode (0b010100#6 ++ 0#10) = .ok .hamEnc ∧ decode (0b010101#6 ++ 0#10) = .ok .hamDec := by decide

theorem test_decode_line :
    decode (0b011000#6 ++ 0#10) = .ok .nrzEnc ∧ decode (0b011001#6 ++ 0#10) = .ok .nrzDec ∧
      decode (0b011010#6 ++ 0#10) = .ok .manEnc ∧ decode (0b011011#6 ++ 0#10) = .ok .manDec ∧
      decode (0b011100#6 ++ 0#10) = .ok .amiEnc ∧ decode (0b011101#6 ++ 0#10) = .ok .amiDec := by decide

/-- LC stands in ARG[7:6]. -/
theorem test_decode_carrier :
    decode (0b100000#6 ++ 0b0000000000#10) = .ok (.askMod 0#2) ∧
      decode (0b100001#6 ++ 0b0001000000#10) = .ok (.askDem 1#2) ∧
      decode (0b100010#6 ++ 0b0010000000#10) = .ok (.fskMod 2#2) ∧
      decode (0b100011#6 ++ 0b0001000000#10) = .ok (.fskDem 1#2) ∧
      decode (0b100100#6 ++ 0b0010000000#10) = .ok (.qamMod 2#2) ∧
      decode (0b100101#6 ++ 0b0000000000#10) = .ok (.qamDem 0#2) := by decide

theorem test_decode_composed :
    decode (0b110000#6 ++ 0#10) = .ok .encode ∧ decode (0b110001#6 ++ 0#10) = .ok .decode ∧
      decode (0b110010#6 ++ 0#10) = .ok .modulate ∧ decode (0b110011#6 ++ 0#10) = .ok .demodulate := by decide

/-- R84 and R85: reserved opcodes, nonzero ARG, must-be-zero bits, LC = 3. -/
theorem test_decode_rejects :
    decode 0x0000#16 = .error .reservedOpcode ∧ decode 0xD000#16 = .error .reservedOpcode ∧
      decode 0x1001#16 = .error .nonzeroArgument ∧ decode 0xCE00#16 = .error .nonzeroArgument ∧
      decode 0x8100#16 = .error .nonzeroReservedBit ∧ decode 0x9401#16 = .error .nonzeroReservedBit ∧
      decode 0x80C0#16 = .error .reservedLineCode := by decide

/-- The table numbers a word's bits from its least significant one; 0x0C00 is no command (R85). -/
theorem test_decodeTableWord :
    decodeTableWord 16 0x8C40 = some (.fskDem 1#2) ∧ decodeTableWord 16 0x0C00 = none := by decide

/-! ### The step and the host -/

/-- The word placed by withFetchWord is run from reset: SETSEL 0x0404 (R290). -/
theorem test_step_runs_word :
    stepped (State.reset.withFetchWord 16 0x0404) =
      { State.reset with sel := 0x8004#16, status := 0x0100#16 } := by decide +kernel

/-- The all-zero word is not a command (R85). -/
theorem test_step_rejects_word :
    stepped (State.reset.withFetchWord 16 0x0000) = { State.reset with status := 0x0015#16 } := by decide +kernel

/-- FLIP inverts one bit of IN and touches nothing else (95_test_vectors.md section 8). -/
theorem test_host_flip :
    stepped { stateOf 0x8004#16 (.bit [true, true, true]) with host := [.flip 1, .reset] } =
      { stateOf 0x8004#16 (.bit [true, false, true]) with host := [.reset] } := by decide +kernel

/-- A load of kind 0 is refused and leaves IN unchanged (R29). -/
theorem test_host_load_refused :
    stepped { stateOf 0#16 (.bit [true]) with host := [.load 0#3 []] } = stateOf 0#16 (.bit [true]) := by
  decide +kernel

/-! ### One command at a time -/

/-- R290: a reserved COR. -/
theorem test_setsel_reserved :
    after (.setsel 0#2 0#2 2#2 0#2 0#2) (stateOf 0x8004#16 .none) =
      { stateOf 0x8004#16 .none with status := 0x0115#16 } := by decide +kernel

/-- R291: an empty sequence of a real kind is transferred. -/
theorem test_xfer_empty :
    after .xfer { State.reset with out0 := .bit [] } =
      { State.reset with inBuf := .bit [], status := 0x0200#16 } := by decide +kernel

/-- R110's example. -/
theorem test_t2b : ran .t2b (.byte [0x48#8, 0x69#8]) = (0x0400#16, .bit (bitsOf "0100100001101001")) := by
  decide +kernel

/-- R112's examples. -/
theorem test_b2t :
    ran .b2t (.bit (bitsOf "0100100001101001")) = (0x0500#16, .byte [0x48#8, 0x69#8]) ∧
      ran .b2t (.bit (bitsOf "0100100")) = (0x0523#16, .none) ∧
      ran .b2t (.bit (bitsOf "1100000010000000")) = (0x0523#16, .none) := by decide +kernel

/-- R131's example. -/
theorem test_frmLp :
    ran .frmLp (.bit (bitsOf "0100100001101001")) =
      (0x0800#16, .bit (bitsOf "00110000 00110000 00110001 00110110 0100100001101001")) := by decide +kernel

/-- R132's examples. -/
theorem test_dfrLp :
    ran .dfrLp (.bit (bitsOf "00110000 00110000 00110001 00110110 0100100001101001")) =
        (0x0900#16, .bit (bitsOf "0100100001101001")) ∧
      ran .dfrLp (.bit (bitsOf "00110000 00110000 00110001 00110110 010010000110100")) = (0x0931#16, .none) := by
  decide +kernel

/-- R141's example. -/
theorem test_frmByte :
    ran .frmByte (.bit (bitsOf "01000001 01111110 01111101")) =
      (0x0A00#16, .bit (bitsOf "01111110 01000001 01111101 01111110 01111101 01111101 01111110")) := by
  decide +kernel

/-- R143's examples. -/
theorem test_dfrByte :
    ran .dfrByte (.bit (bitsOf "01111110 01000001 01111101 01111110 01111101 01111101 01111110")) =
        (0x0B00#16, .bit (bitsOf "01000001 01111110 01111101")) ∧
      ran .dfrByte (.bit (bitsOf "01111110 01111101 01111110")) = (0x0B31#16, .none) := by decide +kernel

/-- R151's example. -/
theorem test_frmBit :
    ran .frmBit (.bit (bitsOf "01111110")) = (0x0C00#16, .bit (bitsOf "01111110 011111100 01111110")) := by
  decide +kernel

/-- R152's examples. -/
theorem test_dfrBit :
    ran .dfrBit (.bit (bitsOf "01111110 011111100 01111110")) = (0x0D00#16, .bit (bitsOf "01111110")) ∧
      ran .dfrBit (.bit (bitsOf "01111110 00111111 00000000 01111110")) =
        (0x0D00#16, .bit (bitsOf "0011111100000000")) := by decide +kernel

/-- R170's example. -/
theorem test_parEnc : ran .parEnc (.bit (bitsOf "1011")) = (0x1000#16, .bit (bitsOf "10111")) := by decide +kernel

/-- R171's examples. -/
theorem test_parDec :
    ran .parDec (.bit (bitsOf "10111")) = (0x1100#16, .bit (bitsOf "1011")) ∧
      ran .parDec (.bit (bitsOf "10101")) = (0x1142#16, .none) ∧ ran .parDec (.bit []) = (0x1142#16, .none) := by
  decide +kernel

/-- R182's example. -/
theorem test_crcEnc : ran .crcEnc (.bit (bitsOf "1011")) = (0x1200#16, .bit (bitsOf "1011100")) := by decide +kernel

/-- R183's examples. -/
theorem test_crcDec :
    ran .crcDec (.bit (bitsOf "1011100")) = (0x1300#16, .bit (bitsOf "1011")) ∧
      ran .crcDec (.bit (bitsOf "0011100")) = (0x1342#16, .none) ∧
      ran .crcDec (.bit (bitsOf "00")) = (0x1342#16, .none) := by decide +kernel

/-- R191's example. -/
theorem test_hamEnc : ran .hamEnc (.bit (bitsOf "10110010")) = (0x1400#16, .bit (bitsOf "101001110010")) := by
  decide +kernel

/-- R194's examples, with a remainder behind. -/
theorem test_hamDec :
    ran .hamDec (.bit (bitsOf "101001110010 11")) = (0x1500#16, .bit (bitsOf "10110010 11")) ∧
      ran .hamDec (.bit (bitsOf "001001110010")) = (0x1500#16, .bit (bitsOf "10110010")) := by decide +kernel

/-- R210's example. -/
theorem test_nrzEnc :
    ran .nrzEnc (.bit (bitsOf "1011")) = (0x1800#16, .level [0b01#2, 0b11#2, 0b01#2, 0b01#2]) := by decide +kernel

/-- R211's example; a reserved code raises. -/
theorem test_nrzDec :
    ran .nrzDec (.level [0b01#2, 0b11#2, 0b00#2, 0b01#2]) = (0x1900#16, .bit (bitsOf "1001")) ∧
      ran .nrzDec (.level [0b01#2, 0b10#2]) = (0x1966#16, .none) := by decide +kernel

/-- R213's example. -/
theorem test_manEnc :
    ran .manEnc (.bit (bitsOf "10")) = (0x1A00#16, .level [0b01#2, 0b00#2, 0b00#2, 0b01#2]) := by decide +kernel

/-- R214's examples. -/
theorem test_manDec :
    ran .manDec (.level [0b01#2, 0b00#2, 0b00#2, 0b01#2]) = (0x1B00#16, .bit (bitsOf "10")) ∧
      ran .manDec (.level [0b01#2, 0b01#2]) = (0x1B66#16, .none) ∧
      ran .manDec (.level [0b00#2, 0b01#2, 0b00#2]) = (0x1B66#16, .none) ∧
      ran .manDec (.level [0b11#2, 0b01#2]) = (0x1B00#16, .bit (bitsOf "0")) := by decide +kernel

/-- R222's example. -/
theorem test_amiEnc :
    ran .amiEnc (.bit (bitsOf "1101")) = (0x1C00#16, .level [0b01#2, 0b11#2, 0b00#2, 0b01#2]) := by decide +kernel

/-- R223's examples. -/
theorem test_amiDec :
    ran .amiDec (.level [0b01#2, 0b11#2, 0b00#2, 0b01#2]) = (0x1D00#16, .bit (bitsOf "1101")) ∧
      ran .amiDec (.level [0b01#2, 0b01#2]) = (0x1D00#16, .bit (bitsOf "11")) := by decide +kernel

/-- R251's example: 200 samples, sample 1 is 0.125333..., the second window is all 0. -/
theorem test_askMod :
    let xs := samplesOf (ran (.askMod 0#2) (.level [0b01#2, 0b11#2])).2
    (xs.length = 200 ∧ xs.drop 100 = flat 100 0) ∧
      ((xs.getD 1 Sample.zero).order (Sample.ofRat (1253 / 10000)) = .gt ∧
        (Sample.ofRat (1254 / 10000)).order (xs.getD 1 Sample.zero) = .gt) := by decide +kernel

/-- R252: a mean of exactly A/2 or A/4 is in the dead zone. -/
theorem test_askDem :
    ran (.askDem 0#2) (.sample (flat 100 (1 / 2))) = (0x2176#16, .none) ∧
      ran (.askDem 0#2) (.sample (flat 100 (1 / 4))) = (0x2176#16, .none) ∧
      ran (.askDem 0#2) (.sample (flat 100 (-51 / 100) ++ flat 100 (24 / 100))) =
        (0x2100#16, .level [0b01#2, 0b11#2]) := by decide +kernel

/-- U9: a format that does not settle a tie may draw either outcome of it; here a mean of exactly A/2 is drawn as above. -/
theorem test_askDem_draw :
    let n : NumFormat Sample :=
      { NumFormat.exact with near := fun _ x y => x.order y == .eq, draw := fun _ _ _ => .gt }
    let t := askDemOn { Config.build with num := n } 0#2 (stateOf 0#16 (.sample (flat 100 (1 / 2))))
    t.status = 0x2100#16 ∧ t.out0 = .level [0b01#2] := by decide +kernel

/-- R256's example: LC = Manchester, sample 1 is 0.248690..., then 0.125333... -/
theorem test_fskMod :
    let xs := samplesOf (ran (.fskMod 1#2) (.level [0b01#2, 0b00#2])).2
    xs.length = 200 ∧ (xs.getD 1 Sample.zero).order (Sample.ofRat (2486 / 10000)) = .gt ∧
      (Sample.ofRat (2487 / 10000)).order (xs.getD 1 Sample.zero) = .gt ∧
      (Sample.ofRat (1254 / 10000)).order (xs.getD 101 Sample.zero) = .gt := by decide +kernel

/-- R257: an all-zero window has equal energies; samples 1 at k = 0 and 25 give e1 = 4 and e2 = 0 by hand. -/
theorem test_fskDem :
    ran (.fskDem 0#2) (.sample (flat 100 0)) = (0x2376#16, .none) ∧
      ran (.fskDem 2#2) (.sample (flat 1 1 ++ flat 24 0 ++ flat 1 1 ++ flat 74 0)) =
        (0x2300#16, .level [0b01#2]) := by decide +kernel

/-- R263's example: sample 1 is −0.250666...; a 0 with NRZ-Polar raises ConstellationError. -/
theorem test_qamMod :
    let xs := samplesOf (ran (.qamMod 0#2) (.level [0b01#2, 0b11#2, 0b01#2])).2
    xs.length = 100 ∧ (Sample.ofRat (-2506 / 10000)).order (xs.getD 1 Sample.zero) = .gt ∧
      (xs.getD 1 Sample.zero).order (Sample.ofRat (-2507 / 10000)) = .gt ∧
      ran (.qamMod 0#2) (.level [0b00#2]) = (0x2474#16, .none) := by decide +kernel

/-- R264 by hand: 75 at k = 0 gives (I, Q) = (0, 3/2), on the amplitude boundary; −25 gives (0, −1/2), accepted
with r2 = 1/4 as phase 3, amplitude 1, so presence bits 1, 1, 0. -/
theorem test_qamDem :
    ran (.qamDem 0#2) (.sample (flat 1 75 ++ flat 99 0)) = (0x2576#16, .none) ∧
      ran (.qamDem 0#2) (.sample (flat 1 (-25) ++ flat 99 0)) =
        (0x2500#16, .level [0b01#2, 0b01#2, 0b11#2]) := by decide +kernel

/-- R292's example. -/
theorem test_encode :
    let t := after .encode (stateOf 0x8004#16 (.byte [0x48#8, 0x69#8]))
    t.status = 0x3000#16 ∧ t.out0 = .bit (bitsOf "0011000000110000001100010011011001001000011010011") ∧
      t.out1 = .bit (bitsOf "0100100001101001") := by decide +kernel

/-- R293's examples: the 49 bits, and the same with bit 40 flipped. -/
theorem test_decode :
    ran .decode (.bit (bitsOf "0011000000110000001100010011011001001000011010011")) =
        (0x3100#16, .byte [0x48#8, 0x69#8]) ∧
      ran .decode (.bit (bitsOf "0011000000110000001100010011011001001000111010011")) = (0x3142#16, .none) := by
  decide +kernel

/-- R294: a bit 0 with NRZ-Polar and ASK is a window of 0. -/
theorem test_modulate : ran .modulate (.bit [false]) = (0x3200#16, .sample (flat 100 0)) := by decide +kernel

/-- R295: and back. -/
theorem test_demodulate :
    ran .demodulate (.sample (flat 100 0)) = (0x3300#16, .bit [false]) ∧
      ran .demodulate (.sample (flat 99 0)) = (0x3376#16, .none) := by decide +kernel

/-! ### Witnesses: a state and operands that meet the hypotheses of each statement, each clause at a boundary -/

/-- The build with MAX_LEN = n. -/
def bounded (n : Nat) : Params Sample := { Config.build with maxLen := some n }

/-- IN of a kind that a statement asks for. -/
theorem witness_input (sel : Word) (b : Buffer) : (stateOf sel b).inBuf = b := rfl

/-- For statements whose only hypothesis is the kind of IN (T2bWritesMostSignificantBitFirst, FrmByteEscapesMarkerBytes,
FrmBitStuffsFlagBytes, CrcEncAppendsTheRemainder, HamEncWritesCodewords, HamDecCorrectsBySyndrome,
LineEncodersEmitTheirLevels, AskModGatesTheCarrier, FskModSendsTwoTones): no element, a group and a tail, levels. -/
theorem witness_kinds :
    (stateOf 0#16 (.byte [])).inBuf = .byte [] ∧ (stateOf 0#16 (.bit [])).inBuf = .bit [] ∧
      (stateOf 0#16 (.bit (bitsOf "011111101"))).inBuf = .bit (bitsOf "011111101") ∧
      (stateOf 0#16 (.bit (bitsOf "1011001010110"))).inBuf = .bit (bitsOf "1011001010110") ∧
      (stateOf 0#16 (.level ([Level.pos, .neg].map Level.code))).inBuf = .level ([Level.pos, .neg].map Level.code) :=
  ⟨rfl, rfl, rfl, rfl, rfl⟩

theorem witness_DecodeInvertsEncode :
    (Instr.qamDem 2#2).wellFormed = true ∧ (Instr.setsel 3#2 3#2 3#2 3#2 3#2).wellFormed = true := by decide

theorem witness_EncodeInvertsDecode :
    decode 0x8080#16 = .ok (.askMod 2#2) ∧ decode 0x07FF#16 = .ok (.setsel 3#2 3#2 3#2 3#2 3#2) := by decide

theorem witness_RejectedWordsRaiseConfigurationError :
    { State.reset with host := [.command 0x0000#16] }.host = .command 0x0000#16 :: [] ∧
      RejectedWord 0x0000#16 ∧ RejectedWord 0xFC00#16 ∧ RejectedWord 0x1001#16 ∧ RejectedWord 0x80C0#16 ∧
      RejectedWord 0x8001#16 ∧ ¬ RejectedWord 0x07FF#16 ∧ ¬ RejectedWord 0x8080#16 := by
  refine ⟨rfl, ?_, ?_, ?_, ?_, ?_, ?_, ?_⟩ <;> unfold RejectedWord <;> decide

theorem witness_StepRunsDecodedCommand :
    { State.reset with host := [.command 0x1000#16, .reset] }.host = .command 0x1000#16 :: [.reset] ∧
      decode 0x1000#16 = .ok .t2b ∧ Instr.t2b.wellFormed = true ∧
      { State.reset with host := [.command (encode .t2b)] }.host = .command (encode .t2b) :: [] :=
  ⟨rfl, by decide, rfl, rfl⟩

theorem witness_ResetClearsEveryRegister :
    { stateOf 0x8004#16 (.bit [true]) with host := [.reset] }.host = .reset :: [] ∧ State.reset.host = [] := ⟨rfl, rfl⟩

theorem witness_HostLoadReplacesInOrIsRefused :
    { State.reset with host := [.load 1#3 [.bit true]] }.host = .load 1#3 [.bit true] :: [] ∧
      ((1#3 ≤ 1#3 ∧ 1#3 ≤ 4#3) ∧ ∀ e ∈ [Element.bit true], e.OfKind Config.build 1#3) ∧
      ((1#3 ≤ 4#3 ∧ 4#3 ≤ 4#3) ∧ ∀ e ∈ [Element.sample Sample.zero], e.OfKind Config.build 4#3) ∧
      ¬ (1#3 ≤ 0#3) ∧ ¬ (5#3 ≤ 4#3) ∧ ¬ ∀ e ∈ [Element.bit true], e.OfKind Config.build 2#3 := by
  simp only [Element.OfKind, List.mem_singleton, forall_eq, true_and]
  exact ⟨by decide, ⟨by decide, decide_eq_true zero_canonical⟩, by decide, by decide, by decide⟩

/-- With MAX_LEN = 2 a load of two bits is taken and one of three is not; an unbounded build takes it. -/
theorem witness_HostLoad_bounded :
    LoadTaken (bounded 2) 1#3 [.bit true, .bit false] ∧ ¬ LoadTaken (bounded 2) 1#3 [.bit true, .bit false, .bit true] ∧
      LoadTaken Config.build 1#3 [.bit true, .bit false, .bit true] := by
  refine ⟨⟨by decide, by decide, ?_, fun n h => ?_⟩, fun h => ?_, by decide, by decide, ?_, fun n h => ?_⟩
  · simp [Element.OfKind]
  · cases h; decide
  · have := h.2.2.2 2 rfl
    simp at this
  · simp [Element.OfKind]
  · cases h

theorem witness_SetselLoadsLegalSelectorsOnly :
    (2#2 : Code) ≤ 2#2 ∧ ¬ ((2#2 : Code) = 3#2 ∨ (2#2 : Code) = 3#2 ∨ (2#2 : Code) ≤ 1#2 ∨
      (2#2 : Code) = 3#2 ∨ (2#2 : Code) = 3#2) := by decide

theorem witness_XferMovesOut0ToIn :
    State.reset.out0 = .none ∧ { State.reset with out0 := Buffer.bit [] }.out0 ≠ .none := by decide +kernel

theorem msbFirst_bytebits (b : Byte) : MsbFirst [b] (bytebits b) := by
  refine ⟨rfl, fun i j hj => ?_⟩
  rcases i with _ | i
  · rcases j with _ | _ | _ | _ | _ | _ | _ | _ | j <;> first | rfl | omega
  · rw [List.getElem?_eq_none (by simp; omega), List.getElem?_eq_none (by simp)]; rfl

theorem utf8_one_byte : Utf8Text [0x7F#8] := by
  refine ⟨[[0x7F#8]], rfl, fun part h => ⟨[(0x00#8, 0x7F#8)], by simp [utf8Patterns], ?_⟩⟩
  obtain rfl := List.mem_singleton.1 h
  exact .cons (by decide) .nil

theorem not_utf8_continuation : ¬ Utf8Text [0x80#8] := by
  rintro ⟨parts, hp, h⟩
  have hm : (0x80#8 : Byte) ∈ parts.flatten := by simp [hp]
  obtain ⟨part, hpart, hb⟩ := List.mem_flatten.1 hm
  have hlen : part.length ≤ 1 := by
    have := (List.sublist_flatten_of_mem hpart).length_le
    simpa [hp] using this
  have he : part = [0x80#8] := by
    match part, hb, hlen with
    | [x], hb, _ => rw [List.mem_singleton.1 hb]
  subst he
  obtain ⟨row, hrow, hf⟩ := h _ hpart
  match row, hf with
  | [r], .cons hr .nil =>
    simp only [utf8Patterns, List.mem_cons, List.cons.injEq, List.not_mem_nil, or_false, and_false, reduceCtorEq,
      and_true] at hrow
    subst hrow
    exact absurd hr (by decide)

/-- 7 bits; 8 bits of text; 8 bits of no text (for B2tInvertsT2bOnText too). -/
theorem witness_B2tReadsWellFormedTextOnly :
    (bitsOf "0111111").length % 8 ≠ 0 ∧ (bytebits 0x7F#8).length % 8 = 0 ∧
      (MsbFirst [0x7F#8] (bytebits 0x7F#8) ∧ Utf8Text [0x7F#8]) ∧
      MsbFirst [0x80#8] (bytebits 0x80#8) ∧ ¬ Utf8Text [0x80#8] :=
  ⟨by decide, by decide, ⟨msbFirst_bytebits _, utf8_one_byte⟩, msbFirst_bytebits _, not_utf8_continuation⟩

/-- The empty text, and a continuation byte, which no text begins with. -/
theorem witness_B2tAcceptsExactlyUnicodeText :
    (MsbFirst [0x7F#8] (bytebits 0x7F#8) ∧ (stateOf 0#16 (.bit (bytebits 0x7F#8))).inBuf = .bit (bytebits 0x7F#8) ∧
      ∃ text : List Char, [0x7F#8] = (text.flatMap String.utf8EncodeChar).map UInt8.toBitVec) ∧
    MsbFirst [0x80#8] (bytebits 0x80#8) ∧
      ¬ ∃ text : List Char, [0x80#8] = (text.flatMap String.utf8EncodeChar).map UInt8.toBitVec := by
  refine ⟨⟨msbFirst_bytebits _, rfl, [Char.ofNat 127], by decide +kernel⟩, msbFirst_bytebits _, ?_⟩
  rintro ⟨text, h⟩
  cases text with
  | nil => simp at h
  | cons c t =>
    rw [List.flatMap_cons] at h
    unfold String.utf8EncodeChar at h
    simp only at h
    split_ifs at h with hv
    · have hn := congrArg (fun l => (l.head?.map BitVec.toNat)) h
      simp at hn
      have : c.toNat = c.val.toNat := rfl
      omega
    all_goals simp at h

theorem witness_FrmLpPrependsTheDecimalLength :
    10000 ≤ (List.replicate 10000 true).length ∧ (List.replicate 9999 true).length < 10000 := by
  simp only [List.length_replicate]; omega

/-- The frame of the empty payload, and 31 bits, which hold no four digits. -/
theorem witness_DfrLpAcceptsExactlyItsFrames :
    LengthFramed (bitsOf "00110000 00110000 00110000 00110000") [] ∧
      ¬ ∃ payload, LengthFramed (List.replicate 31 false) payload := by
  constructor
  · refine ⟨0, 0, 0, 0, by decide, by decide, by decide, by decide, rfl,
      bitsOf "00110000 00110000 00110000 00110000", ⟨rfl, fun i j hj => ?_⟩, (List.append_nil _).symm⟩
    rcases i with _ | _ | _ | _ | i
    iterate 4 (rcases j with _ | _ | _ | _ | _ | _ | _ | _ | j <;> first | decide | omega)
    rw [List.getElem?_eq_none, List.getElem?_eq_none] <;> (simp [bitsOf]; try omega)
  · rintro ⟨payload, d3, d2, d1, d0, -, -, -, -, -, digits, ⟨hd, -⟩, hf⟩
    have := congrArg List.length hf
    simp at this hd
    omega

theorem witness_FixedLengthPrefixRoundTrips :
    Config.build.lpMode = .fixed ∧ Config.build.maxLen = none ∧
      (List.replicate 9999 true).length < 10 ^ Config.build.lpDigits := by
  refine ⟨rfl, rfl, ?_⟩; simp only [List.length_replicate]; norm_num [Config.build]

/-- 100 bits; 8 bits that are the digit 0; 99 bits; the 8 bits 0x2F, which are no digit. -/
theorem witness_ReferencePrefixRoundTripFailsExactly :
    { Config.build with lpMode := .reference }.lpMode = .reference ∧
      { Config.build with lpMode := .reference }.maxLen = none ∧
      ReferenceFails (List.replicate 100 false) ∧ ReferenceFails (bytebits 0x30#8) ∧
      ¬ ReferenceFails (List.replicate 99 false) ∧ ¬ ReferenceFails (bytebits 0x2F#8) := by
  refine ⟨rfl, rfl, .inl (by simp), .inr ⟨.inl rfl, 0, by decide, msbFirst_bytebits _⟩, ?_, ?_⟩
  · rintro (h | ⟨h, -⟩) <;> simp at h
  · rintro (h | ⟨-, d, hd, -, hm⟩)
    · simp at h
    · have h7 := hm 0 7 (by omega)
      have h4 := hm 0 4 (by omega)
      have h5 := hm 0 5 (by omega)
      have h3 := hm 0 3 (by omega)
      interval_cases d <;> revert h7 h4 h5 h3 <;> decide

/-- 15 bits; the empty frame; its body escapes nothing; a body that is a dangling ESC. -/
theorem witness_DfrByteRemovesEachEscape :
    BadMarkers (List.replicate 15 true) ∧ ¬ BadMarkers (flagPattern ++ [] ++ flagPattern) ∧ Unescapes [] [] ∧
      ¬ BadMarkers (flagPattern ++ escPattern ++ flagPattern) ∧ ¬ ∃ payload, Unescapes escPattern payload := by
  refine ⟨.inl (by simp), by unfold BadMarkers; decide, .tail [] (by simp), by unfold BadMarkers; decide, ?_⟩
  rintro ⟨payload, h⟩
  generalize hb : escPattern = body at h
  cases h with
  | tail _ ht => subst hb; simp [escPattern] at ht
  | escaped b rest out hlen _ =>
    have := congrArg List.length hb
    simp [escPattern, hlen] at this
  | byte b rest out hlen hne _ =>
    have hr : rest = [] := by
      have := congrArg List.length hb
      simp [escPattern, hlen] at this
      exact this
    subst hr
    exact hne (by simpa using hb.symm)

theorem witness_DfrBitUnstuffsAtTheCursor :
    BadMarkers (List.replicate 15 true) ∧ ¬ BadMarkers (flagPattern ++ flagPattern) := by
  refine ⟨.inl (by simp), by unfold BadMarkers; decide⟩

/-- The empty sequence; one 1; one 0. -/
theorem witness_ParityKeepsTheSumEven :
    (([] : List Bit) = [] ∨ ([] : List Bit).count true % 2 = 1) ∧ [true].count true % 2 = 1 ∧
      [false] ≠ [] ∧ [false].count true % 2 = 0 := by decide

/-- On the output 11 of PAR_ENC: one flip, and no flip. -/
theorem witness_ParityDetectsOddFlipsOnly :
    ran .parEnc (.bit [true]) = (0x1000#16, .bit [true, true]) ∧
      [true, false].length = [true, true].length ∧ [true, false].count true % 2 = 1 ∧
      [false, false].length = [true, true].length ∧ [false, false].count true % 2 = 0 := by decide +kernel

theorem witness_CrcRemainderIsPolynomialRemainder : 3 ≤ [true, false, false].length := by decide

/-- 2 bits; 3 bits that the generator does not divide; 3 zeros; the generator itself. -/
theorem witness_CrcDecAcceptsExactlyMultiples :
    [true, true].length < 3 ∧ ¬ crcPolynomial ∣ bitPolynomial [false, false, true] ∧
      (3 ≤ [false, false, false].length ∧ crcPolynomial ∣ bitPolynomial [false, false, false]) ∧
      crcPolynomial ∣ bitPolynomial [true, true, false, true] := by
  refine ⟨by decide, ?_, ⟨by decide, by simp [bitPolynomial]⟩, ?_⟩
  · intro h
    have h1 : bitPolynomial [false, false, true] = 1 := by simp [bitPolynomial]
    rw [h1] at h
    have hd : crcPolynomial.natDegree = 3 := by unfold crcPolynomial; compute_degree!
    have hu := Polynomial.natDegree_eq_zero_of_isUnit (isUnit_of_dvd_one h)
    omega
  · have : bitPolynomial [true, true, false, true] = crcPolynomial := by
      simp [bitPolynomial, crcPolynomial]; ring
    rw [this]

/-- The last bit of CRC_ENC's output on the empty sequence. -/
theorem witness_CrcDetectsEverySingleFlip :
    ran .crcEnc (.bit []) = (0x1200#16, .bit [false, false, false]) ∧ 2 < [false, false, false].length := by
  decide +kernel

/-- One flip in the last position of the only group. -/
theorem witness_HammingCorrectsOneFlipPerGroup :
    (List.replicate 11 false ++ [true]).length = 12 ∧ OneFlipPerGroup (List.replicate 11 false ++ [true]) := by
  refine ⟨rfl, fun i hi => ?_, by decide⟩
  rcases i with _ | i
  · decide
  · simp [slice] at hi

theorem witness_HammingMiscorrectsTwoFlips :
    (bitsOf "10110010").length = 8 ∧ 0 < 11 ∧ 11 < 12 := by decide

/-- No reserved code; a reserved code. -/
theorem witness_NrzAndAmiDecodersReadLevels :
    (stateOf 0#16 (.level [0b11#2])).inBuf = .level [0b11#2] ∧ 0b10#2 ∉ [(0b11#2 : LevelCode)] ∧
      0b10#2 ∈ [(0b10#2 : LevelCode)] := by decide +kernel

/-- One level; a flat pair; a falling pair. -/
theorem witness_ManDecReadsTransitions :
    0b10#2 ∉ [(0b01#2 : LevelCode)] ∧ [(0b01#2 : LevelCode)].length % 2 = 1 ∧
      (∃ j c, [(0b01#2 : LevelCode), 0b01#2][2 * j]? = some c ∧ [(0b01#2 : LevelCode), 0b01#2][2 * j + 1]? = some c) ∧
      [(0b01#2 : LevelCode), 0b00#2].length % 2 = 0 ∧
      ∀ j c, [(0b01#2 : LevelCode), 0b00#2][2 * j]? = some c → [(0b01#2 : LevelCode), 0b00#2][2 * j + 1]? ≠ some c := by
  refine ⟨by decide, by decide, ⟨0, _, rfl, rfl⟩, by decide, fun j c h => ?_⟩
  rcases j with _ | j
  · simp at h; subst h; decide
  · rw [List.getElem?_eq_none (by simp)] at h; cases h

theorem witness_ReservedLevelRaisesSignalError :
    (stateOf 0#16 (.level [0b00#2, 0b10#2])).inBuf = .level [0b00#2, 0b10#2] ∧
      0b10#2 ∈ [(0b00#2 : LevelCode), 0b10#2] := by decide +kernel

/-- A level outside the alphabet; levels inside it. -/
theorem witness_QamModSendsTheConstellation :
    (∃ l ∈ [Level.zero], l ∉ alphabet .nrz) ∧ ∀ l ∈ [Level.neg, .pos], l ∈ alphabet .nrz := by decide

/-- Every entry off by exactly 0.01, and the exact table; three levels and one level for 8-QAM. -/
theorem witness_SineTableMarginKeepsEveryDecision :
    (∀ m : Fin 100, |((SINTAB m).add (Sample.ofRat (1 / 100))).toReal - Real.sin (angle m)| ≤ 0.01) ∧
      (∀ m : Fin 100, |(SINTAB m).toReal - Real.sin (angle m)| ≤ 0.01) ∧
      (∀ l ∈ [Level.pos, .neg, .pos], l ∈ alphabet .nrz) ∧ (∀ l ∈ [Level.neg], l ∈ alphabet .ami) ∧
      carrierOn .ami .neg = true ∧ carrierOn .nrz .neg = false := by
  refine ⟨fun m => ?_, fun m => ?_, by decide, by decide, rfl, rfl⟩ <;>
    simp only [SINTAB, toReal_add, toReal_SIN, toReal_ofRat] <;> norm_num

/-- One sample too few for a window (the demodulators' partial-window clauses). -/
theorem flat_partial : (flat 99 0).length % 100 ≠ 0 := by simp [flat]

theorem realMeanAbs_flat (q : Rat) : realMeanAbs (flat 100 q) = |(q : ℝ)| := by
  unfold realMeanAbs flat
  rw [List.map_replicate, List.sum_replicate, toReal_ofRat]
  simp

theorem slice_flat (q : Rat) : slice (flat 100 q) (100 * 0) 100 = flat 100 q := by simp [slice, flat]

/-- One window of mean 1/4, one of mean 1/2, one of mean 0. -/
theorem witness_AskDemClassifiesByMeanAmplitude :
    (flat 99 0).length % 100 ≠ 0 ∧ (flat 100 (1 / 4)).length % 100 = 0 ∧
      (∃ i < (flat 100 (1 / 4)).length / 100, 1 / 4 ≤ realMeanAbs (slice (flat 100 (1 / 4)) (100 * i) 100) ∧
        realMeanAbs (slice (flat 100 (1 / 4)) (100 * i) 100) ≤ 1 / 2) ∧
      (∃ i < (flat 100 (1 / 2)).length / 100, 1 / 4 ≤ realMeanAbs (slice (flat 100 (1 / 2)) (100 * i) 100) ∧
        realMeanAbs (slice (flat 100 (1 / 2)) (100 * i) 100) ≤ 1 / 2) ∧
      ∀ i < (flat 100 0).length / 100, realMeanAbs (slice (flat 100 0) (100 * i) 100) < 1 / 4 ∨
        1 / 2 < realMeanAbs (slice (flat 100 0) (100 * i) 100) := by
  refine ⟨flat_partial, by simp [flat], ⟨0, by simp [flat], ?_⟩, ⟨0, by simp [flat], ?_⟩, fun i hi => ?_⟩
  · rw [slice_flat, realMeanAbs_flat]; norm_num
  · rw [slice_flat, realMeanAbs_flat]; norm_num
  · have : i = 0 := by simp [flat] at hi; exact hi
    subst this
    left; rw [slice_flat, realMeanAbs_flat]; norm_num

/-- 1 at k = 0 and k = 25, else 0: energy 4 at frequency 4, 0 at frequency 2, by hand. -/
def highTone : List Sample := flat 1 1 ++ flat 24 0 ++ flat 1 1 ++ flat 74 0

/-- An all-zero window; a window whose energies differ. -/
theorem witness_FskDemPicksTheHigherEnergy :
    ((flat 100 0).length % 100 = 0 ∧ ∃ i < (flat 100 0).length / 100,
        realEnergy 4 (slice (flat 100 0) (100 * i) 100) = realEnergy 2 (slice (flat 100 0) (100 * i) 100)) ∧
      highTone.length % 100 = 0 ∧ ∀ i < highTone.length / 100,
        realEnergy 4 (slice highTone (100 * i) 100) ≠ realEnergy 2 (slice highTone (100 * i) 100) := by
  refine ⟨⟨by simp [flat], 0, by simp [flat], ?_⟩, by simp [highTone, flat], fun i hi => ?_⟩
  · have : (energy Config.build 4 (flat 100 0)).sub (energy Config.build 2 (flat 100 0)) = Sample.zero := by decide +kernel
    have h := congrArg Sample.toReal this
    rw [toReal_sub, build_energy, build_energy, toReal_zero] at h
    rw [slice_flat]; linarith
  · have : i = 0 := by simp [highTone, flat] at hi; exact hi
    subst this
    have h : (energy Config.build 4 highTone).order (energy Config.build 2 highTone) = .gt := by decide +kernel
    rw [order_eq, build_energy, build_energy, cmp_eq_gt_iff] at h
    have hs : slice highTone (100 * 0) 100 = highTone := by simp [slice, highTone, flat]
    rw [hs]; exact h.ne'

/-- A window of one value `c` at k = 0: I = 0 and Q = c/50, by hand. -/
def impulse (c : Rat) : List Sample := flat 1 c ++ flat 99 0

/-- r2 = 9/4 exactly; r2 = 1/4 exactly. -/
theorem witness_QamDemDecidesByComponents :
    ((impulse 75).length % 100 = 0 ∧ ∃ i < (impulse 75).length / 100, QamRejects (slice (impulse 75) (100 * i) 100)) ∧
      (impulse 25).length % 100 = 0 ∧
      ∀ i < (impulse 25).length / 100, ¬ QamRejects (slice (impulse 25) (100 * i) 100) := by
  have hs : ∀ c, slice (impulse c) (100 * 0) 100 = impulse c := fun c => by simp [slice, impulse, flat]
  refine ⟨⟨by simp [impulse, flat], 0, by simp [impulse, flat], ?_⟩, by simp [impulse, flat], fun i hi => ?_⟩
  · rw [hs]
    rcases qamDecide_cases (impulse 75) with ⟨h, -⟩ | ⟨-, b0, b1, b2, -, h⟩
    · exact h
    · have : (qamDecide Config.build (impulse 75)).isOk = false := by decide +kernel
      rw [h] at this; cases this
  · have : i = 0 := by simp [impulse, flat] at hi; exact hi
    subst this
    rw [hs]
    rcases qamDecide_cases (impulse 25) with ⟨-, h⟩ | ⟨h, -⟩
    · have : (qamDecide Config.build (impulse 25)).isOk = true := by decide +kernel
      rw [h] at this; cases this
    · exact h

theorem witness_AskAndFskRoundTrip : Carrier.ask = .ask ∨ Carrier.ask = .fsk := .inl rfl

theorem witness_ComposedCommandsNeedValidSelectors :
    State.reset.sel.getLsbD 15 = false ∧ (stateOf 0x7FFF#16 (.byte [])).sel.getLsbD 15 = false := by decide +kernel

theorem selects_reset_codes (b : Buffer) :
    (stateOf 0x8000#16 b).Selects ⟨.lengthPrefix, .none, .none, .nrz, .ask⟩ := by
  unfold State.Selects
  rw [show (stateOf 0x8000#16 b).sel = 0x8000#16 from rfl]
  decide

theorem selects_highest_codes (b : Buffer) :
    (stateOf 0x829A#16 b).Selects ⟨.bitStuffing, .crc, .hamming, .ami, .qam⟩ := by
  unfold State.Selects
  rw [show (stateOf 0x829A#16 b).sel = 0x829A#16 from rfl]
  decide

/-- 10000 raw bits with length-prefix; 9992; any length with another framing. -/
theorem witness_EncodeRunsItsStagesInOrder :
    (stateOf 0x8000#16 (.byte (List.replicate 1250 0x41#8))).Selects ⟨.lengthPrefix, .none, .none, .nrz, .ask⟩ ∧
      10000 ≤ 8 * (List.replicate 1250 0x41#8).length ∧ 8 * (List.replicate 1249 0x41#8).length < 10000 ∧
      (stateOf 0x829A#16 (.byte [])).Selects ⟨.bitStuffing, .crc, .hamming, .ami, .qam⟩ ∧
      Framing.bitStuffing ≠ .lengthPrefix := by
  refine ⟨selects_reset_codes _, ?_, ?_, selects_highest_codes _, by decide⟩ <;>
    simp only [List.length_replicate, Nat.reduceMul, Nat.reduceLeDiff, Nat.reduceLT]

/-- The length-framed empty text, and any other selection and bits. -/
theorem witness_DecodeRunsItsStagesInOrder :
    (stateOf 0x829A#16 (.bit [])).Selects ⟨.bitStuffing, .crc, .hamming, .ami, .qam⟩ ∧
      (stateOf 0x8000#16 (.bit (bitsOf "00110000 00110000 00110000 00110000"))).Selects
        ⟨.lengthPrefix, .none, .none, .nrz, .ask⟩ ∧
      LengthFramed (bitsOf "00110000 00110000 00110000 00110000") [] ∧ MsbFirst [] [] ∧ Utf8Text [] :=
  ⟨selects_highest_codes _, selects_reset_codes _, witness_DfrLpAcceptsExactlyItsFrames.1,
    ⟨rfl, fun i j _ => by simp⟩, [], rfl, by simp⟩

/-- Any bits or samples with any selection; with ASK and NRZ-Polar one window of mean 0. -/
theorem witness_PhysicalLayerRunsItsStagesInOrder :
    (stateOf 0x829A#16 (.sample [Sample.zero])).Selects ⟨.bitStuffing, .crc, .hamming, .ami, .qam⟩ ∧
      (stateOf 0x8000#16 (.sample (flat 100 0))).Selects ⟨.lengthPrefix, .none, .none, .nrz, .ask⟩ ∧
      (stateOf 0x8000#16 (.sample (flat 100 0))).inBuf = .sample (flat 100 0) ∧
      (flat 100 0).length % 100 = 0 ∧ LineCode.nrz ≠ .man ∧
      ∀ i < (flat 100 0).length / 100, realMeanAbs (slice (flat 100 0) (100 * i) 100) < 1 / 4 ∨
        1 / 2 < realMeanAbs (slice (flat 100 0) (100 * i) 100) := by
  exact ⟨selects_highest_codes _, selects_reset_codes _, rfl, by simp [flat], by decide,
    witness_AskDemClassifiesByMeanAmplitude.2.2.2.2⟩

theorem witness_PipelineRoundTrips :
    Utf8Text [0x7F#8] ∧ 8 * [(0x7F#8 : Byte)].length < 10000 ∧
      (stateOf 0x829A#16 (.byte [0x7F#8])).Selects ⟨.bitStuffing, .crc, .hamming, .ami, .qam⟩ ∧
      (after .encode (stateOf 0x8000#16 (.byte [0x7F#8]))).out0 =
        .bit (bitsOf "00110000001100000011000000111000 01111111") ∧
      Carrier.ask ≠ .qam :=
  ⟨utf8_one_byte, by decide, selects_highest_codes _, by decide +kernel, by decide⟩

/-- With byte-stuffing the empty text makes 16 coded bits: 16 levels with AMI, 32 with Manchester. -/
theorem witness_QamPaddingBreaksTheRoundTrip :
    (Utf8Text [] ∧ 8 * ([] : List Byte).length < 10000) ∧
      (stateOf 0x8281#16 (.byte [])).Selects ⟨.byteStuffing, .none, .none, .ami, .qam⟩ ∧
      (stateOf 0x8241#16 (.byte [])).Selects ⟨.byteStuffing, .none, .none, .man, .qam⟩ ∧
      (after .encode (stateOf 0x8281#16 (.byte []))).out0 = .bit (flagPattern ++ flagPattern) ∧
      2 * (flagPattern ++ flagPattern).length % 3 ≠ 0 ∧ (flagPattern ++ flagPattern).length % 3 ≠ 0 := by
  refine ⟨⟨⟨[], rfl, by simp⟩, by decide⟩, ?_, ?_, by decide +kernel, by decide, by decide⟩ <;>
    refine ⟨?_, ?_, ?_, ?_, ?_, ?_⟩ <;> decide +kernel

/-- A composed command in states that agree on SEL; XFER in states that agree on OUT0; T2B in states that agree on
neither. -/
theorem witness_CommandsReadOnlyTheirOperands :
    Instr.encode.composed = true ∧ Instr.t2b.composed = false ∧
      (stateOf 0x8000#16 (.byte [])).inBuf = (stateOf 0x0000#16 (.byte [])).inBuf ∧
      (stateOf 0x8000#16 (.byte [])).sel ≠ (stateOf 0x0000#16 (.byte [])).sel ∧ Instr.setsel 0#2 0#2 0#2 0#2 0#2 ≠ .xfer := by
  decide +kernel

theorem witness_WrongInputKindRaises :
    Instr.t2b.inKind = some 2#3 ∧ State.reset.inBuf.kind ≠ 2#3 ∧
      (Instr.qamDem 2#2).inKind = some 4#3 ∧ (stateOf 0#16 (.level [])).inBuf.kind ≠ 4#3 := by decide +kernel

/-- With MAX_LEN = 8: one byte fits, two do not, and one bit raises anyway. ENCODE of one byte, a frame of 40 bits: with
MAX_LEN = 40 it succeeds, with 39 the framing stage raises, with 7 the codec. -/
theorem witness_CapacityLimitsEachStageOutput :
    (stageCode .t2b = some 2#4 ∧ stageCode (.qamDem 2#2) = some 7#4) ∧
      ((commandOn Config.build .t2b (stateOf 0#16 (.byte [0x41#8]))).status = 0x0400#16 ∧
        (commandOn Config.build .t2b (stateOf 0#16 (.byte [0x41#8]))).out0.elements.length = 8 ∧
        8 < (commandOn Config.build .t2b (stateOf 0#16 (.byte [0x41#8, 0x42#8]))).out0.elements.length ∧
        statusErr (commandOn Config.build .b2t (stateOf 0#16 (.bit [true]))).status ≠ 0#4) ∧
      (stateOf 0x8000#16 (.byte [0x41#8])).Selects ⟨.lengthPrefix, .none, .none, .nrz, .ask⟩ ∧
      composedStages ⟨.lengthPrefix, .none, .none, .nrz, .ask⟩ .encode = some [.t2b, .frmLp] ∧
      (stagesOn (bounded 40) [.t2b, .frmLp] (.byte [0x41#8])).isOk = true ∧
      stagesOn (bounded 39) [.t2b, .frmLp] (.byte [0x41#8]) = .error 0x37#8 ∧
      stagesOn (bounded 7) [.t2b, .frmLp] (.byte [0x41#8]) = .error 0x27#8 :=
  ⟨by decide, by decide +kernel, selects_reset_codes _, rfl, by decide +kernel, by decide +kernel, by decide +kernel⟩

/-- A legal state that is not the state after reset: SEL valid, an error in STATUS, a host action pending. -/
theorem witness_StepKeepsLegalStates :
    State.Legal { stateOf 0x829A#16 (.level [0b10#2]) with status := 0x1966#16, host := [.command 0x6400#16] } := by
  refine ⟨.inr ?_, ?_, ?_, trivial, trivial, .inl rfl⟩
  · decide +kernel
  · unfold State.StatusLegal; decide +kernel
  · exact fun _ => ⟨rfl, rfl⟩

end Sys2Proof.Tests
end

section
/-!
SUPPORT. What HostLoad does (10_state.md R29): a load is read element by element, `loadBuffer` answers exactly on a
real kind whose elements are all of its type, and `State.hostLoad` adds the bound of R30.
-/

namespace Sys2Proof.Machine

variable {p : Params Sample} {kind : BitVec 3} {e : Element} {seq : List Element} {b : Buffer} {s : State}

/-! ### The kinds -/

/-- The kinds a load may have (10_state.md R27). -/
theorem real_kind_cases (h1 : 1#3 ≤ kind) (h4 : kind ≤ 4#3) :
    kind = 1#3 ∨ kind = 2#3 ∨ kind = 3#3 ∨ kind = 4#3 := by
  revert kind; decide

@[simp] theorem loadBuffer_bit : loadBuffer p 1#3 seq = (loadBits seq).map .bit := rfl
@[simp] theorem loadBuffer_byte : loadBuffer p 2#3 seq = (loadBytes seq).map .byte := rfl
@[simp] theorem loadBuffer_level : loadBuffer p 3#3 seq = (loadLevels seq).map .level := rfl
@[simp] theorem loadBuffer_sample : loadBuffer p 4#3 seq = (loadSamples p seq).map .sample := rfl

/-- Kind NONE and the reserved kinds cannot be loaded (10_state.md R27, R29). -/
theorem loadBuffer_of_not_real_kind (h : ¬ (1#3 ≤ kind ∧ kind ≤ 4#3)) : loadBuffer p kind seq = none := by
  have hk : kind = 0#3 ∨ kind = 5#3 ∨ kind = 6#3 ∨ kind = 7#3 := by revert kind; decide
  rcases hk with rfl | rfl | rfl | rfl <;> rfl

/-! ### One element more -/

/-- The buffer with one element more at the front, when the element is of the buffer's kind. -/
def Buffer.push : Element → Buffer → Buffer
  | .bit x, .bit xs => .bit (x :: xs)
  | .byte x, .byte xs => .byte (x :: xs)
  | .level x, .level xs => .level (x :: xs)
  | .sample x, .sample xs => .sample (x :: xs)
  | _, b => b

@[simp] theorem push_kind : (b.push e).kind = b.kind := by
  cases e <;> cases b <;> rfl

theorem push_elements (h : e.OfKind p b.kind) : (b.push e).elements = e :: b.elements := by
  cases e with
  | bit x => obtain ⟨xs, rfl⟩ := kind_eq_one h; rfl
  | byte x => obtain ⟨xs, rfl⟩ := kind_eq_two h; rfl
  | level c => obtain ⟨xs, rfl⟩ := kind_eq_three h; rfl
  | sample x => obtain ⟨xs, rfl⟩ := kind_eq_four h.1; rfl

/-- An empty load of a real kind is the empty sequence of that kind, distinct from NONE (10_state.md R27). -/
theorem loadBuffer_nil (h1 : 1#3 ≤ kind) (h4 : kind ≤ 4#3) :
    ∃ b : Buffer, loadBuffer p kind [] = some b ∧ b.kind = kind ∧ b.elements = [] := by
  rcases real_kind_cases h1 h4 with rfl | rfl | rfl | rfl
  · exact ⟨.bit [], rfl, rfl, rfl⟩
  · exact ⟨.byte [], rfl, rfl, rfl⟩
  · exact ⟨.level [], rfl, rfl, rfl⟩
  · exact ⟨.sample [], rfl, rfl, rfl⟩

/-- An element of the load's kind goes in front of what the rest loads. -/
theorem loadBuffer_cons_of_kind (h : e.OfKind p kind) :
    loadBuffer p kind (e :: seq) = (loadBuffer p kind seq).map (Buffer.push e) := by
  cases e with
  | bit x => obtain rfl := h; cases hl : loadBits seq <;> simp [loadBits, hl, Buffer.push]
  | byte x => obtain rfl := h; cases hl : loadBytes seq <;> simp [loadBytes, hl, Buffer.push]
  | level c => obtain rfl := h; cases hl : loadLevels seq <;> simp [loadLevels, hl, Buffer.push]
  | sample x =>
    obtain ⟨rfl, hx⟩ := h
    cases hl : loadSamples p seq <;> simp [loadSamples, hl, hx, Buffer.push]

/-- An element of another type refuses the whole load (10_state.md R29). -/
theorem loadBuffer_cons_of_not_kind (h : ¬ e.OfKind p kind) : loadBuffer p kind (e :: seq) = none := by
  by_cases hr : 1#3 ≤ kind ∧ kind ≤ 4#3
  · rcases real_kind_cases hr.1 hr.2 with rfl | rfl | rfl | rfl
    · cases e <;> simp_all [Element.OfKind, loadBits]
    · cases e <;> simp_all [Element.OfKind, loadBytes]
    · cases e <;> simp_all [Element.OfKind, loadLevels]
    · cases e <;> simp_all [Element.OfKind, loadSamples]
  · exact loadBuffer_of_not_real_kind hr

/-! ### The whole load -/

/-- A sequence of a real kind loads as that kind and that sequence (10_state.md R29). -/
theorem loadBuffer_of_kind (h1 : 1#3 ≤ kind) (h4 : kind ≤ 4#3) (hseq : ∀ e ∈ seq, e.OfKind p kind) :
    ∃ b : Buffer, loadBuffer p kind seq = some b ∧ b.kind = kind ∧ b.elements = seq := by
  induction seq with
  | nil => exact loadBuffer_nil h1 h4
  | cons e t ih =>
    obtain ⟨he, ht⟩ := List.forall_mem_cons.1 hseq
    obtain ⟨b, hload, rfl, rfl⟩ := ih ht
    exact ⟨b.push e, by rw [loadBuffer_cons_of_kind he, hload, Option.map_some], push_kind, push_elements he⟩

/-- Nothing else loads (10_state.md R29). -/
theorem kind_of_loadBuffer (h : loadBuffer p kind seq = some b) :
    1#3 ≤ kind ∧ kind ≤ 4#3 ∧ ∀ e ∈ seq, e.OfKind p kind := by
  have hreal : 1#3 ≤ kind ∧ kind ≤ 4#3 := by
    by_contra hn
    simp [loadBuffer_of_not_real_kind hn] at h
  refine ⟨hreal.1, hreal.2, ?_⟩
  induction seq generalizing b with
  | nil => simp
  | cons e t ih =>
    have he : e.OfKind p kind := by
      by_contra hn
      simp [loadBuffer_cons_of_not_kind hn] at h
    rw [loadBuffer_cons_of_kind he] at h
    obtain ⟨b', ht, -⟩ := Option.map_eq_some_iff.1 h
    exact List.forall_mem_cons.2 ⟨he, ih ht⟩

/-! ### HostLoad -/

/-- A buffer holds `n` elements when MAX_LEN, if there is one, is at least `n` (10_state.md R30). -/
theorem fits_iff {ν : Type} {p : Params ν} {n : Nat} : fits p n = true ↔ ∀ m, p.maxLen = some m → n ≤ m := by
  unfold fits
  cases p.maxLen <;> simp

theorem hostLoad_of_taken (h : LoadTaken p kind seq) :
    ∃ b : Buffer, b.kind = kind ∧ b.elements = seq ∧ s.hostLoad p kind seq = { s with inBuf := b } := by
  obtain ⟨h1, h4, hseq, hlen⟩ := h
  obtain ⟨b, hload, hkind, helements⟩ := loadBuffer_of_kind h1 h4 hseq
  exact ⟨b, hkind, helements, by simp [State.hostLoad, hload, fits_iff.2 hlen]⟩

theorem hostLoad_of_not_taken (h : ¬ LoadTaken p kind seq) : s.hostLoad p kind seq = s := by
  unfold State.hostLoad
  cases hload : loadBuffer p kind seq with
  | none => rfl
  | some b =>
    obtain ⟨h1, h4, hseq⟩ := kind_of_loadBuffer hload
    exact if_neg fun hfits => h ⟨h1, h4, hseq, fits_iff.1 hfits⟩

/-- The build that exec runs has no MAX_LEN (log 6), so it takes a load of any length. -/
theorem loadTaken_build_iff :
    LoadTaken Config.build kind seq ↔ 1#3 ≤ kind ∧ kind ≤ 4#3 ∧ ∀ e ∈ seq, e.OfKind Config.build kind := by
  constructor
  · rintro ⟨h1, h4, hseq, -⟩
    exact ⟨h1, h4, hseq⟩
  · rintro ⟨h1, h4, hseq⟩
    exact ⟨h1, h4, hseq, fun _ hlen => nomatch hlen⟩

/-- A step on a pending load is that load; the action leaves the host's list (log 1). -/
theorem step_load {rest : List HostAction} (h : s.host = .load kind seq :: rest) :
    step s = .next (State.hostLoad Config.build kind seq { s with host := rest }) := by
  unfold step
  rw [h]

/-- Settles O7: `loadBuffer` answers exactly on the loads of a real kind, and MAX_LEN decides the rest. -/
theorem hostLoadReplacesInOrIsRefused : Obligations.HostLoadReplacesInOrIsRefused := by
  refine ⟨fun p s kind seq => ⟨hostLoad_of_taken, hostLoad_of_not_taken⟩, fun s kind seq rest hhost => ?_⟩
  rw [step_load hhost, ← loadTaken_build_iff]
  constructor
  · intro htaken
    obtain ⟨b, hkind, helements, hload⟩ := hostLoad_of_taken (s := { s with host := rest }) htaken
    exact ⟨b, hkind, helements, by rw [hload]⟩
  · intro hrefused
    rw [hostLoad_of_not_taken hrefused]

end Sys2Proof.Machine
end

section
/-!
SUPPORT. What any command does to any state, said once. `outcome` is OUT0 and OUT1 of a command, or the error it raises,
`moved` what SETSEL and XFER write beside them, and `commandOn_cases` says that a command does these and nothing else.
Later proofs about all 32 commands cite it and never unfold a command.
-/

namespace Sys2Proof.Machine

/-! ### Stages over an operand -/

theorem chain_assoc {α β γ : Type} (r : Result α) (f : α → Result β) (g : β → Result γ) :
    chain (chain r f) g = chain r fun a => chain (f a) g := by
  cases r <;> rfl

/-- What `State.runStage` finishes with: an operand, the stages applied to it, the outputs written. -/
def staged {α β : Type} (operand : Result α) (body : α → Result β) (outs : β → Buffer × Buffer) :
    Result (Buffer × Buffer) :=
  chain operand fun x => chain (body x) fun y => .ok (outs y)

section
variable {α β : Type} {operand : Result α} {body : α → Result β} {outs : β → Buffer × Buffer}

@[simp] theorem staged_ok (x : α) : staged (.ok x) body outs = chain (body x) fun y => .ok (outs y) := rfl

@[simp] theorem staged_error (e : Raise) : staged (.error e) body outs = .error e := rfl

theorem staged_eq_ok {o : Buffer × Buffer} :
    staged operand body outs = .ok o ↔ ∃ x y, operand = .ok x ∧ body x = .ok y ∧ o = outs y := by
  simp only [staged, chain_eq_ok, Except.ok.injEq]
  constructor
  · rintro ⟨x, hx, y, hy, rfl⟩
    exact ⟨x, y, hx, hy, rfl⟩
  · rintro ⟨x, y, hx, hy, rfl⟩
    exact ⟨x, hx, y, hy, rfl⟩

end

/-! ### The outcome of a command -/

/-- OUT0 and OUT1 of a command that succeeds, or what it raises (30_encoding.md R83). -/
def outcome (p : Params Sample) (i : Instr) (s : State) : Result (Buffer × Buffer) :=
  match i with
  | .setsel car lc cor det frm =>
    if (schemesOf car lc cor det frm).isSome then .ok (.none, .none) else .error configurationError
  | .xfer => if s.out0 = .none then .error configurationError else .ok (.none, .none)
  | .t2b => staged s.inBytes (t2b p) bitOutput
  | .b2t => staged s.inBits (b2t p) byteOutput
  | .frmLp => staged s.inBits (frmLp p) bitOutput
  | .dfrLp => staged s.inBits (dfrLp p) bitOutput
  | .frmByte => staged s.inBits (frmByte p) bitOutput
  | .dfrByte => staged s.inBits (dfrByte p) bitOutput
  | .frmBit => staged s.inBits (frmBit p) bitOutput
  | .dfrBit => staged s.inBits (dfrBit p) bitOutput
  | .parEnc => staged s.inBits (parEnc p) bitOutput
  | .parDec => staged s.inBits (parDec p) bitOutput
  | .crcEnc => staged s.inBits (crcEnc p) bitOutput
  | .crcDec => staged s.inBits (crcDec p) bitOutput
  | .hamEnc => staged s.inBits (hamEnc p) bitOutput
  | .hamDec => staged s.inBits (hamDec p) bitOutput
  | .nrzEnc => staged s.inBits (nrzEnc p) levelOutput
  | .nrzDec => staged (s.inLevels .line) (nrzDec p) bitOutput
  | .manEnc => staged s.inBits (manEnc p) levelOutput
  | .manDec => staged (s.inLevels .line) (manDec p) bitOutput
  | .amiEnc => staged s.inBits (amiEnc p) levelOutput
  | .amiDec => staged (s.inLevels .line) (amiDec p) bitOutput
  | .askMod lc => staged (s.modOperand lc) (fun x => askMod p x.1 x.2) sampleOutput
  | .askDem lc => staged (s.demOperand lc) (fun x => askDem p x.1 x.2) levelOutput
  | .fskMod lc => staged (s.modOperand lc) (fun x => fskMod p x.1 x.2) sampleOutput
  | .fskDem lc => staged (s.demOperand lc) (fun x => fskDem p x.1 x.2) levelOutput
  | .qamMod lc => staged (s.modOperand lc) (fun x => qamMod p x.1 x.2) sampleOutput
  | .qamDem lc => staged (s.demOperand lc) (fun x => qamDem p x.1 x.2) levelOutput
  | .encode => staged (withSchemes s.schemes s.inBytes) (fun x => encodeStages p x.1 x.2) codedOutput
  | .decode => staged (withSchemes s.schemes s.inBits) (fun x => decodeStages p x.1 x.2) byteOutput
  | .modulate => staged (withSchemes s.schemes s.inBits) (fun x => modulateStages p x.1 x.2) sampleOutput
  | .demodulate => staged (withSchemes s.schemes s.inSamples) (fun x => demodulateStages p x.1 x.2) bitOutput

/-- What a command that succeeds writes beside STATUS, OUT0 and OUT1: SETSEL writes SEL and XFER writes IN
(10_state.md R22, R31). -/
def moved (i : Instr) (s : State) : State :=
  match i with
  | .setsel car lc cor det frm => { s with sel := selWord (selectorArgument car lc cor det frm) }
  | .xfer => { s with inBuf := s.out0 }
  | _ => s

/-- Everything a command can do (60_exceptions.md R325, R326). -/
theorem commandOn_cases (p : Params Sample) (i : Instr) (s : State) :
    (∃ e, outcome p i s = .error e ∧ commandOn p i s = s.raise i.opcode e) ∨
      (∃ outs, outcome p i s = .ok outs ∧ commandOn p i s = (moved i s).succeed i.opcode outs.1 outs.2) := by
  cases i with
  | setsel car lc cor det frm =>
    cases h : schemesOf car lc cor det frm <;> simp [outcome, moved, commandOn, setselOn, h]
  | xfer => cases h : s.out0 <;> simp [outcome, moved, commandOn, xferOn, h]
  | _ => exact finish_cases _ _ s

theorem commandOn_of_error {p : Params Sample} {i : Instr} {s : State} {e : Raise} (h : outcome p i s = .error e) :
    commandOn p i s = s.raise i.opcode e := by
  obtain ⟨_, he, hrun⟩ | ⟨_, ho, -⟩ := commandOn_cases p i s
  · cases h.symm.trans he
    exact hrun
  · cases h.symm.trans ho

theorem commandOn_of_ok {p : Params Sample} {i : Instr} {s : State} {outs : Buffer × Buffer}
    (h : outcome p i s = .ok outs) : commandOn p i s = (moved i s).succeed i.opcode outs.1 outs.2 := by
  obtain ⟨_, he, -⟩ | ⟨_, ho, hrun⟩ := commandOn_cases p i s
  · cases h.symm.trans he
  · cases h.symm.trans ho
    exact hrun

/-! ### What a command writes beside STATUS, OUT0 and OUT1 -/

theorem moved_sel {i : Instr} {s : State} (h : i.opcode ≠ 0x01#6) : (moved i s).sel = s.sel := by
  cases i with
  | setsel => exact absurd rfl h
  | _ => rfl

theorem moved_inBuf {i : Instr} {s : State} (h : i.opcode ≠ 0x02#6) : (moved i s).inBuf = s.inBuf := by
  cases i with
  | xfer => exact absurd rfl h
  | _ => rfl

@[simp] theorem moved_host (i : Instr) (s : State) : (moved i s).host = s.host := by
  cases i <;> rfl

/-- Only ENCODE leaves anything in OUT1 (10_state.md R32). -/
theorem outcome_out1 {p : Params Sample} {i : Instr} {s : State} {outs : Buffer × Buffer}
    (h : outcome p i s = .ok outs) (hi : i.opcode ≠ 0x30#6) : outs.2 = .none := by
  cases i with
  | encode => exact absurd rfl hi
  | setsel =>
    obtain ⟨-, ho⟩ := ite_eq_iff.1 h |>.resolve_right (by simp)
    cases ho
    rfl
  | xfer =>
    obtain ⟨-, ho⟩ := ite_eq_iff.1 h |>.resolve_left (by simp)
    cases ho
    rfl
  | _ =>
    obtain ⟨_, _, _, _, rfl⟩ := staged_eq_ok.1 h
    rfl

/-! ### STATUS -/

theorem statusLegal_raise (op : Opcode) (r : Raise) (s : State) : (s.raise op r).StatusLegal := by
  obtain ⟨hkind, hkind7⟩ := errorKind_code r.kind
  obtain ⟨hstage, hstage7⟩ := stage_code r.stage
  refine ⟨statusReserved_statusWord _ _ _, ?_, ?_, ?_⟩
  · simpa using hkind7
  · simpa using hstage7
  · simp [hkind, hstage]

theorem statusLegal_succeed (op : Opcode) (o0 o1 : Buffer) (s : State) : (s.succeed op o0 o1).StatusLegal :=
  ⟨statusReserved_statusWord _ _ _, by simp, by simp, by simp⟩

/-- Settles O54: a command raises or succeeds, and each writes the whole of STATUS. -/
theorem everyCommandReportsItsOutcome : Obligations.EveryCommandReportsItsOutcome := by
  intro i s
  refine ⟨_, exec_eq_commandOn i s, ?_⟩
  obtain ⟨e, -, hrun⟩ | ⟨outs, -, hrun⟩ := commandOn_cases Config.build i s
  · obtain ⟨hres, herr, hstage, hboth⟩ := statusLegal_raise i.opcode e s
    rw [hrun]
    exact ⟨statusLastOp_errorStatus _ _, hres, herr, hstage, hboth, fun _ => rfl⟩
  · obtain ⟨hres, herr, hstage, hboth⟩ := statusLegal_succeed i.opcode outs.1 outs.2 (moved i s)
    rw [hrun]
    exact ⟨statusLastOp_successStatus _, hres, herr, hstage, hboth,
      fun hne => absurd (statusErr_successStatus i.opcode) hne⟩

/-- Settles O55: `moved` is all that a command writes beside STATUS and the outputs. -/
theorem onlySetselAndXferWriteSelAndIn : Obligations.OnlySetselAndXferWriteSelAndIn := by
  intro i s
  refine ⟨_, exec_eq_commandOn i s, ?_⟩
  obtain ⟨e, -, hrun⟩ | ⟨outs, hout, hrun⟩ := commandOn_cases Config.build i s
  · rw [hrun]
    exact ⟨fun _ => rfl, fun _ => rfl, fun _ => rfl, rfl⟩
  · rw [hrun]
    exact ⟨moved_sel, moved_inBuf, outcome_out1 hout, moved_host i s⟩

end Sys2Proof.Machine
end

section
/-!
SUPPORT. Legal states (10_state.md R20 to R28): the two ends of a command keep them, what a command writes is legal, and
so is what the host does between commands.
-/

namespace Sys2Proof.Machine

/-! ### The two ends of a command -/

theorem errorClears_raise (op : Opcode) (r : Raise) (s : State) : (s.raise op r).ErrorClears := fun _ => ⟨rfl, rfl⟩

theorem legal_raise {s : State} (h : s.Legal) (op : Opcode) (r : Raise) : (s.raise op r).Legal :=
  ⟨h.sel, statusLegal_raise op r s, errorClears_raise op r s, h.input, trivial, .inl rfl⟩

theorem legal_succeed {s : State} (hsel : s.SelLegal) (hin : s.inBuf.Loaded) (op : Opcode) {o0 o1 : Buffer}
    (h0 : o0.Written) (h1 : o1 = .none ∨ ∃ bits, o1 = .bit bits) : (s.succeed op o0 o1).Legal :=
  ⟨hsel, statusLegal_succeed op o0 o1 s, fun hne => absurd (statusErr_successStatus op) hne, hin, h0, h1⟩

theorem loaded_of_written {b : Buffer} (h : b.Written) : b.Loaded := by
  cases b with
  | sample => exact h
  | _ => trivial

/-- Settles O60. -/
theorem resetStateIsLegal : Obligations.ResetStateIsLegal where
  sel := .inl rfl
  status := ⟨rfl, by decide, by decide, by decide⟩
  clears := fun _ => ⟨rfl, rfl⟩
  input := trivial
  output := trivial
  raw := .inl rfl

/-! ### What a command writes -/

theorem levelOutput_written (ls : List Level) : (levelOutput ls).1.Written := by
  intro hmem
  obtain ⟨l, -, hl⟩ := List.mem_map.1 hmem
  exact code_ne_reserved l hl

/-- Where NUM is exact, every sample a modulator sends is canonical (44_modulation.md R251, R256, R263). -/
theorem carMod_canonical {p : Params Sample} (hp : p.num = .exact) {car : Carrier} {lc : LineCode} {ls : List Level}
    {xs : List Sample} (h : carMod p car lc ls = .ok xs) : ∀ x ∈ xs, x.Canonical := by
  cases car with
  | ask =>
    obtain ⟨rfl, -⟩ := within_eq_ok h
    intro x hx
    obtain ⟨l, -, hl⟩ := List.mem_flatMap.1 hx
    unfold askWindow at hl
    split at hl
    · exact carrierWindow_canonical hp hl
    · rw [List.eq_of_mem_replicate hl, hp]
      exact zero_canonical
  | fsk =>
    obtain ⟨rfl, -⟩ := within_eq_ok h
    intro x hx
    obtain ⟨l, -, hl⟩ := List.mem_flatMap.1 hx
    exact carrierWindow_canonical hp hl
  | qam =>
    obtain ⟨-, hkept⟩ := ite_eq_iff.1 h |>.resolve_right (by simp)
    obtain ⟨rfl, -⟩ := within_eq_ok hkept
    exact qamWindows_canonical hp _

/-- What a command leaves in OUT0 and OUT1 is legal (10_state.md R28, R32). -/
theorem outcome_written {p : Params Sample} (hp : p.num = .exact) {i : Instr} {s : State} {outs : Buffer × Buffer}
    (h : outcome p i s = .ok outs) : outs.1.Written ∧ (outs.2 = .none ∨ ∃ bits, outs.2 = .bit bits) := by
  cases i with
  | setsel =>
    obtain ⟨-, ho⟩ := ite_eq_iff.1 h |>.resolve_right (by simp)
    cases ho
    exact ⟨trivial, .inl rfl⟩
  | xfer =>
    obtain ⟨-, ho⟩ := ite_eq_iff.1 h |>.resolve_left (by simp)
    cases ho
    exact ⟨trivial, .inl rfl⟩
  | encode =>
    obtain ⟨_, _, _, _, rfl⟩ := staged_eq_ok.1 h
    exact ⟨trivial, .inr ⟨_, rfl⟩⟩
  | nrzEnc | manEnc | amiEnc | askDem | fskDem | qamDem =>
    obtain ⟨_, ls, _, _, rfl⟩ := staged_eq_ok.1 h
    exact ⟨levelOutput_written ls, .inl rfl⟩
  | askMod =>
    obtain ⟨_, _, _, hmod, rfl⟩ := staged_eq_ok.1 h
    exact ⟨carMod_canonical (car := .ask) hp hmod, .inl rfl⟩
  | fskMod =>
    obtain ⟨_, _, _, hmod, rfl⟩ := staged_eq_ok.1 h
    exact ⟨carMod_canonical (car := .fsk) hp hmod, .inl rfl⟩
  | qamMod =>
    obtain ⟨_, _, _, hmod, rfl⟩ := staged_eq_ok.1 h
    exact ⟨carMod_canonical (car := .qam) hp hmod, .inl rfl⟩
  | modulate =>
    obtain ⟨_, _, _, hstages, rfl⟩ := staged_eq_ok.1 h
    obtain ⟨_, -, hmod⟩ := chain_eq_ok.1 hstages
    exact ⟨carMod_canonical hp hmod, .inl rfl⟩
  | _ =>
    obtain ⟨_, _, _, _, rfl⟩ := staged_eq_ok.1 h
    exact ⟨trivial, .inl rfl⟩

/-! ### SEL -/

/-- ARG of format S as a number: its fields side by side (30_encoding.md R81). -/
theorem selectorArgument_toNat (car lc cor det frm : Code) :
    (selectorArgument car lc cor det frm).toNat =
      car.toNat * 256 + lc.toNat * 64 + cor.toNat * 16 + det.toNat * 4 + frm.toNat := by
  rw [selectorArgument, BitVec.toNat_append, BitVec.toNat_append, BitVec.toNat_append, BitVec.toNat_append,
    ← Nat.shiftLeft_add_eq_or_of_lt frm.isLt, ← Nat.shiftLeft_add_eq_or_of_lt det.isLt,
    ← Nat.shiftLeft_add_eq_or_of_lt cor.isLt, ← Nat.shiftLeft_add_eq_or_of_lt lc.isLt]
  simp only [Nat.shiftLeft_eq]
  omega

/-- SEL as SETSEL writes it, as a number: VALID above the ten bits of ARG (45_pipeline.md R290). -/
theorem selWord_toNat (arg : BitVec 10) : (selWord arg).toNat = 0x8000 + arg.toNat := by
  have hlt : arg.toNat < 2 ^ 15 := by have := arg.isLt; omega
  rw [selWord, BitVec.toNat_or, BitVec.toNat_setWidth, Nat.mod_eq_of_lt (by omega)]
  exact (Nat.two_pow_add_eq_or_of_lt hlt 1).symm

theorem selWord_valid (arg : BitVec 10) : selValid (selWord arg) = true := by
  simp [selValid, selWord]

theorem selWord_reserved (arg : BitVec 10) : (selWord arg).extractLsb' 10 5 = 0#5 := by
  apply BitVec.eq_of_toNat_eq
  rw [BitVec.extractLsb'_toNat, selWord_toNat, Nat.shiftRight_eq_div_pow, BitVec.toNat_ofNat]
  have := arg.isLt
  omega

/-- The fields of SEL as SETSEL writes it are its operands (10_state.md R22). -/
theorem selWord_fields (car lc cor det frm : Code) :
    let w := selWord (selectorArgument car lc cor det frm)
    selCar w = car ∧ selLc w = lc ∧ selCor w = cor ∧ selDet w = det ∧ selFrm w = frm := by
  have hcar := car.isLt
  have hlc := lc.isLt
  have hcor := cor.isLt
  have hdet := det.isLt
  have hfrm := frm.isLt
  refine ⟨?_, ?_, ?_, ?_, ?_⟩ <;> apply BitVec.eq_of_toNat_eq
  all_goals
    simp only [selCar, selLc, selCor, selDet, selFrm, BitVec.extractLsb'_toNat, selWord_toNat, selectorArgument_toNat,
      Nat.shiftRight_eq_div_pow]
    omega

/-- SETSEL writes legal selectors only (10_state.md R23). -/
theorem moved_selLegal {p : Params Sample} {i : Instr} {s : State} {outs : Buffer × Buffer} (hs : s.SelLegal)
    (h : outcome p i s = .ok outs) : (moved i s).SelLegal := by
  cases i with
  | setsel car lc cor det frm =>
    obtain ⟨hsome, -⟩ := ite_eq_iff.1 h |>.resolve_right (by simp)
    obtain ⟨hcar, hlc, hcor, hdet, hfrm⟩ := selWord_fields car lc cor det frm
    refine .inr ⟨selWord_valid _, selWord_reserved _, ?_⟩
    simpa only [moved, hcar, hlc, hcor, hdet, hfrm] using hsome
  | _ => exact hs

/-- XFER moves what a command wrote (10_state.md R31). -/
theorem moved_loaded {i : Instr} {s : State} (hs : s.Legal) : (moved i s).inBuf.Loaded := by
  cases i with
  | xfer => exact loaded_of_written hs.output
  | _ => exact hs.input

theorem command_keeps_legal {p : Params Sample} (hp : p.num = .exact) (i : Instr) {s : State} (hs : s.Legal) :
    (commandOn p i s).Legal := by
  obtain ⟨e, -, hrun⟩ | ⟨outs, hout, hrun⟩ := commandOn_cases p i s
  · rw [hrun]
    exact legal_raise hs _ _
  · obtain ⟨h0, h1⟩ := outcome_written hp hout
    rw [hrun]
    exact legal_succeed (moved_selLegal hs.sel hout) (moved_loaded hs) _ h0 h1

/-! ### What the host does -/

/-- The host's list is no part of the block's state (10_state.md R20, log 1). -/
theorem legal_withHost {s : State} (h : s.Legal) (rest : List HostAction) : State.Legal { s with host := rest } :=
  ⟨h.sel, h.status, h.clears, h.input, h.output, h.raw⟩

theorem legal_withIn {s : State} (h : s.Legal) {b : Buffer} (hb : b.Loaded) : State.Legal { s with inBuf := b } :=
  ⟨h.sel, h.status, h.clears, hb, h.output, h.raw⟩

/-- Elements that are numbers of an exact NUM make a loaded buffer (00_scope.md R11, log 4). -/
theorem loaded_of_elements {p : Params Sample} (hp : p.num = .exact) {kind : BitVec 3} {b : Buffer}
    (h : ∀ e ∈ b.elements, e.OfKind p kind) : b.Loaded := by
  cases b with
  | sample xs =>
    intro x hx
    obtain ⟨-, hholds⟩ := h (.sample x) (List.mem_map_of_mem hx)
    rw [hp] at hholds
    exact of_decide_eq_true hholds
  | _ => trivial

theorem hostLoad_keeps_legal {p : Params Sample} (hp : p.num = .exact) {s : State} (hs : s.Legal) (kind : BitVec 3)
    (seq : List Element) : (s.hostLoad p kind seq).Legal := by
  by_cases h : LoadTaken p kind seq
  · obtain ⟨b, -, rfl, hload⟩ := hostLoad_of_taken (s := s) h
    obtain ⟨-, -, hof, -⟩ := h
    rw [hload]
    exact legal_withIn hs (loaded_of_elements hp hof)
  · rwa [hostLoad_of_not_taken h]

theorem hostReset_legal (s : State) : s.hostReset.Legal := legal_withHost resetStateIsLegal s.host

theorem hostFlip_keeps_legal {s : State} (hs : s.Legal) (i : Nat) : (s.hostFlip i).Legal := by
  unfold State.hostFlip
  split
  · exact legal_withIn hs trivial
  · exact hs

/-- Settles O59: what the host presents next is a command, which keeps legal states, or an action of its own. -/
theorem stepKeepsLegalStates : Obligations.StepKeepsLegalStates := by
  intro s hs
  unfold step
  split
  next => exact ⟨s, rfl, hs⟩
  next w rest _ =>
    have hrest := legal_withHost hs rest
    split
    · exact ⟨_, exec_eq_commandOn _ _, command_keeps_legal build_num _ hrest⟩
    · exact ⟨_, rfl, legal_raise hrest _ _⟩
  next kind seq rest _ => exact ⟨_, rfl, hostLoad_keeps_legal build_num (legal_withHost hs rest) kind seq⟩
  next rest _ => exact ⟨_, rfl, hostReset_legal _⟩
  next i rest _ => exact ⟨_, rfl, hostFlip_keeps_legal (legal_withHost hs rest) i⟩

end Sys2Proof.Machine
end

section
/-!
SUPPORT. What a command reads: the error each operand raises, and that the outcome depends on the operands alone
(10_state.md R21 to R28; 60_exceptions.md R322, R323).
-/

namespace Sys2Proof.Machine

/-! ### STATUS, the codes of STAGE and ERR together -/

/-- STATUS with STAGE and ERR as one byte (10_state.md R25). -/
theorem statusWord_eq_append (op : Opcode) (g e : BitVec 4) : statusWord op g e = 0#2 ++ op ++ (g ++ e : BitVec 8) := by
  rw [statusWord, BitVec.append_assoc, BitVec.cast_eq]

/-- A command that raises only changes STATUS, OUT0 and OUT1 (60_exceptions.md R325). -/
theorem exec_of_error {i : Instr} {s : State} {e : Raise} {w : Word} (h : outcome Config.build i s = .error e)
    (hw : errorStatus i.opcode e = w) : exec i s = .next (s.ended w .none .none) := by
  rw [exec_eq_commandOn, commandOn_of_error h, raise_eq_ended, hw]

/-! ### Errors of operands -/

section
variable {s : State}

theorem lineCodeOperand_cases (lc : Code) :
    (∃ c, lineCodeOperand lc = .ok c) ∨ lineCodeOperand lc = .error configurationError := by
  unfold lineCodeOperand
  cases lineCodeOf lc <;> simp

theorem schemes_cases (s : State) : (∃ m, s.schemes = .ok m) ∨ s.schemes = .error configurationError := by
  unfold State.schemes
  split
  · split <;> simp
  · simp

/-- A modulator whose IN is no LEVEL sequence raises ConfigurationError, whatever its LC. -/
theorem modOperand_error (lc : Code) (h : s.inBuf.kind ≠ 3#3) : s.modOperand lc = .error configurationError := by
  obtain ⟨c, hc⟩ | hc := lineCodeOperand_cases lc <;> simp [State.modOperand, hc, inLevels_error _ h]

/-- A demodulator whose IN is no SAMPLE sequence raises ConfigurationError, whatever its LC. -/
theorem demOperand_error (lc : Code) (h : s.inBuf.kind ≠ 4#3) : s.demOperand lc = .error configurationError := by
  obtain ⟨c, hc⟩ | hc := lineCodeOperand_cases lc <;> simp [State.demOperand, hc, inSamples_error h]

/-- A composed command whose IN is of another kind raises ConfigurationError, whatever SEL holds. -/
theorem withSchemes_error {α : Type} {operand : Result α} (h : operand = .error configurationError) :
    withSchemes s.schemes operand = .error configurationError := by
  obtain ⟨m, hm⟩ | hm := schemes_cases s <;> simp [withSchemes, hm, h]

/-- IN of another kind than the command's own raises ConfigurationError (60_exceptions.md R322). -/
theorem outcome_of_wrong_kind {p : Params Sample} {i : Instr} {k : BitVec 3} (hi : i.inKind = some k)
    (hk : s.inBuf.kind ≠ k) : outcome p i s = .error configurationError := by
  cases i with
  | setsel | xfer => cases hi
  | t2b => cases hi; simp [outcome, inBytes_error hk]
  | nrzDec | manDec | amiDec => cases hi; simp [outcome, inLevels_error _ hk]
  | askMod | fskMod | qamMod => cases hi; simp [outcome, modOperand_error _ hk]
  | askDem | fskDem | qamDem => cases hi; simp [outcome, demOperand_error _ hk]
  | encode => cases hi; simp [outcome, withSchemes_error (inBytes_error hk)]
  | decode | modulate => cases hi; simp [outcome, withSchemes_error (inBits_error hk)]
  | demodulate => cases hi; simp [outcome, withSchemes_error (inSamples_error hk)]
  | _ => cases hi; simp [outcome, inBits_error hk]

/-- The reserved level code is found before a modulator looks at the levels (60_exceptions.md R323). -/
theorem modOperand_reserved (lc : LineCode) {codes : List LevelCode} (h : s.inBuf = .level codes)
    (hr : 0b10#2 ∈ codes) : s.modOperand (lineCodeCode lc) = .error ⟨.signal, .carrier⟩ := by
  simp [State.modOperand, inLevels_reserved .carrier h hr]

end

/-- Settles O57. -/
theorem wrongInputKindRaises : Obligations.WrongInputKindRaises := by
  intro i s k hi hk
  exact exec_of_error (outcome_of_wrong_kind hi hk) (statusWord_eq_append _ _ _)

/-- Settles O37: the operand of each of the six commands raises SignalError, before its body sees a level. -/
theorem reservedLevelRaisesSignalError : Obligations.ReservedLevelRaisesSignalError := by
  intro s codes lc hin hr
  have hline : s.inLevels .line = .error ⟨.signal, .line⟩ := inLevels_reserved .line hin hr
  have hcarrier := modOperand_reserved lc hin hr
  refine ⟨exec_of_error (e := ⟨.signal, .line⟩) ?_ rfl, exec_of_error (e := ⟨.signal, .line⟩) ?_ rfl,
    exec_of_error (e := ⟨.signal, .line⟩) ?_ rfl,
    exec_of_error ?_ (show errorStatus 0x20#6 ⟨.signal, .carrier⟩ = 0x2076#16 from rfl),
    exec_of_error ?_ (show errorStatus 0x22#6 ⟨.signal, .carrier⟩ = 0x2276#16 from rfl),
    exec_of_error ?_ (show errorStatus 0x24#6 ⟨.signal, .carrier⟩ = 0x2476#16 from rfl)⟩
  all_goals simp only [outcome, hline, hcarrier, staged_error]

/-- Settles O48: with VALID = 0 the schemes, a composed command's first operand, raise ConfigurationError. -/
theorem composedCommandsNeedValidSelectors : Obligations.ComposedCommandsNeedValidSelectors := by
  intro s hvalid
  have hoperand {α : Type} (operand : Result α) : withSchemes s.schemes operand = .error configurationError := by
    rw [withSchemes, schemes_invalid hvalid, chain_error]
  refine ⟨exec_of_error (e := configurationError) ?_ rfl, exec_of_error (e := configurationError) ?_ rfl,
    exec_of_error (e := configurationError) ?_ rfl, exec_of_error (e := configurationError) ?_ rfl⟩
  all_goals rw [outcome, hoperand, staged_error]

/-! ### Two states that agree on the operands -/

section
variable {s s' : State}

theorem inBits_congr (h : s.inBuf = s'.inBuf) : s.inBits = s'.inBits := by simp only [State.inBits, h]

theorem inBytes_congr (h : s.inBuf = s'.inBuf) : s.inBytes = s'.inBytes := by simp only [State.inBytes, h]

theorem inSamples_congr (h : s.inBuf = s'.inBuf) : s.inSamples = s'.inSamples := by simp only [State.inSamples, h]

theorem inLevels_congr (h : s.inBuf = s'.inBuf) (g : Stage) : s.inLevels g = s'.inLevels g := by
  simp only [State.inLevels, h]

theorem schemes_congr (h : s.sel = s'.sel) : s.schemes = s'.schemes := by simp only [State.schemes, h]

/-- The outcome reads IN, SEL for the composed commands, OUT0 for XFER, and nothing else (10_state.md R21, R24). -/
theorem outcome_congr {p : Params Sample} {i : Instr} (hin : s.inBuf = s'.inBuf)
    (hsel : i.composed = true → s.sel = s'.sel) (hout : i = .xfer → s.out0 = s'.out0) :
    outcome p i s = outcome p i s' := by
  cases i with
  | setsel => rfl
  | xfer => simp only [outcome, hout rfl]
  | t2b => simp only [outcome, inBytes_congr hin]
  | nrzDec | manDec | amiDec => simp only [outcome, inLevels_congr hin]
  | askMod | fskMod | qamMod => simp only [outcome, State.modOperand, inLevels_congr hin]
  | askDem | fskDem | qamDem => simp only [outcome, State.demOperand, inSamples_congr hin]
  | encode => simp only [outcome, schemes_congr (hsel rfl), inBytes_congr hin]
  | decode | modulate => simp only [outcome, schemes_congr (hsel rfl), inBits_congr hin]
  | demodulate => simp only [outcome, schemes_congr (hsel rfl), inSamples_congr hin]
  | _ => simp only [outcome, inBits_congr hin]

theorem moved_inBuf_congr {i : Instr} (hin : s.inBuf = s'.inBuf) (hout : i = .xfer → s.out0 = s'.out0) :
    (moved i s).inBuf = (moved i s').inBuf := by
  cases i with
  | xfer => exact hout rfl
  | _ => exact hin

/-- SETSEL writes SEL from its own operands (45_pipeline.md R290). -/
theorem moved_sel_congr {i : Instr} (h : i.opcode = 0x01#6) : (moved i s).sel = (moved i s').sel := by
  cases i with
  | setsel => rfl
  | _ => simp [Instr.opcode] at h

end

/-- Settles O56: the outcomes are equal, so both commands end the same way. -/
theorem commandsReadOnlyTheirOperands : Obligations.CommandsReadOnlyTheirOperands := by
  intro i s s' hin hsel hout
  refine ⟨_, _, exec_eq_commandOn i s, exec_eq_commandOn i s', ?_⟩
  have heq : outcome Config.build i s = outcome Config.build i s' := outcome_congr hin hsel hout
  obtain ⟨e, he, hrun⟩ | ⟨outs, ho, hrun⟩ := commandOn_cases Config.build i s
  · rw [hrun, commandOn_of_error (heq ▸ he)]
    refine ⟨rfl, hin, rfl, rfl, fun _ hstatus => ?_⟩
    have herr : statusErr (errorStatus i.opcode e) = 0#4 := by
      rw [show errorStatus i.opcode e = 0x0100#16 from hstatus]
      rfl
    rw [statusErr_errorStatus] at herr
    exact absurd herr (errorKind_code e.kind).1
  · rw [hrun, commandOn_of_ok (heq ▸ ho)]
    exact ⟨rfl, moved_inBuf_congr hin hout, rfl, rfl, fun hop _ => moved_sel_congr hop⟩

end Sys2Proof.Machine
end

section
/-!
SUPPORT. The step as the host sees it (10_state.md R35, R36): a presented word runs the command it decodes to, and the
decoder gives back every well-formed command from its word.
-/

namespace Sys2Proof.Machine

/-! ### The step, per pending action -/

section
variable {s : State} {rest : List HostAction}

theorem step_idle (h : s.host = []) : step s = .next s := by
  unfold step
  rw [h]

theorem step_command {w : Word} {i : Instr} (h : s.host = .command w :: rest) (hw : decode w = .ok i) :
    step s = exec i { s with host := rest } := by
  unfold step
  rw [h]
  simp only [hw]

theorem step_reset (h : s.host = .reset :: rest) : step s = .next (State.hostReset { s with host := rest }) := by
  unfold step
  rw [h]

end

/-! ### The decoder on an encoded word -/

/-- A format N word decodes by its opcode alone (30_encoding.md R81, R84). -/
theorem formatN_of_zero {w : Word} (h : argField w = 0#10) (i : Instr) : formatN w i = .ok i := if_pos h

theorem carrierArgument_toNat (lc : Code) : (carrierArgument lc).toNat = lc.toNat * 64 := by
  rw [carrierArgument, BitVec.toNat_append, BitVec.toNat_append,
    ← Nat.shiftLeft_add_eq_or_of_lt (by decide), ← Nat.shiftLeft_add_eq_or_of_lt lc.isLt]
  simp [Nat.shiftLeft_eq]

/-- A format C word gives its line code back, unless that is 3 (30_encoding.md R81, R84). -/
theorem formatC_of_carrierArgument {op : Opcode} {lc : Code} (h : lc ≠ 3#2) (i : Code → Instr) :
    formatC (op ++ carrierArgument lc) i = .ok (i lc) := by
  have hlt := lc.isLt
  have hcar : carField (op ++ carrierArgument lc) = 0#2 := by
    apply BitVec.eq_of_toNat_eq
    simp only [carField, BitVec.extractLsb'_toNat, Laws.word_toNat, carrierArgument_toNat, Nat.shiftRight_eq_div_pow,
      BitVec.toNat_ofNat]
    omega
  have hlow : (op ++ carrierArgument lc : Word).extractLsb' 0 6 = 0#6 := by
    apply BitVec.eq_of_toNat_eq
    simp only [BitVec.extractLsb'_toNat, Laws.word_toNat, carrierArgument_toNat, Nat.shiftRight_eq_div_pow,
      BitVec.toNat_ofNat]
    omega
  have hlc : lcField (op ++ carrierArgument lc) = lc := by
    apply BitVec.eq_of_toNat_eq
    simp only [lcField, BitVec.extractLsb'_toNat, Laws.word_toNat, carrierArgument_toNat, Nat.shiftRight_eq_div_pow]
    omega
  simp [formatC, hcar, hlow, hlc, h]

/-- A format S word gives its five codes back (30_encoding.md R81). -/
theorem formatS_of_selectorArgument (op : Opcode) (car lc cor det frm : Code) :
    formatS (op ++ selectorArgument car lc cor det frm) = .ok (.setsel car lc cor det frm) := by
  have hcar := car.isLt
  have hlc := lc.isLt
  have hcor := cor.isLt
  have hdet := det.isLt
  have hfrm := frm.isLt
  simp only [formatS, Except.ok.injEq, Instr.setsel.injEq]
  refine ⟨?_, ?_, ?_, ?_, ?_⟩ <;> apply BitVec.eq_of_toNat_eq
  all_goals
    simp only [carField, lcField, corField, detField, frmField, BitVec.extractLsb'_toNat, Laws.word_toNat,
      selectorArgument_toNat, Nat.shiftRight_eq_div_pow]
    omega

/-- The encoded word of a well-formed command decodes to it (30_encoding.md R80 to R84). -/
theorem decode_encode {i : Instr} (h : i.wellFormed = true) : decode (encode i) = .ok i := by
  have hop : opField (encode i) = i.opcode := (Laws.fields_append _ _).1
  have harg : argField (encode i) = i.argument := (Laws.fields_append _ _).2
  unfold decode
  rw [hop]
  cases i with
  | setsel car lc cor det frm => exact formatS_of_selectorArgument _ _ _ _ _ _
  | askMod lc | askDem lc | fskMod lc | fskDem lc | qamMod lc | qamDem lc =>
    exact formatC_of_carrierArgument (by simpa [Instr.wellFormed] using h) _
  | _ => exact formatN_of_zero harg _

/-! ### The statements -/

/-- A word placed by `withFetchWord` is the host's next action (log 2). -/
theorem withFetchWord_host (s : State) (w : Word) :
    (s.withFetchWord 16 w.toNat).host = .command w :: s.host := by
  have hword : BitVec.ofNat 16 (w.toNat % 2 ^ 16) = w := by
    rw [Nat.mod_eq_of_lt w.isLt, BitVec.ofNat_toNat, BitVec.setWidth_eq]
  rw [State.withFetchWord, hword]

/-- Settles O5. -/
theorem stepRunsDecodedCommand : Obligations.StepRunsDecodedCommand := by
  refine ⟨fun s w rest i hhost hw => step_command hhost hw,
    fun s rest i hwf hhost => step_command hhost (decode_encode hwf), fun s w i hw => ?_⟩
  exact step_command (withFetchWord_host s w) hw

/-- Settles O6. -/
theorem resetClearsEveryRegister : Obligations.ResetClearsEveryRegister :=
  ⟨rfl, fun _ _ hhost => step_reset hhost, fun _ hhost => step_idle hhost⟩

end Sys2Proof.Machine
end

section
/-!
SUPPORT. MAX_LEN (10_state.md R30). Every stage is its unbounded self followed by the capacity check
(`CapacityLast`), and a composed command is its stage commands in sequence (`outcome_composed`), so the check of each
stage is also made inside a composed command.
-/

namespace Sys2Proof.Machine

/-! ### A stage checks its capacity last -/

/-- The same build with MAX_LEN unbounded. -/
def unbounded (p : Params Sample) : Params Sample := { p with maxLen := none }

@[simp] theorem unbounded_lpMode (p : Params Sample) : (unbounded p).lpMode = p.lpMode := rfl

@[simp] theorem within_unbounded_build {α : Type} (p : Params Sample) (g : Stage) (out : List α) :
    within (unbounded p) g out = .ok out := rfl

theorem chain_ite {α β : Type} (c : Prop) [Decidable c] (r t : Result α) (f : α → Result β) :
    chain (if c then r else t) f = if c then chain r f else chain t f := apply_ite (chain · f) c r t

/-- The body reads MAX_LEN only to check its whole output at the end, after every other check of the stage
(10_state.md R30, 60_exceptions.md R323). -/
def CapacityLast {α β : Type} (g : Stage) (body : Params Sample → α → Result (List β)) : Prop :=
  ∀ p x, body p x = chain (body (unbounded p) x) (within p g)

theorem capacityLast_t2b : CapacityLast .codec t2b := fun _ _ => rfl

theorem capacityLast_b2t : CapacityLast .codec b2t := by
  intro p x
  simp only [b2t, chain_ite, chain_error, within_unbounded_build, chain_ok]

theorem capacityLast_frmLp : CapacityLast .framing frmLp := by
  intro p x
  cases hmode : p.lpMode with
  | fixed =>
    simp only [frmLp, unbounded_lpMode, hmode, chain_ite, chain_error]
    rfl
  | reference =>
    simp only [frmLp, unbounded_lpMode, hmode, within_unbounded_build, chain_ok]

/-- The end of DFR_LP, in either mode, checks its capacity last. -/
theorem stripPrefix_capacity (p : Params Sample) (count declared : Nat) (frame : List Bit) :
    stripPrefix p count declared frame =
      chain (stripPrefix (unbounded p) count declared frame) (within p .framing) := by
  simp only [stripPrefix, chain_ite, chain_error, within_unbounded_build, chain_ok]

theorem capacityLast_dfrLp : CapacityLast .framing dfrLp := by
  intro p x
  cases hmode : p.lpMode with
  | fixed =>
    simp only [dfrLp, unbounded_lpMode, hmode, dfrLpFixed, chain_ite, chain_error, chain_assoc,
      stripPrefix_capacity p]
    rfl
  | reference =>
    simp only [dfrLp, unbounded_lpMode, hmode, dfrLpReference, chain_ite, chain_error, chain_assoc,
      stripPrefix_capacity p]

theorem capacityLast_frmByte : CapacityLast .framing frmByte := fun _ _ => rfl

theorem markerCheck_unbounded (p : Params Sample) (f : List Bit) : markerCheck (unbounded p) f = markerCheck p f := rfl

theorem unescape_unbounded (p : Params Sample) (latch : Bool) (bytes : List (List Bit)) :
    unescape (unbounded p) latch bytes = unescape p latch bytes := by
  have hesc : escBits (unbounded p) = escBits p := rfl
  induction bytes generalizing latch with
  | nil => cases latch <;> rfl
  | cons b t ih => cases latch <;> simp only [unescape, hesc, ih]

theorem capacityLast_dfrByte : CapacityLast .framing dfrByte := by
  intro p x
  simp only [dfrByte, chain_assoc, markerCheck_unbounded, unescape_unbounded, within_unbounded_build, chain_ok]

theorem capacityLast_frmBit : CapacityLast .framing frmBit := fun _ _ => rfl

theorem unstuff_unbounded (p : Params Sample) (fuel : Nat) (body : List Bit) :
    unstuff (unbounded p) fuel body = unstuff p fuel body := by
  have hstuffed : stuffedFlag (unbounded p) = stuffedFlag p := rfl
  have hflag : flagBits (unbounded p) = flagBits p := rfl
  induction fuel generalizing body with
  | zero => rfl
  | succ n ih => simp only [unstuff, hstuffed, hflag, ih]

theorem capacityLast_dfrBit : CapacityLast .framing dfrBit := by
  intro p x
  simp only [dfrBit, chain_assoc, markerCheck_unbounded, unstuff_unbounded, within_unbounded_build, chain_ok]

theorem capacityLast_parEnc : CapacityLast .detection parEnc := fun _ _ => rfl

theorem capacityLast_parDec : CapacityLast .detection parDec := by
  intro p x
  simp only [parDec, chain_ite, chain_error, within_unbounded_build, chain_ok]

theorem capacityLast_crcEnc : CapacityLast .detection crcEnc := fun _ _ => rfl

theorem capacityLast_crcDec : CapacityLast .detection crcDec := by
  intro p x
  simp only [crcDec, chain_ite, chain_error, within_unbounded_build, chain_ok]

theorem capacityLast_hamEnc : CapacityLast .correction hamEnc := fun _ _ => rfl

theorem capacityLast_hamDec : CapacityLast .correction hamDec := fun _ _ => rfl

theorem capacityLast_lineEnc (lc : LineCode) : CapacityLast .line fun p => lineEnc p lc := by
  intro p x
  cases lc <;> rfl

theorem capacityLast_lineDec (lc : LineCode) : CapacityLast .line fun p => lineDec p lc := by
  intro p x
  cases lc with
  | man => simp only [lineDec, manDec, chain_ite, chain_error, chain_assoc, within_unbounded_build, chain_ok]
  | _ => rfl

theorem qamWindows_unbounded (p : Params Sample) (bits : List Bit) :
    qamWindows (unbounded p) bits = qamWindows p bits := by
  fun_induction qamWindows p bits with
  | case1 b0 b1 b2 t ih =>
    rw [qamWindows, ih]
    rfl
  | case2 => simp [qamWindows]

theorem capacityLast_carMod (car : Carrier) :
    CapacityLast .carrier fun p (x : LineCode × List Level) => carMod p car x.1 x.2 := by
  intro p x
  cases car with
  | qam =>
    simp only [carMod, qamMod, chain_ite, chain_error, qamWindows_unbounded, within_unbounded_build, chain_ok]
  | _ => rfl

theorem capacityLast_carDem (car : Carrier) :
    CapacityLast .carrier fun p (x : LineCode × List Sample) => carDem p car x.1 x.2 := by
  intro p x
  cases car <;> simp only [carDem, askDem, fskDem, qamDem, chain_assoc] <;> rfl

end Sys2Proof.Machine
end

section
/-!
SUPPORT. The stage commands on a bounded build, and the composed commands as sequences of stage commands
(45_pipeline.md R292 to R297).
-/

namespace Sys2Proof.Machine

/-! ### One stage command on a bounded build -/

/-- An outcome on a build with MAX_LEN = n, from the outcome on the unbounded build (10_state.md R30). -/
def limitTo (n : Nat) (g : Stage) (r : Result (Buffer × Buffer)) : Result (Buffer × Buffer) :=
  chain r fun outs => if outs.1.elements.length ≤ n then .ok outs else .error ⟨.capacity, g⟩

theorem staged_limitTo {α β : Type} {g : Stage} {body : Params Sample → α → Result (List β)}
    {outs : List β → Buffer × Buffer} (hbody : CapacityLast g body)
    (houts : ∀ y, (outs y).1.elements.length = y.length) (p : Params Sample) (n : Nat) (operand : Result α) :
    staged operand (body { p with maxLen := some n }) outs =
      limitTo n g (staged operand (body (unbounded p)) outs) := by
  cases operand with
  | error e => rfl
  | ok x =>
    have hx : body { p with maxLen := some n } x =
        chain (body (unbounded p) x) (within { p with maxLen := some n } g) := hbody _ x
    rw [staged_ok, staged_ok, hx]
    cases body (unbounded p) x with
    | error e => rfl
    | ok y => simp only [chain_ok, within_bounded (p := { p with maxLen := some n }) rfl, limitTo, houts, chain_ite,
        chain_error]

theorem bitOutput_length (xs : List Bit) : (bitOutput xs).1.elements.length = xs.length := List.length_map _

theorem byteOutput_length (xs : List Byte) : (byteOutput xs).1.elements.length = xs.length := List.length_map _

theorem levelOutput_length (ls : List Level) : (levelOutput ls).1.elements.length = ls.length := by
  simp [levelOutput, Buffer.elements]

theorem sampleOutput_length (xs : List Sample) : (sampleOutput xs).1.elements.length = xs.length := List.length_map _

/-- Each stage command checks its output against MAX_LEN, with its own STAGE (10_state.md R30, 60_exceptions.md
R321). -/
theorem outcome_bounded {i : Instr} {code : BitVec 4} (h : stageCode i = some code) (p : Params Sample) (n : Nat)
    (s : State) :
    ∃ g : Stage, g.code = code ∧
      outcome { p with maxLen := some n } i s = limitTo n g (outcome (unbounded p) i s) := by
  cases i with
  | setsel | xfer | encode | decode | modulate | demodulate => cases h
  | t2b => cases h; exact ⟨.codec, rfl, staged_limitTo capacityLast_t2b bitOutput_length p n _⟩
  | b2t => cases h; exact ⟨.codec, rfl, staged_limitTo capacityLast_b2t byteOutput_length p n _⟩
  | frmLp => cases h; exact ⟨.framing, rfl, staged_limitTo capacityLast_frmLp bitOutput_length p n _⟩
  | dfrLp => cases h; exact ⟨.framing, rfl, staged_limitTo capacityLast_dfrLp bitOutput_length p n _⟩
  | frmByte => cases h; exact ⟨.framing, rfl, staged_limitTo capacityLast_frmByte bitOutput_length p n _⟩
  | dfrByte => cases h; exact ⟨.framing, rfl, staged_limitTo capacityLast_dfrByte bitOutput_length p n _⟩
  | frmBit => cases h; exact ⟨.framing, rfl, staged_limitTo capacityLast_frmBit bitOutput_length p n _⟩
  | dfrBit => cases h; exact ⟨.framing, rfl, staged_limitTo capacityLast_dfrBit bitOutput_length p n _⟩
  | parEnc => cases h; exact ⟨.detection, rfl, staged_limitTo capacityLast_parEnc bitOutput_length p n _⟩
  | parDec => cases h; exact ⟨.detection, rfl, staged_limitTo capacityLast_parDec bitOutput_length p n _⟩
  | crcEnc => cases h; exact ⟨.detection, rfl, staged_limitTo capacityLast_crcEnc bitOutput_length p n _⟩
  | crcDec => cases h; exact ⟨.detection, rfl, staged_limitTo capacityLast_crcDec bitOutput_length p n _⟩
  | hamEnc => cases h; exact ⟨.correction, rfl, staged_limitTo capacityLast_hamEnc bitOutput_length p n _⟩
  | hamDec => cases h; exact ⟨.correction, rfl, staged_limitTo capacityLast_hamDec bitOutput_length p n _⟩
  | nrzEnc => cases h; exact ⟨.line, rfl, staged_limitTo (capacityLast_lineEnc .nrz) levelOutput_length p n _⟩
  | manEnc => cases h; exact ⟨.line, rfl, staged_limitTo (capacityLast_lineEnc .man) levelOutput_length p n _⟩
  | amiEnc => cases h; exact ⟨.line, rfl, staged_limitTo (capacityLast_lineEnc .ami) levelOutput_length p n _⟩
  | nrzDec => cases h; exact ⟨.line, rfl, staged_limitTo (capacityLast_lineDec .nrz) bitOutput_length p n _⟩
  | manDec => cases h; exact ⟨.line, rfl, staged_limitTo (capacityLast_lineDec .man) bitOutput_length p n _⟩
  | amiDec => cases h; exact ⟨.line, rfl, staged_limitTo (capacityLast_lineDec .ami) bitOutput_length p n _⟩
  | askMod => cases h; exact ⟨.carrier, rfl, staged_limitTo (capacityLast_carMod .ask) sampleOutput_length p n _⟩
  | fskMod => cases h; exact ⟨.carrier, rfl, staged_limitTo (capacityLast_carMod .fsk) sampleOutput_length p n _⟩
  | qamMod => cases h; exact ⟨.carrier, rfl, staged_limitTo (capacityLast_carMod .qam) sampleOutput_length p n _⟩
  | askDem => cases h; exact ⟨.carrier, rfl, staged_limitTo (capacityLast_carDem .ask) levelOutput_length p n _⟩
  | fskDem => cases h; exact ⟨.carrier, rfl, staged_limitTo (capacityLast_carDem .fsk) levelOutput_length p n _⟩
  | qamDem => cases h; exact ⟨.carrier, rfl, staged_limitTo (capacityLast_carDem .qam) levelOutput_length p n _⟩

/-- A command that reads IN writes STATUS, OUT0 and OUT1 only. -/
theorem moved_of_inKind {i : Instr} {k : BitVec 3} (h : i.inKind = some k) (s : State) : moved i s = s := by
  cases i with
  | setsel | xfer => cases h
  | _ => rfl

theorem inKind_of_stageCode {i : Instr} {code : BitVec 4} (h : stageCode i = some code) :
    ∃ k, i.inKind = some k := by
  cases i with
  | setsel | xfer => cases h
  | _ => exact ⟨_, rfl⟩

/-- The first clause of O58: the commands from their outcomes. -/
theorem stage_capacity (p : Params Sample) (n : Nat) {i : Instr} {code : BitVec 4} (s : State)
    (h : stageCode i = some code) :
    let free := commandOn (unbounded p) i s
    let limited := commandOn { p with maxLen := some n } i s
    (statusErr free.status ≠ 0#4 → limited = free) ∧
      (statusErr free.status = 0#4 → free.out0.elements.length ≤ n → limited = free) ∧
      (statusErr free.status = 0#4 → n < free.out0.elements.length →
        limited = s.ended (0#2 ++ i.opcode ++ code ++ 7#4) .none .none) := by
  obtain ⟨g, rfl, hlimit⟩ := outcome_bounded h p n s
  obtain ⟨k, hk⟩ := inKind_of_stageCode h
  intro free limited
  obtain ⟨e, he, hfree⟩ | ⟨outs, ho, hfree⟩ := commandOn_cases (unbounded p) i s
  · have herr : statusErr free.status ≠ 0#4 := by
      rw [show free = _ from hfree, raise_status, statusErr_errorStatus]
      exact (errorKind_code e.kind).1
    have hsame : limited = free := by
      rw [he] at hlimit
      exact (commandOn_of_error hlimit).trans hfree.symm
    exact ⟨fun _ => hsame, fun h0 => absurd h0 herr, fun h0 => absurd h0 herr⟩
  · rw [ho, limitTo, chain_ok] at hlimit
    have hok : statusErr free.status = 0#4 := by
      rw [show free = _ from hfree, succeed_status, statusErr_successStatus]
    have hout : free.out0 = outs.1 := by rw [show free = _ from hfree, succeed_out0]
    refine ⟨fun hne => absurd hok hne, fun _ hle => ?_, fun _ hlt => ?_⟩
    · rw [hout] at hle
      rw [if_pos hle] at hlimit
      exact (commandOn_of_ok hlimit).trans hfree.symm
    · rw [hout] at hlt
      rw [if_neg (by omega)] at hlimit
      have hstatus : errorStatus i.opcode ⟨.capacity, g⟩ = 0#2 ++ i.opcode ++ g.code ++ 7#4 := rfl
      rw [← hstatus, ← raise_eq_ended]
      exact commandOn_of_error hlimit

/-! ### Stage commands in sequence -/

/-- The state after reset with a buffer in IN. -/
def holding (b : Buffer) : State := { State.reset with inBuf := b }

/-- The outcomes of stage commands one after another, each on OUT0 of the one before. -/
def runStages (p : Params Sample) : List Instr → Buffer → Result Buffer
  | [], b => .ok b
  | i :: rest, b => chain (outcome p i (holding b)) fun outs => runStages p rest outs.1

/-- STAGE and ERR of an error as STATUS[7:0] (10_state.md R25). -/
def Raise.codes (r : Raise) : BitVec 8 := r.stage.code ++ r.kind.code

theorem errorStatus_codes (op : Opcode) (r : Raise) : (errorStatus op r).extractLsb' 0 8 = r.codes := by
  rw [errorStatus, statusWord_eq_append]
  exact BitVec.extractLsb'_append_eq_right

theorem stagesOn_cons (p : Params Sample) (i : Instr) (rest : List Instr) (b : Buffer) :
    stagesOn p (i :: rest) b =
      if statusErr (commandOn p i (holding b)).status = 0#4 then stagesOn p rest (commandOn p i (holding b)).out0
      else .error ((commandOn p i (holding b)).status.extractLsb' 0 8) := rfl

/-- Running the commands themselves gives the same, with STATUS in place of the error. -/
theorem stagesOn_eq (p : Params Sample) (stages : List Instr) (b : Buffer) :
    stagesOn p stages b = (runStages p stages b).mapError Raise.codes := by
  induction stages generalizing b with
  | nil => rfl
  | cons i rest ih =>
    rw [stagesOn_cons, runStages]
    obtain ⟨e, he, hrun⟩ | ⟨outs, ho, hrun⟩ := commandOn_cases p i (holding b)
    · rw [hrun, he, raise_status, statusErr_errorStatus, if_neg (errorKind_code e.kind).1, errorStatus_codes]
      rfl
    · rw [hrun, ho, succeed_status, statusErr_successStatus, if_pos rfl, succeed_out0, ih]
      rfl

section
variable {p : Params Sample}

/-- A stage command in front of others. -/
theorem runStages_cons {β : Type} {i : Instr} {rest : List Instr} {b : Buffer} {r : Result β}
    {outs : β → Buffer × Buffer} (h : outcome p i (holding b) = chain r fun y => .ok (outs y)) :
    runStages p (i :: rest) b = chain r fun y => runStages p rest (outs y).1 := by
  rw [runStages, h, chain_assoc]
  rfl

theorem runStages_wrong_kind {i : Instr} {rest : List Instr} {b : Buffer} {k : BitVec 3} (hi : i.inKind = some k)
    (hb : b.kind ≠ k) : runStages p (i :: rest) b = .error configurationError := by
  rw [runStages, outcome_of_wrong_kind hi hb, chain_error]

variable (rest : List Instr)

theorem runStages_t2b (x : List Byte) :
    runStages p (.t2b :: rest) (.byte x) = chain (t2b p x) fun y => runStages p rest (.bit y) :=
  runStages_cons (outs := bitOutput) rfl

theorem runStages_b2t (x : List Bit) :
    runStages p (.b2t :: rest) (.bit x) = chain (b2t p x) fun y => runStages p rest (.byte y) :=
  runStages_cons (outs := byteOutput) rfl

theorem runStages_framer (f : Framing) (x : List Bit) :
    runStages p (framer f :: rest) (.bit x) = chain (frame p f x) fun y => runStages p rest (.bit y) := by
  cases f <;> exact runStages_cons (outs := bitOutput) rfl

theorem runStages_deframer (f : Framing) (x : List Bit) :
    runStages p (deframer f :: rest) (.bit x) = chain (deframe p f x) fun y => runStages p rest (.bit y) := by
  cases f <;> exact runStages_cons (outs := bitOutput) rfl

/-- A stage that is not selected is the identity (45_pipeline.md R297). -/
theorem runStages_detectionEncoder (d : Detection) (x : List Bit) :
    runStages p ((detectionEncoder d).toList ++ rest) (.bit x) =
      chain (detEnc p d x) fun y => runStages p rest (.bit y) := by
  cases d with
  | none => rfl
  | _ => exact runStages_cons (outs := bitOutput) rfl

theorem runStages_detectionDecoder (d : Detection) (x : List Bit) :
    runStages p ((detectionDecoder d).toList ++ rest) (.bit x) =
      chain (detDec p d x) fun y => runStages p rest (.bit y) := by
  cases d with
  | none => rfl
  | _ => exact runStages_cons (outs := bitOutput) rfl

theorem runStages_correctionEncoder (c : Correction) (x : List Bit) :
    runStages p ((correctionEncoder c).toList ++ rest) (.bit x) =
      chain (corEnc p c x) fun y => runStages p rest (.bit y) := by
  cases c with
  | none => rfl
  | hamming => exact runStages_cons (outs := bitOutput) rfl

theorem runStages_correctionDecoder (c : Correction) (x : List Bit) :
    runStages p ((correctionDecoder c).toList ++ rest) (.bit x) =
      chain (corDec p c x) fun y => runStages p rest (.bit y) := by
  cases c with
  | none => rfl
  | hamming => exact runStages_cons (outs := bitOutput) rfl

theorem runStages_lineEncoder (lc : LineCode) (x : List Bit) :
    runStages p (lineEncoder lc :: rest) (.bit x) =
      chain (lineEnc p lc x) fun ls => runStages p rest (.level (ls.map Level.code)) := by
  cases lc <;> exact runStages_cons (outs := levelOutput) rfl

theorem runStages_lineDecoder (lc : LineCode) (ls : List Level) :
    runStages p (lineDecoder lc :: rest) (.level (ls.map Level.code)) =
      chain (lineDec p lc ls) fun y => runStages p rest (.bit y) := by
  have hin : (holding (.level (ls.map Level.code))).inLevels .line = .ok ls := inLevels_ok .line rfl
  cases lc <;> exact runStages_cons (outs := bitOutput) (by simp only [lineDecoder, outcome, hin]; rfl)

theorem runStages_modulator (car : Carrier) (lc : LineCode) (ls : List Level) :
    runStages p (modulator car lc :: rest) (.level (ls.map Level.code)) =
      chain (carMod p car lc ls) fun xs => runStages p rest (.sample xs) := by
  have hin : (holding (.level (ls.map Level.code))).modOperand (lineCodeCode lc) = .ok (lc, ls) := by
    rw [State.modOperand, lineCodeOperand_code, chain_ok, inLevels_ok .carrier rfl, chain_ok]
  cases car <;> exact runStages_cons (outs := sampleOutput) (by simp only [modulator, outcome, hin]; rfl)

theorem runStages_demodulator (car : Carrier) (lc : LineCode) (xs : List Sample) :
    runStages p (demodulator car lc :: rest) (.sample xs) =
      chain (carDem p car lc xs) fun ls => runStages p rest (.level (ls.map Level.code)) := by
  have hin : (holding (.sample xs)).demOperand (lineCodeCode lc) = .ok (lc, xs) := by
    rw [State.demOperand, lineCodeOperand_code, chain_ok, inSamples_ok rfl, chain_ok]
  cases car <;> exact runStages_cons (outs := levelOutput) (by simp only [demodulator, outcome, hin]; rfl)

end

end Sys2Proof.Machine
end

section
/-!
SUPPORT. The composed commands as sequences of stage commands (45_pipeline.md R292 to R297), and the statement on
capacity.
-/

namespace Sys2Proof.Machine

section
variable {p : Params Sample} {m : Schemes} {i : Instr} {stages : List Instr}

/-- The first stage command requires the IN that the composed command requires (30_encoding.md R83). -/
theorem composedStages_head (h : composedStages m i = some stages) :
    ∃ first rest k, stages = first :: rest ∧ first.inKind = some k ∧ i.inKind = some k := by
  cases i with
  | encode => cases h; exact ⟨_, _, 2#3, rfl, rfl, rfl⟩
  | decode =>
    cases h
    cases m.cor with
    | hamming => exact ⟨_, _, 1#3, rfl, rfl, rfl⟩
    | none =>
      cases m.det with
      | none => cases m.frm <;> exact ⟨_, _, 1#3, rfl, rfl, rfl⟩
      | _ => exact ⟨_, _, 1#3, rfl, rfl, rfl⟩
  | modulate => cases h; cases m.lc <;> exact ⟨_, _, 1#3, rfl, rfl, rfl⟩
  | demodulate => cases h; cases m.car <;> exact ⟨_, _, 4#3, rfl, rfl, rfl⟩
  | _ => cases h

theorem runStages_encode (m : Schemes) (x : List Byte) :
    runStages p ([.t2b, framer m.frm] ++ (detectionEncoder m.det).toList ++ (correctionEncoder m.cor).toList)
        (.byte x) =
      chain (encodeStages p m x) fun y => .ok (.bit y.1) := by
  rw [← List.append_nil (correctionEncoder m.cor).toList]
  simp only [List.cons_append, List.nil_append, runStages_t2b, runStages_framer, runStages_detectionEncoder,
    runStages_correctionEncoder, encodeStages, chain_assoc, chain_ok]
  rfl

theorem runStages_decode (m : Schemes) (x : List Bit) :
    runStages p ((correctionDecoder m.cor).toList ++ (detectionDecoder m.det).toList ++ [deframer m.frm, .b2t])
        (.bit x) =
      chain (decodeStages p m x) fun y => .ok (.byte y) := by
  simp only [List.append_assoc, runStages_correctionDecoder, runStages_detectionDecoder, runStages_deframer,
    runStages_b2t, decodeStages, chain_assoc]
  rfl

theorem runStages_modulate (m : Schemes) (x : List Bit) :
    runStages p [lineEncoder m.lc, modulator m.car m.lc] (.bit x) =
      chain (modulateStages p m x) fun y => .ok (.sample y) := by
  simp only [runStages_lineEncoder, runStages_modulator, modulateStages, chain_assoc]
  rfl

theorem runStages_demodulate (m : Schemes) (x : List Sample) :
    runStages p [demodulator m.car m.lc, lineDecoder m.lc] (.sample x) =
      chain (demodulateStages p m x) fun y => .ok (.bit y) := by
  simp only [runStages_demodulator, runStages_lineDecoder, demodulateStages, chain_assoc]
  rfl

/-- What ENCODE leaves in OUT1 is T2B's output alone (45_pipeline.md R292). -/
theorem composedRaw_encode {x : List Byte} {raw : List Bit} (h : t2b p x = .ok raw) :
    composedRaw p .encode (.byte x) = .bit raw := by
  rw [composedRaw, if_pos rfl, stagesOn_eq, runStages_t2b, h]
  rfl

theorem composedRaw_of_ne_encode (h : i ≠ .encode) (b : Buffer) : composedRaw p i b = .none := if_neg h

theorem encodeStages_raw {x : List Byte} {y : List Bit × List Bit} (h : encodeStages p m x = .ok y) :
    t2b p x = .ok y.2 := by
  obtain ⟨raw, hraw, h⟩ := chain_eq_ok.1 h
  obtain ⟨_, -, h⟩ := chain_eq_ok.1 h
  obtain ⟨_, -, h⟩ := chain_eq_ok.1 h
  obtain ⟨_, -, h⟩ := chain_eq_ok.1 h
  cases h
  exact hraw

/-- A composed command with legal selectors answers what its stage commands answer in sequence, with their errors
(45_pipeline.md R292 to R296). -/
theorem outcome_composed {s : State} (hm : s.Selects m) (h : composedStages m i = some stages) :
    outcome p i s = chain (runStages p stages s.inBuf) fun b => .ok (b, composedRaw p i s.inBuf) := by
  obtain ⟨first, rest, k, hstages, hfirst, hi⟩ := composedStages_head h
  by_cases hk : s.inBuf.kind = k
  · cases i with
    | encode =>
      cases hi; cases h
      obtain ⟨x, hx⟩ := kind_eq_two hk
      rw [outcome, withSchemes, schemes_ok hm, inBytes_ok hx, hx, runStages_encode]
      simp only [chain_ok, staged_ok, chain_assoc]
      cases hy : encodeStages p m x with
      | error e => rfl
      | ok y => rw [chain_ok, chain_ok, composedRaw_encode (encodeStages_raw hy), codedOutput]
    | decode =>
      cases hi; cases h
      obtain ⟨x, hx⟩ := kind_eq_one hk
      rw [outcome, withSchemes, schemes_ok hm, inBits_ok hx, hx, runStages_decode,
        composedRaw_of_ne_encode (by decide)]
      simp only [chain_ok, staged_ok, chain_assoc, byteOutput]
    | modulate =>
      cases hi; cases h
      obtain ⟨x, hx⟩ := kind_eq_one hk
      rw [outcome, withSchemes, schemes_ok hm, inBits_ok hx, hx, runStages_modulate,
        composedRaw_of_ne_encode (by decide)]
      simp only [chain_ok, staged_ok, chain_assoc, sampleOutput]
    | demodulate =>
      cases hi; cases h
      obtain ⟨x, hx⟩ := kind_eq_four hk
      rw [outcome, withSchemes, schemes_ok hm, inSamples_ok hx, hx, runStages_demodulate,
        composedRaw_of_ne_encode (by decide)]
      simp only [chain_ok, staged_ok, chain_assoc, bitOutput]
    | _ => cases h
  · rw [outcome_of_wrong_kind hi hk, hstages, runStages_wrong_kind hfirst hk, chain_error]

/-- The stage commands raise: so does the composed command, with their STAGE and ERR (45_pipeline.md R296). -/
theorem composed_of_stages_error {s : State} (hm : s.Selects m) (h : composedStages m i = some stages) {e : BitVec 8}
    (he : stagesOn p stages s.inBuf = .error e) : commandOn p i s = s.ended (0#2 ++ i.opcode ++ e) .none .none := by
  rw [stagesOn_eq] at he
  have hout := outcome_composed (p := p) hm h
  cases hr : runStages p stages s.inBuf with
  | ok b => rw [hr] at he; cases he
  | error r =>
    rw [hr] at he hout
    cases he
    rw [commandOn_of_error hout, raise_eq_ended, errorStatus, statusWord_eq_append]
    rfl

/-- The stage commands succeed: the composed command gives the last output and, for ENCODE, T2B's in OUT1. -/
theorem composed_of_stages_ok {s : State} (hm : s.Selects m) (h : composedStages m i = some stages) {b : Buffer}
    (hb : stagesOn p stages s.inBuf = .ok b) :
    commandOn p i s = s.ended (0#2 ++ i.opcode ++ 0#8) b (composedRaw p i s.inBuf) := by
  obtain ⟨-, -, _, -, -, hi⟩ := composedStages_head h
  rw [stagesOn_eq] at hb
  have hout := outcome_composed (p := p) hm h
  cases hr : runStages p stages s.inBuf with
  | error r => rw [hr] at hb; cases hb
  | ok b' =>
    rw [hr] at hb hout
    cases hb
    rw [commandOn_of_ok hout, moved_of_inKind hi, succeed_eq_ended, successStatus, statusWord_eq_append]
    rfl

end

/-- Settles O58: each stage checks MAX_LEN last, and the composed commands are their stages in sequence. -/
theorem capacityLimitsEachStageOutput : Obligations.CapacityLimitsEachStageOutput :=
  ⟨fun p n _ _ s h => stage_capacity p n s h, fun _ _ _ _ _ hm h =>
    ⟨fun _ he => composed_of_stages_error hm h he, fun _ hb => composed_of_stages_ok hm h hb⟩⟩

end Sys2Proof.Machine
end

section
/-!
SUPPORT. What the decoder accepts and what it rejects (30_encoding.md R80 to R85). `decode_row` walks through the table
of R83 once: a word is read by the format of its opcode, or its opcode is reserved. Later proofs have four cases, one
per constructor of `DecodeRow`, and never unfold the decoder.
-/

namespace Sys2Proof.Machine

/-! ### A word is its fields -/

/-- OP and ARG are the whole word (30_encoding.md R80). -/
theorem opField_append_argField (w : Word) : opField w ++ argField w = w := by
  have hlt := w.isLt
  apply BitVec.eq_of_toNat_eq
  simp only [Laws.word_toNat, opField, argField, BitVec.extractLsb'_toNat, Nat.shiftRight_eq_div_pow]
  omega

/-- The five codes are the whole of a format S word's ARG (30_encoding.md R81). -/
theorem selectorArgument_fields (w : Word) :
    selectorArgument (carField w) (lcField w) (corField w) (detField w) (frmField w) = argField w := by
  apply BitVec.eq_of_toNat_eq
  simp only [selectorArgument_toNat, carField, lcField, corField, detField, frmField, argField,
    BitVec.extractLsb'_toNat, Nat.shiftRight_eq_div_pow]
  omega

/-- With every must-be-zero bit 0, LC is the whole of a format C word's ARG (30_encoding.md R81). -/
theorem carrierArgument_lcField {w : Word} (hcar : carField w = 0#2) (hlow : w.extractLsb' 0 6 = 0#6) :
    carrierArgument (lcField w) = argField w := by
  have hcar' := congrArg BitVec.toNat hcar
  have hlow' := congrArg BitVec.toNat hlow
  apply BitVec.eq_of_toNat_eq
  simp only [carrierArgument_toNat, carField, lcField, argField, BitVec.extractLsb'_toNat,
    Nat.shiftRight_eq_div_pow, BitVec.toNat_ofNat] at hcar' hlow' ⊢
  omega

/-- A command's word is determined by its opcode and its argument (30_encoding.md R80). -/
theorem encode_eq_of_fields {w : Word} {i : Instr} (hop : i.opcode = opField w) (harg : i.argument = argField w) :
    encode i = w := by
  rw [encode, hop, harg, opField_append_argField]

/-! ### The formats -/

theorem formatN_eq_ok {w : Word} {i j : Instr} : formatN w i = .ok j ↔ argField w = 0#10 ∧ i = j := by
  unfold formatN
  split <;> simp_all

theorem formatC_eq_ok {w : Word} {f : Code → Instr} {j : Instr} :
    formatC w f = .ok j ↔
      carField w = 0#2 ∧ w.extractLsb' 0 6 = 0#6 ∧ lcField w ≠ 3#2 ∧ f (lcField w) = j := by
  unfold formatC
  split
  next hbits =>
    simp only [reduceCtorEq, false_iff]
    rintro ⟨hcar, hlow, -⟩
    exact hbits.elim (· hcar) (· hlow)
  next hbits =>
    obtain ⟨hcar, hlow⟩ := not_or.1 hbits
    split <;> simp_all

/-- How a word is read, by its opcode (30_encoding.md R83, R84): the index is the decoder's answer. -/
inductive DecodeRow (w : Word) : Except Reject Instr → Prop
  /-- SETSEL, whose codes are not checked. -/
  | selector (hop : opField w = 0x01#6) : DecodeRow w (formatS w)
  /-- A command without an argument. -/
  | plain (i : Instr) (hmem : opField w ∈ formatNOpcodes) (hop : i.opcode = opField w) (harg : i.argument = 0#10)
      (hwf : i.wellFormed = true) : DecodeRow w (formatN w i)
  /-- A carrier command, which takes a line code. -/
  | carrier (f : Code → Instr) (hmem : opField w ∈ formatCOpcodes) (hop : ∀ lc, (f lc).opcode = opField w)
      (harg : ∀ lc, (f lc).argument = carrierArgument lc) (hwf : ∀ lc, (f lc).wellFormed = (lc != 3#2)) :
      DecodeRow w (formatC w f)
  /-- An opcode without a row in the table (R85). -/
  | reserved (hS : opField w ≠ 0x01#6) (hN : opField w ∉ formatNOpcodes) (hC : opField w ∉ formatCOpcodes) :
      DecodeRow w (.error .reservedOpcode)

/-- A row of the table for a command of format N. -/
theorem DecodeRow.of_plain {w : Word} (i : Instr) (hop : (opField w).toNat = i.opcode.toNat)
    (hmem : i.opcode ∈ formatNOpcodes) (harg : i.argument = 0#10) (hwf : i.wellFormed = true) :
    DecodeRow w (formatN w i) := by
  have hop' := BitVec.eq_of_toNat_eq hop
  exact .plain i (hop' ▸ hmem) hop'.symm harg hwf

/-- A row of the table for a command of format C, whose opcode is the same for every line code. -/
theorem DecodeRow.of_carrier {w : Word} (f : Code → Instr) (hop : (opField w).toNat = (f 0#2).opcode.toNat)
    (hmem : (f 0#2).opcode ∈ formatCOpcodes) (hf : ∀ lc, (f lc).opcode = (f 0#2).opcode)
    (harg : ∀ lc, (f lc).argument = carrierArgument lc) (hwf : ∀ lc, (f lc).wellFormed = (lc != 3#2)) :
    DecodeRow w (formatC w f) := by
  have hop' := BitVec.eq_of_toNat_eq hop
  exact .carrier f (hop' ▸ hmem) (fun lc => (hf lc).trans hop'.symm) harg hwf

/-- The decoder is the table of 30_encoding.md R83: its first row is SETSEL, rows 23 to 28 are the carrier commands, the
last is every reserved opcode, and the others are of format N. -/
theorem decode_row (w : Word) : DecodeRow w (decode w) := by
  unfold decode
  split
  case h_1 hop => exact .selector (BitVec.eq_of_toNat_eq hop)
  case h_23 hop | h_24 hop | h_25 hop | h_26 hop | h_27 hop | h_28 hop =>
    exact .of_carrier _ hop (by decide) (fun _ => rfl) (fun _ => rfl) (fun _ => rfl)
  case h_33 =>
    -- The case's hypotheses say that OP is none of the 32 numbers.
    refine .reserved ?_ ?_ ?_
    all_goals
      simp only [formatNOpcodes, formatCOpcodes, List.mem_cons, List.not_mem_nil, or_false, not_or, ne_eq,
        ← BitVec.toNat_inj]
      and_intros <;> assumption
  all_goals
    rename_i hop
    exact .of_plain _ hop (by decide) rfl rfl

/-! ### Accepted words -/

/-- A row that answers with a command reads its opcode and its argument in OP and ARG. -/
theorem DecodeRow.fields {w : Word} {r : Except Reject Instr} {i : Instr} (hrow : DecodeRow w r) (h : r = .ok i) :
    i.wellFormed = true ∧ i.opcode = opField w ∧ i.argument = argField w := by
  cases hrow with
  | selector hop =>
    cases h
    exact ⟨rfl, hop.symm, selectorArgument_fields w⟩
  | plain j _ hop harg hwf =>
    obtain ⟨hzero, rfl⟩ := formatN_eq_ok.1 h
    exact ⟨hwf, hop, harg.trans hzero.symm⟩
  | carrier f _ hop harg hwf =>
    obtain ⟨hcar, hlow, hlc, rfl⟩ := formatC_eq_ok.1 h
    exact ⟨(hwf _).trans (bne_iff_ne.2 hlc), hop _, (harg _).trans (carrierArgument_lcField hcar hlow)⟩
  | reserved => cases h

/-- A word that decodes holds the opcode and the argument of a well-formed command (30_encoding.md R80, R83, R84). -/
theorem fields_of_decode {w : Word} {i : Instr} (h : decode w = .ok i) :
    i.wellFormed = true ∧ i.opcode = opField w ∧ i.argument = argField w :=
  (decode_row w).fields h

/-! ### Rejected words -/

/-- No opcode has two formats (30_encoding.md R83). -/
theorem formatNOpcodes_disjoint : ∀ op ∈ formatNOpcodes, op ≠ 0x01#6 ∧ op ∉ formatCOpcodes := by decide

theorem setsel_not_mem_formatCOpcodes : 0x01#6 ∉ formatCOpcodes := by decide

section
variable {w : Word}

/-- The checks of 30_encoding.md R84 on a SETSEL word: none. -/
theorem not_rejectedWord_of_setsel (h : opField w = 0x01#6) : ¬ RejectedWord w := by
  rintro (⟨hS, -⟩ | ⟨hN, -⟩ | ⟨hC, -⟩)
  · exact hS h
  · exact (formatNOpcodes_disjoint _ hN).1 h
  · exact setsel_not_mem_formatCOpcodes (h ▸ hC)

/-- The checks of 30_encoding.md R84 on a format N word: ARG. -/
theorem rejectedWord_iff_of_formatN (h : opField w ∈ formatNOpcodes) : RejectedWord w ↔ argField w ≠ 0#10 := by
  obtain ⟨-, hC⟩ := formatNOpcodes_disjoint _ h
  simp [RejectedWord, h, hC]

/-- The checks of 30_encoding.md R84 on a format C word: the must-be-zero bits and LC. -/
theorem rejectedWord_iff_of_formatC (h : opField w ∈ formatCOpcodes) :
    RejectedWord w ↔ carField w ≠ 0#2 ∨ w.extractLsb' 0 6 ≠ 0#6 ∨ lcField w = 3#2 := by
  have hN : opField w ∉ formatNOpcodes := fun hmem => (formatNOpcodes_disjoint _ hmem).2 h
  simp [RejectedWord, h, hN]

/-- A row answers with a command exactly on the words that pass the checks (30_encoding.md R84). -/
theorem DecodeRow.accepts_iff {r : Except Reject Instr} (hrow : DecodeRow w r) :
    (∃ i, r = .ok i) ↔ ¬ RejectedWord w := by
  cases hrow with
  | selector hop => exact iff_of_true ⟨_, rfl⟩ (not_rejectedWord_of_setsel hop)
  | plain j hmem => simp [formatN_eq_ok, rejectedWord_iff_of_formatN hmem]
  | carrier f hmem => simp [formatC_eq_ok, rejectedWord_iff_of_formatC hmem]
  | reserved hS hN hC => exact iff_of_false nofun (not_not_intro (.inl ⟨hS, hN, hC⟩))

theorem decode_eq_error_of_rejectedWord (h : RejectedWord w) : ∃ e, decode w = .error e := by
  cases hw : decode w with
  | error e => exact ⟨e, rfl⟩
  | ok i => exact absurd h ((decode_row w).accepts_iff.1 ⟨i, hw⟩)

/-- A rejected word has the error effect of 60_exceptions.md R325 and nothing else; the word leaves the host's list
(log 1). -/
theorem step_rejected {s : State} {rest : List HostAction} {e : Reject} (h : s.host = .command w :: rest)
    (hw : decode w = .error e) :
    step s = .next (State.ended { s with host := rest } (0#2 ++ opField w ++ 0x15#8) .none .none) := by
  have hstatus : errorStatus (opField w) configurationError = 0#2 ++ opField w ++ 0x15#8 := statusWord_eq_append _ _ _
  unfold step
  rw [h]
  simp only [hw]
  rw [State.rejectWord, raise_eq_ended, hstatus]

end

/-! ### The statements -/

/-- Settles O1. -/
theorem decodeInvertsEncode : Obligations.DecodeInvertsEncode := fun _ => decode_encode

/-- Settles O2: the command's opcode and argument are OP and ARG, and those are the whole word. -/
theorem encodeInvertsDecode : Obligations.EncodeInvertsDecode := by
  intro w i h
  obtain ⟨hwf, hop, harg⟩ := fields_of_decode h
  exact ⟨hwf, encode_eq_of_fields hop harg⟩

/-- Settles O3: the decoder accepts exactly the words that pass R84's checks. -/
theorem rejectedWordsRaiseConfigurationError : Obligations.RejectedWordsRaiseConfigurationError := by
  intro s w rest hhost
  constructor
  · intro hrejected
    obtain ⟨e, hw⟩ := decode_eq_error_of_rejectedWord hrejected
    exact step_rejected hhost hw
  · intro hpasses
    obtain ⟨i, hw⟩ := (decode_row w).accepts_iff.2 hpasses
    obtain ⟨-, hop, harg⟩ := fields_of_decode hw
    exact ⟨i, hw, hop, harg, step_command hhost hw⟩

/-- Settles O4: each of the seven words is the encoded word of its command. -/
theorem knownWordsDecode : Obligations.KnownWordsDecode :=
  ⟨decode_encode (i := .setsel 0#2 0#2 0#2 1#2 0#2) rfl, decode_encode (i := .setsel 1#2 1#2 1#2 2#2 1#2) rfl,
    decode_encode (i := .setsel 2#2 2#2 0#2 0#2 0#2) rfl, decode_encode (i := .askMod 0#2) rfl,
    decode_encode (i := .fskDem 1#2) rfl, decode_encode (i := .qamMod 2#2) rfl, decode_encode (i := .encode) rfl⟩

end Sys2Proof.Machine
end

section
/-!
SUPPORT. The bits of a byte sequence (20_memory.md R61): `MsbFirst` determines them, and they are what T2B writes and
what B2T cuts back into bytes.
-/

namespace Sys2Proof.Machine

theorem bytebits_getElem? (b : Byte) {j : Nat} (hj : j < 8) : (bytebits b)[j]? = some (b.getLsbD (7 - j)) := by
  interval_cases j <;> rfl

theorem flatMap_bytebits_length (bytes : List Byte) : (bytes.flatMap bytebits).length = 8 * bytes.length := by
  simp [List.length_flatMap, Nat.mul_comm]

theorem msbFirst_flatMap_bytebits (bytes : List Byte) : MsbFirst bytes (bytes.flatMap bytebits) := by
  refine ⟨flatMap_bytebits_length bytes, fun i j hj => ?_⟩
  induction bytes generalizing i with
  | nil => simp
  | cons b t ih =>
    rw [List.flatMap_cons]
    cases i with
    | zero =>
      rw [List.getElem?_append_left (by simpa using hj), Nat.mul_zero, Nat.zero_add, bytebits_getElem? b hj]
      rfl
    | succ i =>
      have hindex : 8 * (i + 1) + j - (bytebits b).length = 8 * i + j := by rw [bytebits_length]; omega
      rw [List.getElem?_append_right (by rw [bytebits_length]; omega), hindex, ih, List.getElem?_cons_succ]

/-- Every index is 8i + j for one byte i and one place j in it. -/
theorem MsbFirst.unique {bytes : List Byte} {x y : List Bit} (hx : MsbFirst bytes x) (hy : MsbFirst bytes y) :
    x = y := by
  obtain ⟨-, hx⟩ := hx
  obtain ⟨-, hy⟩ := hy
  refine List.ext_getElem? fun n => ?_
  have hplace : n % 8 < 8 := Nat.mod_lt _ (by decide)
  have h := (hx (n / 8) (n % 8) hplace).trans (hy (n / 8) (n % 8) hplace).symm
  rwa [Nat.div_add_mod] at h

theorem msbFirst_iff {bytes : List Byte} {bits : List Bit} : MsbFirst bytes bits ↔ bits = bytes.flatMap bytebits :=
  ⟨fun h => h.unique (msbFirst_flatMap_bytebits bytes), fun h => h ▸ msbFirst_flatMap_bytebits bytes⟩

/-- The bits of bytes are cut back into those bytes (40_codec.md R112). -/
theorem wholeGroups_flatMap_bytebits (bytes : List Byte) :
    (wholeGroups 8 (bytes.flatMap bytebits)).map bitsByte = bytes := by
  have hlength : ∀ g ∈ bytes.map bytebits, g.length = 8 := by simp
  obtain ⟨hgroups, -⟩ := wholeGroups_append (bytes.map bytebits) [] hlength (by decide)
  rw [List.append_nil, ← List.flatMap_def] at hgroups
  rw [hgroups, List.map_map, show bitsByte ∘ bytebits = id from funext bitsByte_bytebits, List.map_id]

/-- A multiple of 8 bits are the bits of bytes. -/
theorem exists_bytes_of_length {bits : List Bit} (h : bits.length % 8 = 0) :
    ∃ bytes : List Byte, bits = bytes.flatMap bytebits := by
  have htail : groupTail 8 bits = [] := List.eq_nil_of_length_eq_zero (by rw [groupTail_length, h])
  have hgroups : (wholeGroups 8 bits).map (bytebits ∘ bitsByte) = wholeGroups 8 bits :=
    (List.map_congr_left fun _ hg => bytebits_bitsByte (length_of_mem_wholeGroups hg)).trans (List.map_id _)
  refine ⟨(wholeGroups 8 bits).map bitsByte, ?_⟩
  rw [List.flatMap_def, List.map_map, hgroups]
  simpa [htail] using (wholeGroups_append_tail 8 bits).symm

/-! ### T2B and B2T -/

theorem exec_t2b_ended {s : State} {bytes : List Byte} (h : s.inBuf = .byte bytes) :
    exec .t2b s = .next (s.ended 0x0400#16 (.bit (bytes.flatMap bytebits)) .none) := by
  rw [exec_t2b h, t2b, within_build, chain_ok, finish_ok, succeed_eq_ended]
  rfl

/-- Settles O10. -/
theorem t2bWritesMostSignificantBitFirst : Obligations.T2bWritesMostSignificantBitFirst :=
  fun _ bytes h => ⟨_, msbFirst_flatMap_bytebits bytes, exec_t2b_ended h⟩

/-- B2T on the bits of bytes is decided by R113's scan (40_codec.md R112). -/
theorem b2t_flatMap_bytebits (bytes : List Byte) :
    b2t Config.build (bytes.flatMap bytebits) =
      if utf8WellFormed bytes then .ok bytes else .error ⟨.decode, .codec⟩ := by
  have hcount : ¬ (bytes.flatMap bytebits).length % 8 ≠ 0 := by rw [flatMap_bytebits_length]; omega
  simp only [b2t, if_neg hcount, wholeGroups_flatMap_bytebits, within_build]

/-- DecodeError, whichever check raises it (40_codec.md R112). -/
theorem exec_b2t_of_error {s : State} {bits : List Bit} (h : s.inBuf = .bit bits)
    (hb : b2t Config.build bits = .error ⟨.decode, .codec⟩) :
    exec .b2t s = .next (s.ended 0x0523#16 .none .none) := by
  rw [exec_b2t h, hb, chain_error, finish_error, raise_eq_ended]
  rfl

theorem exec_b2t_of_ok {s : State} {bits : List Bit} {bytes : List Byte} (h : s.inBuf = .bit bits)
    (hb : b2t Config.build bits = .ok bytes) : exec .b2t s = .next (s.ended 0x0500#16 (.byte bytes) .none) := by
  rw [exec_b2t h, hb, chain_ok, finish_ok, succeed_eq_ended]
  rfl

end Sys2Proof.Machine
end

section
/-!
SUPPORT. R113's table: the scan of the model accepts exactly the byte sequences that split into rows of the table
(40_codec.md R113), and what follows for B2T.
-/

namespace Sys2Proof.Machine

/-- Each byte is in its range of the row (40_codec.md R113). -/
def InRow (part : List Byte) (row : List (Byte × Byte)) : Prop :=
  List.Forall₂ (fun b r => r.1 ≤ b ∧ b ≤ r.2) part row

/-- One sequence of the table (40_codec.md R113). -/
def Utf8Sequence (part : List Byte) : Prop := ∃ row ∈ utf8Patterns, InRow part row

theorem utf8Text_def {bytes : List Byte} :
    Utf8Text bytes ↔ ∃ parts : List (List Byte), parts.flatten = bytes ∧ ∀ part ∈ parts, Utf8Sequence part := .rfl

theorem Utf8Sequence.ne_nil {part : List Byte} (h : Utf8Sequence part) : part ≠ [] := by
  rintro rfl
  obtain ⟨row, hrow, hin⟩ := h
  cases hin
  exact absurd hrow (by decide)

/-- The byte is in the range that begins the row. -/
def startsRow (b : Byte) (row : List (Byte × Byte)) : Bool := row.head?.any fun r => decide (r.1 ≤ b ∧ b ≤ r.2)

/-- The comparisons of `utf8Follow` pick the rows of the table that the byte begins: for every byte at most one. -/
theorem utf8Follow_toList (b : Byte) :
    (utf8Follow b).toList = (utf8Patterns.filter (startsRow b)).map List.tail := by
  revert b; decide +kernel

theorem utf8Follow_eq_some {b : Byte} {owed : List (Byte × Byte)} :
    utf8Follow b = some owed ↔ ∃ r, r :: owed ∈ utf8Patterns ∧ r.1 ≤ b ∧ b ≤ r.2 := by
  rw [← Option.mem_toList, utf8Follow_toList]
  constructor
  · intro h
    obtain ⟨row, hrow, rfl⟩ := List.mem_map.1 h
    obtain ⟨hmem, hstarts⟩ := List.mem_filter.1 hrow
    cases row with
    | nil => cases hstarts
    | cons r owed => exact ⟨r, hmem, of_decide_eq_true hstarts⟩
  · rintro ⟨r, hmem, hr⟩
    exact List.mem_map.2 ⟨r :: owed, List.mem_filter.2 ⟨hmem, decide_eq_true hr⟩, rfl⟩

/-- With ranges owed, the scan takes the bytes they ask for and then starts anew. -/
theorem utf8Scan_eq_true {owed : List (Byte × Byte)} {bytes : List Byte} :
    utf8Scan owed bytes = true ↔
      ∃ part rest, bytes = part ++ rest ∧ InRow part owed ∧ utf8WellFormed rest = true := by
  induction owed generalizing bytes with
  | nil =>
    constructor
    · exact fun h => ⟨[], bytes, rfl, .nil, h⟩
    · rintro ⟨_, rest, rfl, ⟨⟩, h⟩
      exact h
  | cons r owed ih =>
    constructor
    · intro h
      cases bytes with
      | nil => cases h
      | cons b t =>
        simp only [utf8Scan, Bool.and_eq_true, decide_eq_true_eq] at h
        obtain ⟨hr, ht⟩ := h
        obtain ⟨part, rest, rfl, hin, hrest⟩ := ih.1 ht
        exact ⟨b :: part, rest, rfl, .cons hr hin, hrest⟩
    · rintro ⟨_, rest, rfl, hin, hrest⟩
      cases hin with
      | cons hr hin =>
        simp only [List.cons_append, utf8Scan, Bool.and_eq_true, decide_eq_true_eq]
        exact ⟨hr, ih.2 ⟨_, rest, rfl, hin, hrest⟩⟩

theorem utf8WellFormed_cons {b : Byte} {t : List Byte} :
    utf8WellFormed (b :: t) = true ↔ ∃ owed, utf8Follow b = some owed ∧ utf8Scan owed t = true := by
  rw [utf8WellFormed, utf8Scan]
  cases utf8Follow b <;> simp

theorem utf8WellFormed_append {part rest : List Byte} (hpart : Utf8Sequence part) (hrest : utf8WellFormed rest = true) :
    utf8WellFormed (part ++ rest) = true := by
  obtain ⟨row, hrow, hin⟩ := hpart
  cases hin with
  | nil => exact absurd hrow (by decide)
  | cons hr hin =>
    exact utf8WellFormed_cons.2 ⟨_, utf8Follow_eq_some.2 ⟨_, hrow, hr⟩, utf8Scan_eq_true.2 ⟨_, rest, rfl, hin, hrest⟩⟩

theorem exists_sequence_of_utf8WellFormed {bytes : List Byte} (h : utf8WellFormed bytes = true) (hne : bytes ≠ []) :
    ∃ part rest, bytes = part ++ rest ∧ Utf8Sequence part ∧ utf8WellFormed rest = true := by
  cases bytes with
  | nil => exact absurd rfl hne
  | cons b t =>
    obtain ⟨owed, hfollow, hscan⟩ := utf8WellFormed_cons.1 h
    obtain ⟨r, hrow, hr⟩ := utf8Follow_eq_some.1 hfollow
    obtain ⟨part, rest, rfl, hin, hrest⟩ := utf8Scan_eq_true.1 hscan
    exact ⟨b :: part, rest, rfl, ⟨_, hrow, .cons hr hin⟩, hrest⟩

/-- The scan cuts off one sequence after another, and each leaves fewer bytes. -/
theorem utf8Text_of_utf8WellFormed {bytes : List Byte} (h : utf8WellFormed bytes = true) : Utf8Text bytes := by
  induction hn : bytes.length using Nat.strong_induction_on generalizing bytes with
  | _ n ih =>
    by_cases hne : bytes = []
    · exact ⟨[], hne.symm, by simp⟩
    · obtain ⟨part, rest, rfl, hpart, hrest⟩ := exists_sequence_of_utf8WellFormed h hne
      have hshorter : rest.length < n := by
        have := List.length_pos_iff.2 hpart.ne_nil
        rw [← hn, List.length_append]
        omega
      obtain ⟨parts, rfl, hparts⟩ := ih _ hshorter hrest rfl
      exact ⟨part :: parts, rfl, List.forall_mem_cons.2 ⟨hpart, hparts⟩⟩

theorem utf8WellFormed_flatten {parts : List (List Byte)} (h : ∀ part ∈ parts, Utf8Sequence part) :
    utf8WellFormed parts.flatten = true := by
  induction parts with
  | nil => rfl
  | cons part parts ih =>
    obtain ⟨hpart, hparts⟩ := List.forall_mem_cons.1 h
    exact utf8WellFormed_append hpart (ih hparts)

theorem utf8WellFormed_iff {bytes : List Byte} : utf8WellFormed bytes = true ↔ Utf8Text bytes := by
  refine ⟨utf8Text_of_utf8WellFormed, fun h => ?_⟩
  obtain ⟨parts, rfl, hparts⟩ := utf8Text_def.1 h
  exact utf8WellFormed_flatten hparts

/-! ### B2T -/

section
variable {s : State} {bytes : List Byte}

theorem exec_b2t_of_text (h : s.inBuf = .bit (bytes.flatMap bytebits)) (ht : Utf8Text bytes) :
    exec .b2t s = .next (s.ended 0x0500#16 (.byte bytes) .none) :=
  exec_b2t_of_ok h (by rw [b2t_flatMap_bytebits, if_pos (utf8WellFormed_iff.2 ht)])

theorem exec_b2t_of_not_text (h : s.inBuf = .bit (bytes.flatMap bytebits)) (ht : ¬ Utf8Text bytes) :
    exec .b2t s = .next (s.ended 0x0523#16 .none .none) :=
  exec_b2t_of_error h (by rw [b2t_flatMap_bytebits, if_neg (mt utf8WellFormed_iff.1 ht)])

end

/-- Settles O11: the bit count first, then the scan on the bytes that the bits are. -/
theorem b2tReadsWellFormedTextOnly : Obligations.B2tReadsWellFormedTextOnly := by
  intro s bits hin
  constructor
  · intro hcount
    exact exec_b2t_of_error hin (if_pos hcount)
  · intro hcount
    obtain ⟨bytes, rfl⟩ := exists_bytes_of_length hcount
    exact ⟨bytes, msbFirst_flatMap_bytebits bytes, exec_b2t_of_text hin, exec_b2t_of_not_text hin⟩

/-- Settles O12: T2B writes the bits of the bytes, and B2T reads them. -/
theorem b2tInvertsT2bOnText : Obligations.B2tInvertsT2bOnText := by
  intro bytes
  refine ⟨bytes.flatMap bytebits, fun s hin => ?_, fun ht s hin => ?_, fun ht => ⟨by decide, fun s hin => ?_⟩⟩
  · exact ⟨_, exec_t2b_ended hin, by rw [ended_status]; decide, rfl⟩
  · exact ⟨_, exec_b2t_of_text hin ht, by rw [ended_status]; decide, rfl⟩
  · exact ⟨_, exec_b2t_of_not_text hin ht, by rw [ended_status]; decide⟩

end Sys2Proof.Machine
end

section
/-!
SUPPORT. R113's table is Unicode's: its sequences are the UTF-8 encodings of the Unicode scalar values, which Lean's
`Char` holds and `String.utf8EncodeChar` encodes (40_codec.md R113).
-/

namespace Sys2Proof.Machine

/-! ### The table, by the length of the sequence -/

/-- A byte of 80..BF (40_codec.md R113). -/
def Continues (b : Byte) : Prop := 0x80 ≤ b.toNat ∧ b.toNat ≤ 0xBF

section
variable {a b c d : Byte} {part : List Byte} {r : Byte × Byte} {row : List (Byte × Byte)}

@[simp] theorem inRow_nil : InRow [] [] := .nil

@[simp] theorem inRow_cons :
    InRow (b :: part) (r :: row) ↔ (r.1.toNat ≤ b.toNat ∧ b.toNat ≤ r.2.toNat) ∧ InRow part row := List.forall₂_cons

@[simp] theorem not_inRow_nil_cons : ¬ InRow [] (r :: row) := nofun

@[simp] theorem not_inRow_cons_nil : ¬ InRow (b :: part) [] := nofun

theorem utf8Sequence_one : Utf8Sequence [a] ↔ a.toNat ≤ 0x7F := by
  simp [Utf8Sequence, utf8Patterns]

theorem utf8Sequence_two : Utf8Sequence [a, b] ↔ 0xC2 ≤ a.toNat ∧ a.toNat ≤ 0xDF ∧ Continues b := by
  simp [Utf8Sequence, utf8Patterns, Continues, and_assoc]

/-- Four rows as one: E0 and ED bound the second byte, against a longer encoding and against surrogates. -/
theorem utf8Sequence_three :
    Utf8Sequence [a, b, c] ↔ 0xE0 ≤ a.toNat ∧ a.toNat ≤ 0xEF ∧ Continues b ∧ Continues c ∧
      (a.toNat = 0xE0 → 0xA0 ≤ b.toNat) ∧ (a.toNat = 0xED → b.toNat ≤ 0x9F) := by
  simp only [Utf8Sequence, utf8Patterns, List.exists_mem_cons_iff, List.not_mem_nil, false_and, exists_false,
    inRow_cons, inRow_nil, not_inRow_nil_cons, not_inRow_cons_nil, BitVec.toNat_ofNat, and_false, and_true, or_false,
    false_or, Continues]
  omega

/-- Three rows as one: F0 and F4 bound the second byte, against a longer encoding and above 10FFFF. -/
theorem utf8Sequence_four :
    Utf8Sequence [a, b, c, d] ↔ 0xF0 ≤ a.toNat ∧ a.toNat ≤ 0xF4 ∧ Continues b ∧ Continues c ∧ Continues d ∧
      (a.toNat = 0xF0 → 0x90 ≤ b.toNat) ∧ (a.toNat = 0xF4 → b.toNat ≤ 0x8F) := by
  simp only [Utf8Sequence, utf8Patterns, List.exists_mem_cons_iff, List.not_mem_nil, false_and, exists_false,
    inRow_cons, inRow_nil, not_inRow_cons_nil, BitVec.toNat_ofNat, and_false, and_true, or_false, false_or,
    Continues]
  omega

end

/-- No row is empty or has more than four bytes. -/
theorem Utf8Sequence.length_mem {part : List Byte} (h : Utf8Sequence part) : part.length ∈ [1, 2, 3, 4] := by
  obtain ⟨row, hrow, hin⟩ := h
  have hrows : ∀ row ∈ utf8Patterns, row.length ∈ [1, 2, 3, 4] := by decide
  rw [List.Forall₂.length_eq hin]
  exact hrows row hrow

/-! ### The encoding of a scalar value -/

/-- UTF-8 as a function of the scalar value's number: its base-64 digits, each added to the marker of its place. -/
def scalarBytes (n : Nat) : List Byte :=
  if n ≤ 0x7F then [BitVec.ofNat 8 n]
  else if n ≤ 0x7FF then [BitVec.ofNat 8 (n / 64 + 0xC0), BitVec.ofNat 8 (n % 64 + 0x80)]
  else if n ≤ 0xFFFF then
    [BitVec.ofNat 8 (n / 4096 + 0xE0), BitVec.ofNat 8 (n / 64 % 64 + 0x80), BitVec.ofNat 8 (n % 64 + 0x80)]
  else
    [BitVec.ofNat 8 (n / 262144 + 0xF0), BitVec.ofNat 8 (n / 4096 % 64 + 0x80), BitVec.ofNat 8 (n / 64 % 64 + 0x80),
      BitVec.ofNat 8 (n % 64 + 0x80)]

/-- `scalarBytes` is Lean's encoder: below 110000 no leading digit is cut off. -/
theorem map_utf8EncodeChar (c : Char) : (String.utf8EncodeChar c).map UInt8.toBitVec = scalarBytes c.toNat := by
  have hmax : c.toNat < 0x110000 := c.valid.elim (fun h => Nat.lt_trans h (by decide)) And.right
  have hval : c.val.toNat = c.toNat := rfl
  have h2 : c.toNat ≤ 0x7FF → c.toNat / 64 % 32 = c.toNat / 64 := by omega
  have h3 : c.toNat ≤ 0xFFFF → c.toNat / 4096 % 16 = c.toNat / 4096 := by omega
  have h4 : c.toNat / 262144 % 8 = c.toNat / 262144 := by omega
  unfold String.utf8EncodeChar scalarBytes
  simp only [hval, h4]
  split_ifs with h7F h7FF hFFFF
  · rfl
  · rw [h2 h7FF]; rfl
  · rw [h3 hFFFF]; rfl
  · rfl

/-- The first byte's row bounds the second byte as the number's range asks. -/
theorem utf8Sequence_scalarBytes {n : Nat} (h : n.isValidChar) : Utf8Sequence (scalarBytes n) := by
  have hrange : n < 0xD800 ∨ 0xDFFF < n ∧ n < 0x110000 := h
  unfold scalarBytes
  split_ifs with h7F h7FF hFFFF
  · rw [utf8Sequence_one, BitVec.toNat_ofNat]
    omega
  · rw [utf8Sequence_two]
    simp only [Continues, BitVec.toNat_ofNat]
    omega
  · rw [utf8Sequence_three]
    simp only [Continues, BitVec.toNat_ofNat]
    omega
  · rw [utf8Sequence_four]
    simp only [Continues, BitVec.toNat_ofNat]
    omega

/-- The bytes of a sequence, each less its marker, are the digits of a scalar value. -/
theorem exists_scalar_of_utf8Sequence {part : List Byte} (h : Utf8Sequence part) :
    ∃ n : Nat, n.isValidChar ∧ part = scalarBytes n := by
  have hlen := h.length_mem
  match part with
  | [] => simp at hlen
  | [a] =>
    rw [utf8Sequence_one] at h
    refine ⟨a.toNat, .inl (by omega), ?_⟩
    rw [scalarBytes, if_pos h, BitVec.ofNat_toNat, BitVec.setWidth_eq]
  | [a, b] =>
    rw [utf8Sequence_two] at h
    obtain ⟨ha, ha', hb, hb'⟩ := h
    refine ⟨(a.toNat - 0xC0) * 64 + (b.toNat - 0x80), .inl (by omega), ?_⟩
    rw [scalarBytes, if_neg (by omega), if_pos (by omega)]
    simp only [List.cons.injEq, and_true, ← BitVec.toNat_inj, BitVec.toNat_ofNat]
    omega
  | [a, b, c] =>
    rw [utf8Sequence_three] at h
    obtain ⟨ha, ha', ⟨hb, hb'⟩, ⟨hc, hc'⟩, hE0, hED⟩ := h
    refine ⟨(a.toNat - 0xE0) * 4096 + (b.toNat - 0x80) * 64 + (c.toNat - 0x80), ?_, ?_⟩
    · unfold Nat.isValidChar
      omega
    · rw [scalarBytes, if_neg (by omega), if_neg (by omega), if_pos (by omega)]
      simp only [List.cons.injEq, and_true, ← BitVec.toNat_inj, BitVec.toNat_ofNat]
      omega
  | [a, b, c, d] =>
    rw [utf8Sequence_four] at h
    obtain ⟨ha, ha', ⟨hb, hb'⟩, ⟨hc, hc'⟩, ⟨hd, hd'⟩, hF0, hF4⟩ := h
    refine ⟨(a.toNat - 0xF0) * 262144 + (b.toNat - 0x80) * 4096 + (c.toNat - 0x80) * 64 + (d.toNat - 0x80), ?_, ?_⟩
    · unfold Nat.isValidChar
      omega
    · rw [scalarBytes, if_neg (by omega), if_neg (by omega), if_neg (by omega)]
      simp only [List.cons.injEq, and_true, ← BitVec.toNat_inj, BitVec.toNat_ofNat]
      omega
  | _ :: _ :: _ :: _ :: _ :: _ => simp at hlen

/-- The sequences of the table are the encodings of the characters. -/
theorem utf8Sequence_iff {part : List Byte} :
    Utf8Sequence part ↔ ∃ c : Char, (String.utf8EncodeChar c).map UInt8.toBitVec = part := by
  constructor
  · intro h
    obtain ⟨n, hn, rfl⟩ := exists_scalar_of_utf8Sequence h
    exact ⟨Char.ofNat n, by rw [map_utf8EncodeChar, Char.toNat_ofNat, if_pos hn]⟩
  · rintro ⟨c, rfl⟩
    rw [map_utf8EncodeChar]
    exact utf8Sequence_scalarBytes c.valid

theorem utf8Text_iff_chars {bytes : List Byte} :
    Utf8Text bytes ↔ ∃ text : List Char, bytes = (text.flatMap String.utf8EncodeChar).map UInt8.toBitVec := by
  have hencode (text : List Char) : (text.flatMap String.utf8EncodeChar).map UInt8.toBitVec =
      (text.map fun c => (String.utf8EncodeChar c).map UInt8.toBitVec).flatten := by
    rw [List.map_flatMap, List.flatMap_def]
  simp only [hencode, utf8Text_def, utf8Sequence_iff]
  constructor
  · rintro ⟨parts, rfl, hparts⟩
    obtain ⟨text, rfl⟩ := (Set.range_list_map _).ge hparts
    exact ⟨text, rfl⟩
  · rintro ⟨text, rfl⟩
    exact ⟨_, rfl, by simp⟩

/-- Settles O13: `MsbFirst` says which bits IN holds, and the table is Unicode's. -/
theorem b2tAcceptsExactlyUnicodeText : Obligations.B2tAcceptsExactlyUnicodeText := by
  intro s bytes bits hbits hin
  rw [msbFirst_iff.1 hbits] at hin
  rw [← utf8Text_iff_chars]
  exact ⟨exec_b2t_of_text hin, exec_b2t_of_not_text hin⟩

end Sys2Proof.Machine
end

section
/-!
SUPPORT. The ends of the commands that turn bits into bits, on any build, and sequences cut into groups
(20_memory.md R64). The framing statements cite these.
-/

namespace Sys2Proof.Machine

/-! ### Commands on bits -/

section
variable {op : Opcode} {body : List Bit → Result (List Bit)} {s : State} {xs ys : List Bit} {e : Raise}

theorem runStage_bits_of_ok (h : s.inBuf = .bit xs) (hbody : body xs = .ok ys) :
    s.runStage op s.inBits body bitOutput = s.ended (successStatus op) (.bit ys) .none := by
  rw [inBits_ok h, runStage_ok, hbody, chain_ok, finish_ok, succeed_eq_ended]
  rfl

theorem runStage_bits_of_error (h : s.inBuf = .bit xs) (hbody : body xs = .error e) :
    s.runStage op s.inBits body bitOutput = s.ended (errorStatus op e) .none .none := by
  rw [inBits_ok h, runStage_ok, hbody, chain_error, finish_error, raise_eq_ended]

end

/-! ### Groups -/

section
variable {α : Type} {n : Nat}

theorem wholeGroups_length (s : List α) : (wholeGroups n s).length = s.length / n := groups_length _ _ _

theorem groups_getElem? {count j : Nat} (s : List α) (hj : j < count) :
    (groups n count s)[j]? = some (slice s (n * j) n) := by
  induction count generalizing j s with
  | zero => omega
  | succ count ih =>
    cases j with
    | zero => rfl
    | succ j =>
      rw [groups, List.getElem?_cons_succ, ih _ (by omega), slice, slice, List.drop_drop, Nat.mul_succ, Nat.add_comm]

theorem wholeGroups_getElem? {j : Nat} (s : List α) (hj : j < s.length / n) :
    (wholeGroups n s)[j]? = some (slice s (n * j) n) := groups_getElem? s hj

/-- A sequence is `n`-element groups and a shorter tail, and these are what it is cut into. -/
theorem exists_groups_tail (hn : 0 < n) (s : List α) :
    ∃ (gs : List (List α)) (tail : List α), s = gs.flatten ++ tail ∧ (∀ g ∈ gs, g.length = n) ∧ tail.length < n ∧
      wholeGroups n s = gs ∧ groupTail n s = tail :=
  ⟨wholeGroups n s, groupTail n s, (wholeGroups_append_tail n s).symm, fun _ => length_of_mem_wholeGroups,
    by rw [groupTail_length]; exact Nat.mod_lt _ hn, rfl, rfl⟩

end

end Sys2Proof.Machine
end

section
/-!
SUPPORT. Length framing (41_framing.md R130 to R136). DFR_LP reads ASCII digits back as the number they write
(`declaredLength_digits`), and takes nothing else for digits (`digits_of_declaredLength`).
-/

namespace Sys2Proof.Machine

/-! ### One digit -/

/-- The bits of an ASCII digit. -/
def digitBits (d : Nat) : List Bit := bytebits (asciiDigit d)

@[simp] theorem digitBits_length (d : Nat) : (digitBits d).length = 8 := rfl

@[simp] theorem digitOf_digitBits {d : Nat} (hd : d ≤ 9) : digitOf (digitBits d) = some d := by
  interval_cases d <;> rfl

/-- Only the ASCII digits read as digits (41_framing.md R132). -/
theorem digitOf_eq_some {b : List Bit} {d : Nat} (hb : b.length = 8) (h : digitOf b = some d) :
    d ≤ 9 ∧ b = digitBits d := by
  simp only [digitOf] at h
  split_ifs at h with hrange
  obtain rfl : val b - 0x30 = d := Option.some.inj h
  have hval : 0x30 + (val b - 0x30) = val b := by omega
  refine ⟨by omega, ?_⟩
  rw [digitBits, asciiDigit, hval]
  exact (bytebits_bitsByte hb).symm

theorem isSome_digitOf_iff {b : List Bit} (hb : b.length = 8) :
    (digitOf b).isSome ↔ ∃ d, d ≤ 9 ∧ b = digitBits d := by
  rw [Option.isSome_iff_exists]
  constructor
  · rintro ⟨d, hd⟩
    exact ⟨d, digitOf_eq_some hb hd⟩
  · rintro ⟨d, hd, rfl⟩
    exact ⟨d, digitOf_digitBits hd⟩

/-! ### Sequences of digits -/

/-- The number that digits write, most significant first, behind those that write `acc`. -/
def digitsValue (acc : Nat) (ds : List Nat) : Nat := ds.foldl (fun acc d => 10 * acc + d) acc

theorem declaredLength_digits {acc : Nat} {ds : List Nat} (h : ∀ d ∈ ds, d ≤ 9) :
    declaredLength acc (ds.map digitBits) = .ok (digitsValue acc ds) := by
  induction ds generalizing acc with
  | nil => rfl
  | cons d ds ih =>
    obtain ⟨hd, hds⟩ := List.forall_mem_cons.1 h
    simp only [List.map_cons, declaredLength, digitOf_digitBits hd]
    exact ih hds

theorem digits_of_declaredLength {acc n : Nat} {gs : List (List Bit)} (hgs : ∀ g ∈ gs, g.length = 8)
    (h : declaredLength acc gs = .ok n) : ∃ ds : List Nat, (∀ d ∈ ds, d ≤ 9) ∧ gs = ds.map digitBits := by
  induction gs generalizing acc with
  | nil => exact ⟨[], by simp, rfl⟩
  | cons g gs ih =>
    obtain ⟨hg, hrest⟩ := List.forall_mem_cons.1 hgs
    rw [declaredLength] at h
    cases hdigit : digitOf g with
    | none => rw [hdigit] at h; cases h
    | some d =>
      rw [hdigit] at h
      obtain ⟨hd, rfl⟩ := digitOf_eq_some hg hdigit
      obtain ⟨ds, hds, rfl⟩ := ih hrest h
      exact ⟨d :: ds, List.forall_mem_cons.2 ⟨hd, hds⟩, rfl⟩

/-- A byte of the length that is no digit raises FramingError (41_framing.md R132). -/
theorem declaredLength_eq_error {acc : Nat} {gs : List (List Bit)} {e : Raise} (h : declaredLength acc gs = .error e) :
    e = framingError := by
  induction gs generalizing acc with
  | nil => cases h
  | cons g gs ih =>
    rw [declaredLength] at h
    cases hdigit : digitOf g with
    | none => rw [hdigit] at h; cases h; rfl
    | some d => rw [hdigit] at h; exact ih h

theorem fixedDigits_length (count n : Nat) : (fixedDigits count n).length = count := by
  induction count with
  | zero => rfl
  | succ count ih => rw [fixedDigits, List.length_cons, ih]

theorem fixedDigits_le (count n : Nat) : ∀ d ∈ fixedDigits count n, d ≤ 9 := by
  induction count with
  | zero => simp [fixedDigits]
  | succ count ih => exact List.forall_mem_cons.2 ⟨by omega, ih⟩

/-- `count` digits write n mod 10^count. -/
theorem digitsValue_fixedDigits (acc count n : Nat) :
    digitsValue acc (fixedDigits count n) = acc * 10 ^ count + n % 10 ^ count := by
  induction count generalizing acc with
  | zero => simp [fixedDigits, digitsValue, Nat.mod_one]
  | succ count ih =>
    have hstep : digitsValue acc (fixedDigits (count + 1) n) =
        digitsValue (10 * acc + n / 10 ^ count % 10) (fixedDigits count n) := rfl
    rw [hstep, ih, Nat.pow_succ, Nat.mod_mul]
    ring

/-! ### DFR_LP on digits and a payload -/

/-- The bits of digits. -/
def prefixBits (ds : List Nat) : List Bit := ds.flatMap digitBits

theorem prefixBits_eq_flatten (ds : List Nat) : prefixBits ds = (ds.map digitBits).flatten := rfl

@[simp] theorem prefixBits_length (ds : List Nat) : (prefixBits ds).length = 8 * ds.length := by
  simp [prefixBits, List.length_flatMap, Nat.mul_comm]

theorem groups_prefixBits (ds : List Nat) (rest : List Bit) :
    groups 8 ds.length (prefixBits ds ++ rest) = ds.map digitBits := by
  have h := groups_append (ds.map digitBits) rest (n := 8) (by simp)
  rwa [List.length_map] at h

section
variable {p : Params Sample} {ds : List Nat} {payload frame : List Bit}

/-- Behind the bytes of the length the payload is kept when it has the declared number of bits (41_framing.md R132). -/
theorem stripPrefix_prefixBits (hmax : p.maxLen = none) (declared : Nat) :
    stripPrefix p ds.length declared (prefixBits ds ++ payload) =
      if declared = payload.length then .ok payload else .error framingError := by
  have hrest : (prefixBits ds ++ payload).length - 8 * ds.length = payload.length := by simp
  have hdrop : (prefixBits ds ++ payload).drop (8 * ds.length) = payload := by rw [← prefixBits_length, List.drop_left]
  rw [stripPrefix, hrest, hdrop, within_unbounded hmax, ite_not]

/-- DFR_LP on digits and a payload, once the number of digits is known. -/
theorem strip_digits (hmax : p.maxLen = none) (hds : ∀ d ∈ ds, d ≤ 9) :
    (chain (declaredLength 0 (groups 8 ds.length (prefixBits ds ++ payload))) fun declared =>
      stripPrefix p ds.length declared (prefixBits ds ++ payload)) =
      if digitsValue 0 ds = payload.length then .ok payload else .error framingError := by
  rw [groups_prefixBits, declaredLength_digits hds, chain_ok, stripPrefix_prefixBits hmax]

/-! ### Mode FIXED -/

theorem dfrLpFixed_digits (hmax : p.maxLen = none) (hcount : ds.length = p.lpDigits) (hds : ∀ d ∈ ds, d ≤ 9) :
    dfrLpFixed p (prefixBits ds ++ payload) =
      if digitsValue 0 ds = payload.length then .ok payload else .error framingError := by
  have hshort : ¬ (prefixBits ds ++ payload).length < 8 * p.lpDigits := by simp [hcount]
  rw [dfrLpFixed, if_neg hshort, ← hcount, strip_digits hmax hds]

/-- What mode FIXED does not raise on begins with digits; every error is FramingError (41_framing.md R132). -/
theorem dfrLpFixed_cases (hmax : p.maxLen = none) (frame : List Bit) :
    dfrLpFixed p frame = .error framingError ∨
      ∃ ds payload, ds.length = p.lpDigits ∧ (∀ d ∈ ds, d ≤ 9) ∧ digitsValue 0 ds = payload.length ∧
        frame = prefixBits ds ++ payload := by
  by_cases hshort : frame.length < 8 * p.lpDigits
  · exact .inl (if_pos hshort)
  have hgs : ∀ g ∈ groups 8 p.lpDigits frame, g.length = 8 := fun g => length_of_mem_groups (by omega)
  cases hdeclared : declaredLength 0 (groups 8 p.lpDigits frame) with
  | error e =>
    left
    rw [dfrLpFixed, if_neg hshort, hdeclared, chain_error, declaredLength_eq_error hdeclared]
  | ok n =>
    obtain ⟨ds, hds, hgroups⟩ := digits_of_declaredLength hgs hdeclared
    have hcount : ds.length = p.lpDigits := by
      rw [← List.length_map (f := digitBits), ← hgroups, groups_length]
    have hframe : frame = prefixBits ds ++ frame.drop (8 * p.lpDigits) := by
      rw [prefixBits_eq_flatten, ← hgroups, groups_flatten, List.take_append_drop]
    by_cases hlength : digitsValue 0 ds = (frame.drop (8 * p.lpDigits)).length
    · exact .inr ⟨ds, _, hcount, hds, hlength, hframe⟩
    · left
      rw [hframe, dfrLpFixed_digits hmax hcount hds, if_neg hlength]

theorem frmLp_fixed (hmode : p.lpMode = .fixed) (hmax : p.maxLen = none) (h : payload.length < 10 ^ p.lpDigits) :
    frmLp p payload = .ok (prefixBits (fixedDigits p.lpDigits payload.length) ++ payload) := by
  simp only [frmLp, hmode]
  rw [if_neg (by omega), within_unbounded hmax]
  rfl

/-- R136 on the bodies. -/
theorem dfrLp_frmLp_fixed (hmode : p.lpMode = .fixed) (hmax : p.maxLen = none)
    (h : payload.length < 10 ^ p.lpDigits) :
    dfrLp p (prefixBits (fixedDigits p.lpDigits payload.length) ++ payload) = .ok payload := by
  have hvalue : digitsValue 0 (fixedDigits p.lpDigits payload.length) = payload.length := by
    rw [digitsValue_fixedDigits, Nat.mod_eq_of_lt h, Nat.zero_mul, Nat.zero_add]
  simp only [dfrLp, hmode]
  rw [dfrLpFixed_digits hmax (fixedDigits_length _ _) (fixedDigits_le _ _), if_pos hvalue]

/-! ### Four digits, as `LengthFramed` says it -/

/-- `LengthFramed` is a frame of four digits in the model's terms (41_framing.md R130, R131). -/
theorem lengthFramed_iff :
    LengthFramed frame payload ↔ ∃ ds, ds.length = 4 ∧ (∀ d ∈ ds, d ≤ 9) ∧ digitsValue 0 ds = payload.length ∧
      frame = prefixBits ds ++ payload := by
  have hbits (ds : List Nat) : (ds.map fun d => BitVec.ofNat 8 (0x30 + d)).flatMap bytebits = prefixBits ds := by
    rw [List.flatMap_map]; rfl
  have hvalue (d3 d2 d1 d0 : Nat) : digitsValue 0 [d3, d2, d1, d0] = 1000 * d3 + 100 * d2 + 10 * d1 + d0 := by
    simp only [digitsValue, List.foldl_cons, List.foldl_nil]; ring
  simp only [LengthFramed, msbFirst_iff, hbits]
  constructor
  · rintro ⟨d3, d2, d1, d0, h3, h2, h1, h0, hlength, digits, rfl, rfl⟩
    exact ⟨[d3, d2, d1, d0], rfl, by simp [h3, h2, h1, h0], by rw [hvalue, hlength], rfl⟩
  · rintro ⟨ds, hcount, hds, hlength, rfl⟩
    obtain ⟨d3, d2, d1, d0, rfl⟩ := List.length_eq_four.1 hcount
    simp only [List.forall_mem_cons] at hds
    obtain ⟨h3, h2, h1, h0, -⟩ := hds
    exact ⟨d3, d2, d1, d0, h3, h2, h1, h0, by rw [← hlength, hvalue], _, rfl, rfl⟩

end

/-- Settles O14. -/
theorem frmLpPrependsTheDecimalLength : Obligations.FrmLpPrependsTheDecimalLength := by
  intro s payload hin
  constructor
  · intro hlong
    have hbody : frmLp Config.build payload = .error framingError := if_pos hlong
    exact congrArg _ (runStage_bits_of_error hin hbody)
  · intro hshort
    refine ⟨prefixBits (fixedDigits 4 payload.length) ++ payload, lengthFramed_iff.2 ⟨_, fixedDigits_length _ _,
      fixedDigits_le _ _, ?_, rfl⟩, ?_⟩
    · rw [digitsValue_fixedDigits]; omega
    · exact congrArg _ (runStage_bits_of_ok hin (frmLp_fixed (p := Config.build) rfl rfl hshort))

/-- Settles O15: what DFR_LP does not raise on is a frame. -/
theorem dfrLpAcceptsExactlyItsFrames : Obligations.DfrLpAcceptsExactlyItsFrames := by
  intro s frame hin
  constructor
  · intro payload hframed
    obtain ⟨ds, hcount, hds, hlength, rfl⟩ := lengthFramed_iff.1 hframed
    have hbody : dfrLp Config.build (prefixBits ds ++ payload) = .ok payload :=
      (dfrLpFixed_digits rfl hcount hds).trans (if_pos hlength)
    exact congrArg _ (runStage_bits_of_ok hin hbody)
  · intro hnone
    obtain hbody | ⟨ds, payload, hframed⟩ := dfrLpFixed_cases (p := Config.build) rfl frame
    · exact congrArg _ (runStage_bits_of_error (body := dfrLp Config.build) hin hbody)
    · exact absurd ⟨payload, lengthFramed_iff.2 ⟨ds, hframed⟩⟩ hnone

/-- Settles O16. -/
theorem fixedLengthPrefixRoundTrips : Obligations.FixedLengthPrefixRoundTrips :=
  fun _ _ hmode hmax h => ⟨_, fun _ hin => runStage_bits_of_ok hin (frmLp_fixed hmode hmax h),
    fun _ hin => runStage_bits_of_ok hin (dfrLp_frmLp_fixed hmode hmax h)⟩

/-! ### Mode REFERENCE -/

/-- The digits of the payload's length in mode REFERENCE (41_framing.md R133). -/
def decimalDigits (n : Nat) : List Nat := decimalDigitsFrom (n + 1) n []

theorem decimalDigits_of_lt_ten {n : Nat} (h : n < 10) : decimalDigits n = [n] := by
  rw [decimalDigits, decimalDigitsFrom, if_pos h]

theorem decimalDigitsFrom_of_lt_hundred {fuel n : Nat} (hlow : 10 ≤ n) (hhigh : n < 100) (hfuel : 2 ≤ fuel)
    (acc : List Nat) : decimalDigitsFrom fuel n acc = n / 10 :: n % 10 :: acc := by
  obtain ⟨fuel, rfl⟩ : ∃ k, fuel = k + 2 := ⟨fuel - 2, by omega⟩
  rw [decimalDigitsFrom, if_neg (by omega), decimalDigitsFrom, if_pos (by omega)]

theorem decimalDigits_of_lt_hundred {n : Nat} (hlow : 10 ≤ n) (hhigh : n < 100) :
    decimalDigits n = [n / 10, n % 10] := decimalDigitsFrom_of_lt_hundred hlow hhigh (by omega) []

/-- From 10 on there are two digits at least. -/
theorem decimalDigitsFrom_of_ten_le {fuel n : Nat} (hn : 10 ≤ n) (hfuel : n < fuel) (acc : List Nat) :
    ∃ d e rest, d ≤ 9 ∧ e ≤ 9 ∧ decimalDigitsFrom fuel n acc = d :: e :: rest := by
  induction fuel generalizing n acc with
  | zero => omega
  | succ fuel ih =>
    by_cases hhigh : n < 100
    · exact ⟨n / 10, n % 10, acc, by omega, by omega, decimalDigitsFrom_of_lt_hundred hn hhigh (by omega) acc⟩
    · rw [decimalDigitsFrom, if_neg (by omega)]
      exact ih (by omega) (by omega) _

section
variable {p : Params Sample} {payload : List Bit}

theorem frmLp_reference (hmode : p.lpMode = .reference) (hmax : p.maxLen = none) (payload : List Bit) :
    frmLp p payload = .ok (prefixBits (decimalDigits payload.length) ++ payload) := by
  simp only [frmLp, hmode]
  rw [within_unbounded hmax]
  rfl

theorem dfrLp_reference (hmode : p.lpMode = .reference) (frame : List Bit) :
    dfrLp p frame = dfrLpReference p frame := by
  simp only [dfrLp, hmode]

/-- Two digits are both read as the length (41_framing.md R134). -/
theorem dfrLpReference_two (hmax : p.maxLen = none) {d e : Nat} (hd : d ≤ 9) (he : e ≤ 9) :
    dfrLpReference p (prefixBits [d, e] ++ payload) =
      if 10 * d + e = payload.length then .ok payload else .error framingError := by
  have hlength : (prefixBits [d, e] ++ payload).length = 16 + payload.length := by simp
  have hsecond : ((prefixBits [d, e] ++ payload).drop 8).take 8 = digitBits e := rfl
  have hcount : referencePrefixBytes (prefixBits [d, e] ++ payload) = [d, e].length := by
    rw [referencePrefixBytes, hsecond, digitOf_digitBits he, if_pos ⟨by omega, rfl⟩]
    rfl
  have hvalue : digitsValue 0 [d, e] = 10 * d + e := by simp [digitsValue]
  have hdigits := strip_digits (ds := [d, e]) (payload := payload) hmax (by simp [hd, he])
  rw [hvalue, ← hcount] at hdigits
  rw [dfrLpReference, if_neg (by omega)]
  exact hdigits

/-- One digit is read as the length when no digit byte follows (41_framing.md R134). -/
theorem dfrLpReference_one (hmax : p.maxLen = none) {d : Nat} (hd : d ≤ 9)
    (hnext : payload.length < 8 ∨ digitOf (payload.take 8) = none) :
    dfrLpReference p (prefixBits [d] ++ payload) = if d = payload.length then .ok payload else .error framingError := by
  have hlength : (prefixBits [d] ++ payload).length = 8 + payload.length := by simp
  have hsecond : ((prefixBits [d] ++ payload).drop 8).take 8 = payload.take 8 := rfl
  have hcount : referencePrefixBytes (prefixBits [d] ++ payload) = [d].length := by
    rw [referencePrefixBytes, hsecond, hlength, if_neg]
    · rfl
    · rintro ⟨hlong, hdigit⟩
      rcases hnext with h | h
      · omega
      · rw [h] at hdigit; cases hdigit
  have hvalue : digitsValue 0 [d] = d := by simp [digitsValue]
  have hdigits := strip_digits (ds := [d]) (payload := payload) hmax (by simp [hd])
  rw [hvalue, ← hcount] at hdigits
  rw [dfrLpReference, if_neg (by omega)]
  exact hdigits

/-- `ReferenceFails` in the model's terms (41_framing.md R135). -/
theorem referenceFails_iff :
    ReferenceFails payload ↔ 100 ≤ payload.length ∨
      ((payload.length = 8 ∨ payload.length = 9) ∧ ∃ d, d ≤ 9 ∧ payload.take 8 = digitBits d) := by
  have hbits (d : Nat) : [BitVec.ofNat 8 (0x30 + d)].flatMap bytebits = digitBits d := List.flatMap_singleton _ _
  simp only [ReferenceFails, msbFirst_iff, hbits]

/-- From 100 bits on the declared length, of two digits, is too small. -/
theorem dfrLpReference_of_hundred_le (hmax : p.maxLen = none) (h : 100 ≤ payload.length) :
    dfrLpReference p (prefixBits (decimalDigits payload.length) ++ payload) = .error framingError := by
  obtain ⟨d, e, rest, hd, he, hdigits⟩ := decimalDigitsFrom_of_ten_le (n := payload.length) (by omega)
    (Nat.lt_succ_self _) []
  have hframe : prefixBits (decimalDigits payload.length) ++ payload =
      prefixBits [d, e] ++ (prefixBits rest ++ payload) := by
    rw [decimalDigits, hdigits]; simp [prefixBits]
  rw [hframe, dfrLpReference_two hmax hd he, if_neg]
  simp
  omega

/-- A payload of 8 or 9 bits that begins with a digit byte gives that byte to the length. -/
theorem dfrLpReference_of_digit (hmax : p.maxLen = none) (hlength : payload.length = 8 ∨ payload.length = 9) {d : Nat}
    (hd : d ≤ 9) (hdigit : payload.take 8 = digitBits d) :
    dfrLpReference p (prefixBits (decimalDigits payload.length) ++ payload) = .error framingError := by
  have hpayload : payload = digitBits d ++ payload.drop 8 := by rw [← hdigit, List.take_append_drop]
  have hframe : prefixBits [payload.length] ++ payload = prefixBits [payload.length, d] ++ payload.drop 8 :=
    calc prefixBits [payload.length] ++ payload
      _ = prefixBits [payload.length] ++ (digitBits d ++ payload.drop 8) := congrArg _ hpayload
      _ = prefixBits [payload.length, d] ++ payload.drop 8 := by simp [prefixBits]
  rw [decimalDigits_of_lt_ten (by omega), hframe, dfrLpReference_two hmax (by omega) hd, if_neg]
  simp
  omega

theorem dfrLpReference_of_not_fails (hmax : p.maxLen = none) (h : ¬ ReferenceFails payload) :
    dfrLpReference p (prefixBits (decimalDigits payload.length) ++ payload) = .ok payload := by
  obtain ⟨hlong, hdigit⟩ := not_or.1 (mt referenceFails_iff.2 h)
  by_cases hten : payload.length < 10
  · rw [decimalDigits_of_lt_ten hten, dfrLpReference_one hmax (by omega), if_pos rfl]
    refine (Nat.lt_or_ge payload.length 8).imp_right fun hbyte => ?_
    have htake : (payload.take 8).length = 8 := by simpa using hbyte
    rw [← Option.not_isSome_iff_eq_none, isSome_digitOf_iff htake]
    exact fun hd => hdigit ⟨by omega, hd⟩
  · rw [decimalDigits_of_lt_hundred (by omega) (by omega), dfrLpReference_two hmax (by omega) (by omega), if_pos]
    omega

end

/-- Settles O17. -/
theorem referencePrefixRoundTripFailsExactly : Obligations.ReferencePrefixRoundTripFailsExactly := by
  intro p payload hmode hmax
  refine ⟨_, fun s hin => runStage_bits_of_ok hin (frmLp_reference hmode hmax payload), fun hfails s hin => ?_,
    fun hfails s hin => ?_⟩
  · refine runStage_bits_of_error (body := dfrLp p) (e := framingError) hin ?_
    rw [dfrLp_reference hmode]
    obtain hlong | ⟨hlength, d, hd, hdigit⟩ := referenceFails_iff.1 hfails
    · exact dfrLpReference_of_hundred_le hmax hlong
    · exact dfrLpReference_of_digit hmax hlength hd hdigit
  · refine runStage_bits_of_ok (body := dfrLp p) hin ?_
    rw [dfrLp_reference hmode]
    exact dfrLpReference_of_not_fails hmax hfails

end Sys2Proof.Machine
end

section
/-!
SUPPORT. The markers, byte-stuffing and bit-stuffing (41_framing.md R140 to R153). A deframer between the markers is a
function of the body; `Unescapes` and `Unstuffs` are its graph, so a round trip is a derivation of the relation.
-/

namespace Sys2Proof.Machine

/-! ### Markers -/

@[simp] theorem build_flagBits : flagBits Config.build = flagPattern := rfl

@[simp] theorem build_escBits : escBits Config.build = escPattern := rfl

@[simp] theorem build_stuffedFlag : stuffedFlag Config.build = stuffedPattern := rfl

/-- The body between two FLAGs (41_framing.md R141, R151). -/
def marked (body : List Bit) : List Bit := flagPattern ++ body ++ flagPattern

theorem markerCheck_eq (f : List Bit) :
    markerCheck Config.build f = if f.length < 16 then .error framingError
      else if f.take 8 ≠ flagPattern then .error framingError
      else if f.drop (f.length - 8) ≠ flagPattern then .error framingError
      else .ok ((f.drop 8).take (f.length - 16)) := rfl

theorem markerCheck_of_bad {f : List Bit} (h : BadMarkers f) : markerCheck Config.build f = .error framingError := by
  rw [markerCheck_eq]
  split_ifs with hshort hfirst hlast
  · rfl
  · rfl
  · rfl
  · exact absurd h (by rintro (h | h | h) <;> contradiction)

theorem exists_marked_of_not_bad {f : List Bit} (h : ¬ BadMarkers f) : ∃ body, f = marked body := by
  simp only [BadMarkers, not_or, not_lt, not_not] at h
  obtain ⟨hlong, hfirst, hlast⟩ := h
  refine ⟨(f.drop 8).take (f.length - 16), ?_⟩
  have hrest : f.drop 8 = (f.drop 8).take (f.length - 16) ++ flagPattern := by
    conv_lhs => rw [← List.take_append_drop (f.length - 16) (f.drop 8)]
    rw [List.drop_drop, ← hlast, show 8 + (f.length - 16) = f.length - 8 by omega]
  calc f
    _ = f.take 8 ++ f.drop 8 := (List.take_append_drop 8 f).symm
    _ = marked ((f.drop 8).take (f.length - 16)) := by
      rw [hfirst, marked, List.append_assoc]
      exact congrArg _ hrest

theorem markerCheck_marked (body : List Bit) : markerCheck Config.build (marked body) = .ok body := by
  have hlength : (marked body).length = 16 + body.length := by simp [marked, flagPattern]; omega
  have hfirst : (marked body).take 8 = flagPattern := rfl
  have hlast : (marked body).drop ((marked body).length - 8) = flagPattern := by
    rw [hlength, show 16 + body.length - 8 = (flagPattern ++ body).length by simp [flagPattern]; omega]
    exact List.drop_left
  have hbody : ((marked body).drop 8).take (16 + body.length - 16) = body := by
    rw [Nat.add_sub_cancel_left]
    exact List.take_left
  rw [markerCheck_eq, hlast, hfirst, hlength, if_neg (by omega), if_neg (by simp), if_neg (by simp), hbody]

/-! ### Bytes and the tail -/

section
variable {b rest t : List Bit}

theorem wholeGroups_of_short (h : t.length < 8) : wholeGroups 8 t = [] ∧ groupTail 8 t = t := by
  simpa using wholeGroups_append (n := 8) [] t (by simp) h

theorem wholeGroups_byte_append (hb : b.length = 8) :
    wholeGroups 8 (b ++ rest) = b :: wholeGroups 8 rest ∧ groupTail 8 (b ++ rest) = groupTail 8 rest := by
  have htail : (groupTail 8 rest).length < 8 := by rw [groupTail_length]; omega
  have h := wholeGroups_append (b :: wholeGroups 8 rest) (groupTail 8 rest)
    (List.forall_mem_cons.2 ⟨hb, fun _ => length_of_mem_wholeGroups⟩) htail
  rwa [List.flatten_cons, List.append_assoc, wholeGroups_append_tail] at h

end

/-- Bits are fewer than a byte, or a byte and more bits: the scans of R143 and R152 go along this. -/
theorem bytes_induction {motive : List Bit → Prop} (short : ∀ t, t.length < 8 → motive t)
    (long : ∀ b rest, b.length = 8 → (∀ x, x.length ≤ rest.length → motive x) → motive (b ++ rest))
    (x : List Bit) : motive x := by
  induction hn : x.length using Nat.strong_induction_on generalizing x with
  | _ n ih =>
    by_cases hshort : x.length < 8
    · exact short x hshort
    · rw [← List.take_append_drop 8 x]
      refine long _ _ (by simp; omega) fun y hy => ih y.length ?_ y rfl
      rw [List.length_drop] at hy
      omega

theorem map_wholeGroups_getElem? {α β : Type} {n j : Nat} (f : List α → β) (s : List α) (hj : j < s.length / n) :
    ((wholeGroups n s).map f)[j]? = some (f (slice s (n * j) n)) := by
  rw [List.getElem?_map, wholeGroups_getElem? s hj, Option.map_some]

/-! ### FRM_BYTE -/

/-- FRM_BYTE's body between the markers (41_framing.md R141). -/
def escaped (payload : List Bit) : List Bit :=
  (wholeGroups 8 payload).flatMap (escapeByte Config.build) ++ groupTail 8 payload

theorem escapeByte_build (b : List Bit) :
    escapeByte Config.build b = if b = flagPattern ∨ b = escPattern then escPattern ++ b else b := rfl

theorem frmByte_build (payload : List Bit) : frmByte Config.build payload = .ok (marked (escaped payload)) := by
  rw [frmByte, within_build, build_flagBits, marked, escaped, List.append_assoc flagPattern]

section
variable {s : State} {payload frame : List Bit}

theorem exec_frmByte_ended (h : s.inBuf = .bit payload) :
    exec .frmByte s = .next (s.ended 0x0A00#16 (.bit (marked (escaped payload))) .none) :=
  congrArg _ (runStage_bits_of_ok h (frmByte_build payload))

theorem exec_dfrByte_of_ok (h : s.inBuf = .bit frame) (hf : dfrByte Config.build frame = .ok payload) :
    exec .dfrByte s = .next (s.ended 0x0B00#16 (.bit payload) .none) :=
  congrArg _ (runStage_bits_of_ok h hf)

theorem exec_dfrByte_of_error (h : s.inBuf = .bit frame) (hf : dfrByte Config.build frame = .error framingError) :
    exec .dfrByte s = .next (s.ended 0x0B31#16 .none .none) :=
  congrArg _ (runStage_bits_of_error h hf)

theorem exec_frmBit_of_ok (h : s.inBuf = .bit payload) (hf : frmBit Config.build payload = .ok frame) :
    exec .frmBit s = .next (s.ended 0x0C00#16 (.bit frame) .none) :=
  congrArg _ (runStage_bits_of_ok h hf)

theorem exec_dfrBit_of_ok (h : s.inBuf = .bit frame) (hf : dfrBit Config.build frame = .ok payload) :
    exec .dfrBit s = .next (s.ended 0x0D00#16 (.bit payload) .none) :=
  congrArg _ (runStage_bits_of_ok h hf)

theorem exec_dfrBit_of_error (h : s.inBuf = .bit frame) (hf : dfrBit Config.build frame = .error framingError) :
    exec .dfrBit s = .next (s.ended 0x0D31#16 .none .none) :=
  congrArg _ (runStage_bits_of_error h hf)

end

/-- Settles O18. -/
theorem frmByteEscapesMarkerBytes : Obligations.FrmByteEscapesMarkerBytes := by
  intro s payload hin
  refine ⟨(wholeGroups 8 payload).map (escapeByte Config.build), ?_, fun j hj => ?_, ?_⟩
  · rw [List.length_map, wholeGroups_length]
  · rw [map_wholeGroups_getElem? _ _ hj, escapeByte_build]
  · rw [exec_frmByte_ended hin, marked, escaped, groupTail, List.flatMap_def, ← List.append_assoc flagPattern]

/-! ### DFR_BYTE -/

/-- DFR_BYTE on the body (41_framing.md R143). -/
def unescapeBody (body : List Bit) : Result (List Bit) :=
  chain (unescape Config.build false (wholeGroups 8 body)) fun bytes => .ok (bytes ++ groupTail 8 body)

theorem dfrByte_marked (body : List Bit) : dfrByte Config.build (marked body) = unescapeBody body := by
  rw [dfrByte, markerCheck_marked, chain_ok]
  rfl

theorem dfrByte_of_bad {f : List Bit} (h : BadMarkers f) : dfrByte Config.build f = .error framingError := by
  rw [dfrByte, markerCheck_of_bad h, chain_error]

section
variable {b rest t body payload : List Bit}

theorem unescapeBody_of_short (ht : t.length < 8) : unescapeBody t = .ok t := by
  obtain ⟨hgroups, htail⟩ := wholeGroups_of_short ht
  rw [unescapeBody, hgroups, htail]
  rfl

theorem unescapeBody_byte (hb : b.length = 8) (hne : b ≠ escPattern) :
    unescapeBody (b ++ rest) = chain (unescapeBody rest) fun out => .ok (b ++ out) := by
  obtain ⟨hgroups, htail⟩ := wholeGroups_byte_append (rest := rest) hb
  simp only [unescapeBody, hgroups, htail, unescape, build_escBits, hne, if_false, chain_assoc, chain_ok,
    List.append_assoc]

theorem unescapeBody_escaped (hb : b.length = 8) :
    unescapeBody (escPattern ++ b ++ rest) = chain (unescapeBody rest) fun out => .ok (b ++ out) := by
  obtain ⟨hgroups, htail⟩ := wholeGroups_byte_append (b := escPattern) (rest := b ++ rest) rfl
  obtain ⟨hgroups', htail'⟩ := wholeGroups_byte_append (rest := rest) hb
  simp only [List.append_assoc escPattern, unescapeBody, hgroups, htail, hgroups', htail', unescape, build_escBits,
    if_true, chain_assoc, chain_ok, List.append_assoc b]

/-- An ESC that escapes nothing (41_framing.md R143). -/
theorem unescapeBody_dangling (ht : t.length < 8) : unescapeBody (escPattern ++ t) = .error framingError := by
  obtain ⟨hgroups, -⟩ := wholeGroups_byte_append (b := escPattern) (rest := t) rfl
  rw [unescapeBody, hgroups, (wholeGroups_of_short ht).1]
  rfl

theorem unescapeBody_of_unescapes (h : Unescapes body payload) : unescapeBody body = .ok payload := by
  induction h with
  | tail t ht => exact unescapeBody_of_short ht
  | escaped b rest out hb _ ih => rw [unescapeBody_escaped hb, ih, chain_ok]
  | byte b rest out hb hne _ ih => rw [unescapeBody_byte hb hne, ih, chain_ok]

theorem unescapes_or_error (body : List Bit) :
    (∃ payload, Unescapes body payload) ∨ unescapeBody body = .error framingError := by
  induction body using bytes_induction with
  | short t ht => exact .inl ⟨t, .tail t ht⟩
  | long b rest hb ih =>
    by_cases hesc : b = escPattern
    · subst hesc
      induction rest using bytes_induction with
      | short t ht => exact .inr (unescapeBody_dangling ht)
      | long b' rest' hb' _ =>
        rw [← List.append_assoc]
        obtain ⟨out, hout⟩ | herror := ih rest' (by simp)
        · exact .inl ⟨b' ++ out, .escaped b' rest' out hb' hout⟩
        · exact .inr (by rw [unescapeBody_escaped hb', herror, chain_error])
    · obtain ⟨out, hout⟩ | herror := ih rest le_rfl
      · exact .inl ⟨b ++ out, .byte b rest out hb hesc hout⟩
      · exact .inr (by rw [unescapeBody_byte hb hesc, herror, chain_error])

end

/-! ### DFR_BIT -/

/-- DFR_BIT on the body (41_framing.md R152). -/
def unstuffBody (body : List Bit) : List Bit := unstuff Config.build body.length body

theorem dfrBit_marked (body : List Bit) : dfrBit Config.build (marked body) = .ok (unstuffBody body) := by
  rw [dfrBit, markerCheck_marked, chain_ok, within_build, unstuffBody]

theorem dfrBit_of_bad {f : List Bit} (h : BadMarkers f) : dfrBit Config.build f = .error framingError := by
  rw [dfrBit, markerCheck_of_bad h, chain_error]

section
variable {body payload : List Bit}

/-- The scan of the model is the cursor's, with fuel for every turn. -/
theorem unstuff_of_unstuffs (h : Unstuffs body payload) {fuel : Nat} (hfuel : body.length ≤ fuel) :
    unstuff Config.build fuel body = payload := by
  induction h generalizing fuel with
  | tail t ht =>
    cases fuel with
    | zero => rfl
    | succ fuel => rw [unstuff, if_pos ht]
  | stuffed rest out _ ih =>
    have hlength : (stuffedPattern ++ rest).length = 9 + rest.length := List.length_append
    obtain ⟨fuel, rfl⟩ : ∃ k, fuel = k + 1 := ⟨fuel - 1, by omega⟩
    have htake : (stuffedPattern ++ rest).take 9 = stuffedFlag Config.build := rfl
    rw [unstuff, if_neg (by omega), if_pos ⟨by omega, htake⟩]
    exact congrArg _ (ih (by omega))
  | byte b rest out hb hne _ ih =>
    have hlength : (b ++ rest).length = 8 + rest.length := by rw [List.length_append, hb]
    obtain ⟨fuel, rfl⟩ : ∃ k, fuel = k + 1 := ⟨fuel - 1, by omega⟩
    have hplain : ¬ (9 ≤ (b ++ rest).length ∧ (b ++ rest).take 9 = stuffedFlag Config.build) :=
      fun h => hne (List.prefix_iff_eq_take.2 h.2.symm)
    rw [unstuff, if_neg (by omega), if_neg hplain, List.take_left' hb, List.drop_left' hb, ih (by omega)]

theorem unstuffBody_of_unstuffs (h : Unstuffs body payload) : unstuffBody body = payload :=
  unstuff_of_unstuffs h le_rfl

theorem exists_unstuffs (body : List Bit) : ∃ payload, Unstuffs body payload := by
  induction body using bytes_induction with
  | short t ht => exact ⟨t, .tail t ht⟩
  | long b rest hb ih =>
    by_cases hstuffed : stuffedPattern <+: b ++ rest
    · obtain ⟨rest', hrest'⟩ := hstuffed
      have hlength := congrArg List.length hrest'
      rw [List.length_append, List.length_append, hb] at hlength
      obtain ⟨out, hout⟩ := ih rest' (by simp [stuffedPattern] at hlength; omega)
      exact ⟨flagPattern ++ out, hrest' ▸ Unstuffs.stuffed rest' out hout⟩
    · obtain ⟨out, hout⟩ := ih rest le_rfl
      exact ⟨_, .byte b rest out hb hstuffed hout⟩

end

/-- Settles O19. -/
theorem dfrByteRemovesEachEscape : Obligations.DfrByteRemovesEachEscape := by
  intro s frame hin
  constructor
  · exact fun hbad => ⟨exec_dfrByte_of_error hin (dfrByte_of_bad hbad), exec_dfrBit_of_error hin (dfrBit_of_bad hbad)⟩
  · intro hgood
    obtain ⟨body, rfl⟩ := exists_marked_of_not_bad hgood
    refine ⟨body, rfl, fun payload h => exec_dfrByte_of_ok hin ?_, fun hnone => exec_dfrByte_of_error hin ?_⟩
    · rw [dfrByte_marked, unescapeBody_of_unescapes h]
    · rw [dfrByte_marked, (unescapes_or_error body).resolve_left hnone]

/-- Settles O22. -/
theorem dfrBitUnstuffsAtTheCursor : Obligations.DfrBitUnstuffsAtTheCursor := by
  intro s frame hin
  constructor
  · exact fun hbad => exec_dfrBit_of_error hin (dfrBit_of_bad hbad)
  · intro hgood
    obtain ⟨body, rfl⟩ := exists_marked_of_not_bad hgood
    obtain ⟨payload, hpayload⟩ := exists_unstuffs body
    refine ⟨body, payload, rfl, hpayload, exec_dfrBit_of_ok hin ?_⟩
    rw [dfrBit_marked, unstuffBody_of_unstuffs hpayload]

/-! ### FRM_BIT -/

/-- FRM_BIT's body between the markers (41_framing.md R151). -/
def stuffed (payload : List Bit) : List Bit :=
  (wholeGroups 8 payload).flatMap (stuffByte Config.build) ++ groupTail 8 payload

theorem stuffByte_build (b : List Bit) :
    stuffByte Config.build b = if b = flagPattern then stuffedPattern else b := rfl

theorem frmBit_build (payload : List Bit) : frmBit Config.build payload = .ok (marked (stuffed payload)) := by
  rw [frmBit, within_build, build_flagBits, marked, stuffed, List.append_assoc flagPattern]

/-- Settles O21. -/
theorem frmBitStuffsFlagBytes : Obligations.FrmBitStuffsFlagBytes := by
  intro s payload hin
  refine ⟨(wholeGroups 8 payload).map (stuffByte Config.build), ?_, fun j hj => ?_, ?_⟩
  · rw [List.length_map, wholeGroups_length]
  · rw [map_wholeGroups_getElem? _ _ hj, stuffByte_build]
  · rw [exec_frmBit_of_ok hin (frmBit_build payload), marked, stuffed, groupTail, List.flatMap_def,
      ← List.append_assoc flagPattern]

/-! ### Round trips -/

section
variable {gs : List (List Bit)} {tail : List Bit}

/-- What FRM_BYTE sends for a payload reads back as the payload, byte by byte. -/
theorem unescapes_escapeBytes (hgs : ∀ g ∈ gs, g.length = 8) (ht : tail.length < 8) :
    Unescapes (gs.flatMap (escapeByte Config.build) ++ tail) (gs.flatten ++ tail) := by
  induction gs with
  | nil => exact .tail tail ht
  | cons b gs ih =>
    obtain ⟨hb, hrest⟩ := List.forall_mem_cons.1 hgs
    rw [List.flatMap_cons, List.flatten_cons, List.append_assoc, List.append_assoc, escapeByte_build]
    split_ifs with hmarker
    · exact .escaped b _ _ hb (ih hrest)
    · exact .byte b _ _ hb (fun h => hmarker (.inr h)) (ih hrest)

/-- What FRM_BIT sends for a payload reads back as the payload: the first 8 bits of P9 are FLAG, so no other byte is
taken for P9. -/
theorem unstuffs_stuffBytes (hgs : ∀ g ∈ gs, g.length = 8) (ht : tail.length < 8) :
    Unstuffs (gs.flatMap (stuffByte Config.build) ++ tail) (gs.flatten ++ tail) := by
  induction gs with
  | nil => exact .tail tail ht
  | cons b gs ih =>
    obtain ⟨hb, hrest⟩ := List.forall_mem_cons.1 hgs
    rw [List.flatMap_cons, List.flatten_cons, List.append_assoc, List.append_assoc, stuffByte_build]
    split_ifs with hflag
    · rw [hflag]
      exact .stuffed _ _ (ih hrest)
    · refine .byte b _ _ hb (fun hprefix => hflag ?_) (ih hrest)
      have htake := congrArg (List.take 8) (List.prefix_iff_eq_take.1 hprefix)
      rw [List.take_take, show min 8 stuffedPattern.length = 8 from rfl, List.take_left' hb] at htake
      exact htake.symm

end

theorem dfrByte_frmByte (payload : List Bit) :
    dfrByte Config.build (marked (escaped payload)) = .ok payload := by
  obtain ⟨gs, tail, rfl, hgs, ht, hgroups, htail⟩ := exists_groups_tail (n := 8) (by decide) payload
  rw [dfrByte_marked, escaped, hgroups, htail, unescapeBody_of_unescapes (unescapes_escapeBytes hgs ht)]

theorem dfrBit_frmBit (payload : List Bit) :
    dfrBit Config.build (marked (stuffed payload)) = .ok payload := by
  obtain ⟨gs, tail, rfl, hgs, ht, hgroups, htail⟩ := exists_groups_tail (n := 8) (by decide) payload
  rw [dfrBit_marked, stuffed, hgroups, htail, unstuffBody_of_unstuffs (unstuffs_stuffBytes hgs ht)]

theorem gives_of_ended {i : Instr} {b b' : Buffer} {w : Word} (hw : statusErr w = 0#4)
    (h : ∀ s : State, s.inBuf = b → exec i s = .next (s.ended w b' .none)) : Gives i b b' :=
  fun s hin => ⟨_, h s hin, hw, rfl⟩

/-- Settles O20. -/
theorem byteStuffingRoundTrips : Obligations.ByteStuffingRoundTrips :=
  fun payload => ⟨_, gives_of_ended (by decide) fun _ hin => exec_frmByte_ended hin,
    gives_of_ended (by decide) fun _ hin => exec_dfrByte_of_ok hin (dfrByte_frmByte payload)⟩

/-- Settles O23. -/
theorem bitStuffingRoundTrips : Obligations.BitStuffingRoundTrips :=
  fun payload => ⟨_, gives_of_ended (by decide) fun _ hin => exec_frmBit_of_ok hin (frmBit_build payload),
    gives_of_ended (by decide) fun _ hin => exec_dfrBit_of_ok hin (dfrBit_frmBit payload)⟩

end Sys2Proof.Machine
end

section
/-!
SUPPORT. Coded bits with one or two bits behind them (41_framing.md R132, R142, R152; 42_error_control.md R171, R183,
R194): correction passes the added bits through, detection keeps as many bits behind the frame as were added, and no
deframer accepts a frame with one or two bits behind it. So DECODE raises, whatever the added bits are.
-/

namespace Sys2Proof.Machine

/-! ### Correction -/

/-- The codeword of 8 data bits, written out (42_error_control.md R190). -/
theorem hamCW_eq (a b c d e f g h : Bit) :
    hamCW [a, b, c, d, e, f, g, h] =
      [a ^^ (b ^^ (d ^^ (e ^^ g))), a ^^ (c ^^ (d ^^ (f ^^ g))), a, b ^^ (c ^^ (d ^^ h)), b, c, d,
        e ^^ (f ^^ (g ^^ h)), e, f, g, h] := by
  simp [hamCW, parityPositions, placeData, dataPositions, covered, xorOver, atPosition]

/-- The syndrome of 12 bits, written out: the coverage of each parity position (42_error_control.md R190, R192). -/
theorem syndrome_eq (p1 p2 a p4 b c d p8 e f g h : Bit) :
    syndrome [p1, p2, a, p4, b, c, d, p8, e, f, g, h] =
      (p1 ^^ (a ^^ (b ^^ (d ^^ (e ^^ g))))).toNat + 2 * (p2 ^^ (a ^^ (c ^^ (d ^^ (f ^^ g))))).toNat +
        4 * (p4 ^^ (b ^^ (c ^^ (d ^^ h)))).toNat + 8 * (p8 ^^ (e ^^ (f ^^ (g ^^ h)))).toNat := by
  simp [syndrome, parityPositions, covered, xorOver, atPosition, Nat.add_assoc]

/-- A codeword has syndrome 0, so nothing is flipped (42_error_control.md R193). -/
theorem hamFix_hamCW {d : List Bit} (hd : d.length = 8) : hamFix (hamCW d) = d := by
  match d, hd with
  | [a, b, c, d, e, f, g, h], _ =>
    have hsyndrome : syndrome (hamCW [a, b, c, d, e, f, g, h]) = 0 := by
      rw [hamCW_eq, syndrome_eq]; simp
    rw [hamFix, hsyndrome, if_neg (by decide), hamCW_eq]
    rfl
theorem hamCW_length (d : List Bit) : (hamCW d).length = 12 := by
  simp [hamCW, parityPositions, placeData]

/-- Bits behind Hamming-coded bits stay in the remainder while this stays shorter than a group
(42_error_control.md R194). -/
theorem hamDec_hamEnc_append {x coded pad : List Bit} (h : hamEnc Config.build x = .ok coded) (hpad : pad.length ≤ 4) :
    hamDec Config.build (coded ++ pad) = .ok (x ++ pad) := by
  obtain ⟨gs, tail, rfl, hgs, htail, hgroups, hrest⟩ := exists_groups_tail (n := 8) (by decide) x
  obtain rfl : gs.flatMap hamCW ++ tail = coded := by
    rw [hamEnc, within_build, hgroups, hrest] at h
    exact Except.ok.inj h
  obtain ⟨hgroups', hrest'⟩ := wholeGroups_append (n := 12) (gs.map hamCW) (tail ++ pad) (by simp [hamCW_length])
    (by rw [List.length_append]; omega)
  have hfix : gs.map (hamFix ∘ hamCW) = gs.map id :=
    List.map_congr_left fun g hg => by rw [Function.comp_apply, hamFix_hamCW (hgs g hg), id_eq]
  rw [List.flatMap_def, List.append_assoc, hamDec, within_build, hgroups', hrest', List.flatMap_def, List.map_map, hfix,
    List.map_id, List.append_assoc]

theorem corDec_corEnc_append {c : Correction} {x coded pad : List Bit} (h : corEnc Config.build c x = .ok coded)
    (hpad : pad.length ≤ 4) : corDec Config.build c (coded ++ pad) = .ok (x ++ pad) := by
  cases c with
  | none =>
    cases h
    rfl
  | hamming => exact hamDec_hamEnc_append h hpad

/-! ### Detection -/

theorem divideStep_length (r : List Bit) : (divideStep r).length = r.length - 1 := by
  unfold divideStep
  split_ifs
  · have hgen : crcGen.length = 4 := rfl
    simp only [List.length_tail, List.length_append, List.length_zipWith, List.length_take, List.length_drop, hgen]
    omega
  · exact List.length_tail

theorem divideSteps_length (n : Nat) (r : List Bit) : (divideSteps n r).length = r.length - n := by
  induction n generalizing r with
  | zero => rfl
  | succ n ih => rw [divideSteps, ih, divideStep_length]; omega

/-- The remainder of three bits or more has 3 bits (42_error_control.md R181). -/
theorem crcRem_length {w : List Bit} (h : 3 ≤ w.length) : (crcRem w).length = 3 := by
  rw [crcRem, divideSteps_length]; omega

/-- The check bits behind a frame: none, one or three (42_error_control.md R170, R182). -/
theorem exists_check_of_detEnc {d : Detection} {x det : List Bit} (h : detEnc Config.build d x = .ok det) :
    ∃ check, det = x ++ check ∧
      ∀ y out, detDec Config.build d y = .ok out → out = y.take (y.length - check.length) := by
  cases d with
  | none =>
    cases h
    refine ⟨[], (List.append_nil x).symm, fun y out hout => ?_⟩
    cases hout
    exact List.take_length.symm
  | parity =>
    cases h
    refine ⟨[_], rfl, fun y out hout => ?_⟩
    simp only [detDec, parDec, within_build] at hout
    split_ifs at hout
    exact (Except.ok.inj hout).symm
  | crc =>
    cases h
    have hlength : (crcRem (x ++ [false, false, false])).length = 3 := crcRem_length (by simp)
    refine ⟨_, rfl, fun y out hout => ?_⟩
    simp only [detDec, crcDec, within_build] at hout
    split_ifs at hout
    rw [hlength]
    exact (Except.ok.inj hout).symm

/-- Where detection accepts check bits with bits behind them, it keeps as many bits behind the frame. -/
theorem detDec_detEnc_append {d : Detection} {x det pad out : List Bit} (h : detEnc Config.build d x = .ok det)
    (hout : detDec Config.build d (det ++ pad) = .ok out) :
    ∃ pad', pad'.length = pad.length ∧ out = x ++ pad' := by
  obtain ⟨check, rfl, hdec⟩ := exists_check_of_detEnc h
  refine ⟨(check ++ pad).take pad.length, by simp, ?_⟩
  have hlength : (x ++ check ++ pad).length - check.length = x.length + pad.length := by simp; omega
  rw [hdec _ _ hout, hlength, List.append_assoc, List.take_length_add_append]

/-! ### Deframing -/

section
variable {pad : List Bit}

/-- FLAG shifted by one or two bits is not FLAG (41_framing.md R140). -/
theorem badMarkers_marked_append (body : List Bit) (hpad : pad.length = 1 ∨ pad.length = 2) :
    BadMarkers (marked body ++ pad) := by
  have hsplit : marked body ++ pad = (flagPattern ++ body) ++ (flagPattern ++ pad) := by
    rw [marked, List.append_assoc (flagPattern ++ body)]
  have hlength : (marked body ++ pad).length - 8 = (flagPattern ++ body).length + pad.length := by
    simp [marked, flagPattern]; omega
  have hlast : (marked body ++ pad).drop ((marked body ++ pad).length - 8) = (flagPattern ++ pad).drop pad.length := by
    rw [hlength, hsplit, List.drop_length_add_append]
  refine .inr (.inr ?_)
  rw [hlast]
  rcases hpad with h | h
  · obtain ⟨a, rfl⟩ := List.length_eq_one_iff.1 h
    simp [flagPattern]
  · obtain ⟨a, b, rfl⟩ := List.length_eq_two.1 h
    simp [flagPattern]

theorem deframe_frame_append {f : Framing} {x framed : List Bit} (h : frame Config.build f x = .ok framed)
    (hpad : pad.length = 1 ∨ pad.length = 2) : deframe Config.build f (framed ++ pad) = .error framingError := by
  cases f with
  | lengthPrefix =>
    have hshort : x.length < 10 ^ Config.build.lpDigits := by
      by_contra hlong
      have herror : frmLp Config.build x = .error framingError := if_pos (not_lt.1 hlong)
      exact absurd (herror.symm.trans h) nofun
    have hframed : framed = prefixBits (fixedDigits 4 x.length) ++ x :=
      (Except.ok.inj ((frmLp_fixed rfl rfl hshort).symm.trans h)).symm
    have hvalue : digitsValue 0 (fixedDigits 4 x.length) ≠ (x ++ pad).length := by
      rw [digitsValue_fixedDigits, List.length_append]
      omega
    rw [hframed, List.append_assoc]
    exact (dfrLpFixed_digits (p := Config.build) rfl (fixedDigits_length _ _) (fixedDigits_le _ _)).trans
      (if_neg hvalue)
  | byteStuffing =>
    obtain rfl := Except.ok.inj ((frmByte_build x).symm.trans h)
    exact dfrByte_of_bad (badMarkers_marked_append _ hpad)
  | bitStuffing =>
    obtain rfl := Except.ok.inj ((frmBit_build x).symm.trans h)
    exact dfrBit_of_bad (badMarkers_marked_append _ hpad)

end

/-! ### ENCODE and DECODE -/

theorem detEnc_build_ok (d : Detection) (x : List Bit) : ∃ det, detEnc Config.build d x = .ok det := by
  cases d <;> exact ⟨_, rfl⟩

theorem corEnc_build_ok (c : Correction) (x : List Bit) : ∃ coded, corEnc Config.build c x = .ok coded := by
  cases c <;> exact ⟨_, rfl⟩

/-- Only length framing has a limit, of 10000 bits (41_framing.md R131, R141, R151). -/
theorem frame_build_ok (f : Framing) {x : List Bit} (h : x.length < 10000) :
    ∃ framed, frame Config.build f x = .ok framed := by
  cases f with
  | lengthPrefix => exact ⟨_, frmLp_fixed (p := Config.build) rfl rfl h⟩
  | byteStuffing => exact ⟨_, frmByte_build x⟩
  | bitStuffing => exact ⟨_, frmBit_build x⟩

theorem encodeStages_build_ok (m : Schemes) {bytes : List Byte} (h : 8 * bytes.length < 10000) :
    ∃ coded raw, encodeStages Config.build m bytes = .ok (coded, raw) := by
  have ht2b : t2b Config.build bytes = .ok (bytes.flatMap bytebits) := rfl
  obtain ⟨framed, hframed⟩ := frame_build_ok m.frm (x := bytes.flatMap bytebits) (by rwa [flatMap_bytebits_length])
  obtain ⟨det, hdet⟩ := detEnc_build_ok m.det framed
  obtain ⟨coded, hcoded⟩ := corEnc_build_ok m.cor det
  exact ⟨coded, _, by rw [encodeStages, ht2b, chain_ok, hframed, chain_ok, hdet, chain_ok, hcoded, chain_ok]⟩

theorem decodeStages_append {m : Schemes} {bytes : List Byte} {coded raw pad : List Bit}
    (h : encodeStages Config.build m bytes = .ok (coded, raw)) (hpad : pad.length = 1 ∨ pad.length = 2) :
    ∃ e, decodeStages Config.build m (coded ++ pad) = .error e := by
  obtain ⟨x, -, h⟩ := chain_eq_ok.1 h
  obtain ⟨framed, hframed, h⟩ := chain_eq_ok.1 h
  obtain ⟨det, hdet, h⟩ := chain_eq_ok.1 h
  obtain ⟨coded, hcoded, ⟨⟩⟩ := chain_eq_ok.1 h
  rw [decodeStages, corDec_corEnc_append hcoded (by omega), chain_ok]
  cases hdec : detDec Config.build m.det (det ++ pad) with
  | error e => exact ⟨e, rfl⟩
  | ok out =>
    obtain ⟨pad', hlength, rfl⟩ := detDec_detEnc_append hdet hdec
    rw [← hlength] at hpad
    exact ⟨framingError, by rw [chain_ok, deframe_frame_append hframed hpad, chain_error]⟩

end Sys2Proof.Machine
end

section
/-!
SUPPORT. The symbols of 8-QAM (44_modulation.md R262 to R265): the correlators answer the phase and the amplitude of a
symbol's window exactly, because a sinusoid with whole turns in 100 samples sums to zero; so QAM_DEM decides the bits of
every symbol that QAM_MOD sends.
-/

namespace Sys2Proof.Machine

/-! ### Sums over a window -/

theorem sum_range_eq_finset (n : Nat) (f : Nat → ℝ) : ((List.range n).map f).sum = ∑ k ∈ Finset.range n, f k := rfl

/-- The powers of a root of unity other than 1 sum to zero. -/
theorem sum_exp_angle {f : Nat} (hf : ¬ 100 ∣ f) (θ : ℝ) :
    ∑ k ∈ Finset.range 100, Complex.exp (((angle (f * k) + θ : ℝ) : ℂ) * Complex.I) = 0 := by
  have hroot : IsPrimitiveRoot (Complex.exp (2 * Real.pi * Complex.I / (100 : ℕ))) 100 :=
    Complex.isPrimitiveRoot_exp 100 (by decide)
  set ζ := Complex.exp (2 * Real.pi * Complex.I / (100 : ℕ)) with hζ
  have hne : ζ ^ f ≠ 1 := fun h => hf (hroot.dvd_of_pow_eq_one f h)
  have hgeom : ∑ k ∈ Finset.range 100, (ζ ^ f) ^ k = 0 := by
    rw [geom_sum_eq hne, ← pow_mul, Nat.mul_comm, pow_mul, hroot.pow_eq_one, one_pow, sub_self, zero_div]
  have hterm (k : Nat) :
      Complex.exp (((angle (f * k) + θ : ℝ) : ℂ) * Complex.I) = (ζ ^ f) ^ k * Complex.exp (θ * Complex.I) := by
    rw [hζ, ← pow_mul, ← Complex.exp_nat_mul, ← Complex.exp_add]
    congr 1
    simp only [angle]
    push_cast
    ring
  simp only [hterm]
  rw [← Finset.sum_mul, hgeom, zero_mul]

theorem sum_cos_angle {f : Nat} (hf : ¬ 100 ∣ f) (θ : ℝ) :
    ∑ k ∈ Finset.range 100, Real.cos (angle (f * k) + θ) = 0 := by
  have h := congrArg Complex.re (sum_exp_angle hf θ)
  simpa only [Complex.re_sum, Complex.exp_ofReal_mul_I_re, Complex.zero_re] using h

theorem sum_sin_angle {f : Nat} (hf : ¬ 100 ∣ f) (θ : ℝ) :
    ∑ k ∈ Finset.range 100, Real.sin (angle (f * k) + θ) = 0 := by
  have h := congrArg Complex.im (sum_exp_angle hf θ)
  simpa only [Complex.im_sum, Complex.exp_ofReal_mul_I_im, Complex.zero_im] using h

theorem two_mul_angle (f k : Nat) : angle (2 * f * k) = 2 * angle (f * k) := by
  unfold angle; push_cast; ring

/-- The correlation with SIN of a carrier of the same frequency is the in-phase part. -/
theorem sum_sin_mul_sin {f : Nat} (hf : ¬ 100 ∣ 2 * f) (θ : ℝ) :
    ∑ k ∈ Finset.range 100, Real.sin (angle (f * k) + θ) * Real.sin (angle (f * k)) = 50 * Real.cos θ := by
  have hterm (k : Nat) : Real.sin (angle (f * k) + θ) * Real.sin (angle (f * k)) =
      (Real.cos θ - Real.cos (angle (2 * f * k) + θ)) / 2 := by
    have hsub := Real.cos_sub (angle (f * k) + θ) (angle (f * k))
    have hadd := Real.cos_add (angle (f * k) + θ) (angle (f * k))
    rw [show angle (f * k) + θ - angle (f * k) = θ by ring] at hsub
    rw [show angle (f * k) + θ + angle (f * k) = angle (2 * f * k) + θ by rw [two_mul_angle]; ring] at hadd
    linarith
  simp only [hterm]
  rw [← Finset.sum_div, Finset.sum_sub_distrib, sum_cos_angle hf, Finset.sum_const, Finset.card_range]
  simp only [nsmul_eq_mul]
  push_cast
  ring

/-- The correlation with COS of a carrier of the same frequency is the quadrature part. -/
theorem sum_sin_mul_cos {f : Nat} (hf : ¬ 100 ∣ 2 * f) (θ : ℝ) :
    ∑ k ∈ Finset.range 100, Real.sin (angle (f * k) + θ) * Real.cos (angle (f * k)) = 50 * Real.sin θ := by
  have hterm (k : Nat) : Real.sin (angle (f * k) + θ) * Real.cos (angle (f * k)) =
      (Real.sin θ + Real.sin (angle (2 * f * k) + θ)) / 2 := by
    have hsub := Real.sin_sub (angle (f * k) + θ) (angle (f * k))
    have hadd := Real.sin_add (angle (f * k) + θ) (angle (f * k))
    rw [show angle (f * k) + θ - angle (f * k) = θ by ring] at hsub
    rw [show angle (f * k) + θ + angle (f * k) = angle (2 * f * k) + θ by rw [two_mul_angle]; ring] at hadd
    linarith
  simp only [hterm]
  rw [← Finset.sum_div, Finset.sum_add_distrib, sum_sin_angle hf, Finset.sum_const, Finset.card_range]
  simp only [nsmul_eq_mul]
  push_cast
  ring

/-! ### A carrier window -/

theorem angle_add (m n : Nat) : angle (m + n) = angle m + angle n := by
  unfold angle; push_cast; ring

/-- A correlation with a carrier window of the build, in the reals (44_modulation.md R240, R257, R264). -/
theorem realInner_carrierWindow (a : Rat) (f ph : Nat) (g : Nat → ℝ) :
    realInner (carrierWindow Config.build a f ph) g =
      a * ∑ k ∈ Finset.range 100, Real.sin (angle (f * k) + angle ph) * g k := by
  rw [realInner, carrierWindow_length, sum_range_eq_finset, Finset.mul_sum]
  refine Finset.sum_congr rfl fun k hk => ?_
  have hlt : k < (carrierWindow Config.build a f ph).length := by
    rw [carrierWindow_length]; exact Finset.mem_range.1 hk
  have hsample := List.getElem?_eq_getElem hlt
  rw [hsample, Option.map_some, Option.getD_some, toReal_carrierWindow build_num hsample, build_sin, angle_add,
    mul_assoc]

theorem realI_carrierWindow (a : Rat) (ph : Nat) :
    realI (carrierWindow Config.build a 2 ph) = a * Real.cos (angle ph) := by
  rw [realI, realInner_carrierWindow, sum_sin_mul_sin (by decide)]; ring

theorem realQ_carrierWindow (a : Rat) (ph : Nat) :
    realQ (carrierWindow Config.build a 2 ph) = a * Real.sin (angle ph) := by
  rw [realQ, realInner_carrierWindow, sum_sin_mul_cos (by decide)]; ring

/-! ### Symbols -/

/-- The cosine and the sine of a symbol's phase: a quarter turn per step (44_modulation.md R262). -/
theorem phase_cos_sin (b0 b1 : Bit) :
    Real.cos (angle (25 * qamPhase b0 b1)) = (if b1 then 0 else if b0 then -1 else 1) ∧
      Real.sin (angle (25 * qamPhase b0 b1)) = (if b1 then if b0 then -1 else 1 else 0) := by
  have hangle (n : Nat) : angle (25 * n) = n * (Real.pi / 2) := by unfold angle; push_cast; ring
  have hthree : (3 : ℝ) * (Real.pi / 2) = Real.pi / 2 + Real.pi := by ring
  have htwo : (2 : ℝ) * (Real.pi / 2) = Real.pi := by ring
  rw [hangle]
  cases b0 <;> cases b1 <;> simp [qamPhase, hthree, htwo, Real.cos_add_pi, Real.sin_add_pi]

/-- What QAM_DEM's measurements are on the window of a symbol (44_modulation.md R264). -/
theorem qamDecides_qamWindow (b0 b1 b2 : Bit) : QamDecides (qamWindow Config.build b0 b1 b2) b0 b1 b2 := by
  have hwindow : qamWindow Config.build b0 b1 b2 =
      carrierWindow Config.build (qamAmplitude b2) 2 (25 * qamPhase b0 b1) := rfl
  obtain ⟨hcos, hsin⟩ := phase_cos_sin b0 b1
  have hI := realI_carrierWindow (qamAmplitude b2) (25 * qamPhase b0 b1)
  have hQ := realQ_carrierWindow (qamAmplitude b2) (25 * qamPhase b0 b1)
  rw [← hwindow, hcos] at hI
  rw [← hwindow, hsin] at hQ
  rw [QamDecides, realR2, hI, hQ]
  cases b0 <;> cases b1 <;> cases b2 <;> norm_num [qamAmplitude]

/-- A window decides its bits in one way only. -/
theorem QamDecides.unique {w : List Sample} {b0 b1 b2 c0 c1 c2 : Bit} (hb : QamDecides w b0 b1 b2)
    (hc : QamDecides w c0 c1 c2) : b0 = c0 ∧ b1 = c1 ∧ b2 = c2 := by
  obtain ⟨-, -, hb2, hb⟩ := hb
  obtain ⟨-, -, hc2, hc⟩ := hc
  have h2 : b2 = c2 := Bool.eq_iff_iff.2 (hb2.trans hc2.symm)
  rcases hb with ⟨hlt, rfl, hb0⟩ | ⟨hlt, rfl, hb0⟩ <;> rcases hc with ⟨hlt', rfl, hc0⟩ | ⟨hlt', rfl, hc0⟩
  · exact ⟨Bool.eq_iff_iff.2 (by simpa using not_congr (hb0.trans hc0.symm)), rfl, h2⟩
  · exact absurd hlt' hlt.not_gt
  · exact absurd hlt' hlt.not_gt
  · exact ⟨Bool.eq_iff_iff.2 (by simpa using not_congr (hb0.trans hc0.symm)), rfl, h2⟩

theorem qamDecide_of_decides {w : List Sample} {b0 b1 b2 : Bit} (h : QamDecides w b0 b1 b2) :
    qamDecide Config.build w = .ok [b0, b1, b2] := by
  obtain ⟨hrejects, -⟩ | ⟨-, c0, c1, c2, hc, hdecide⟩ := qamDecide_cases w
  · obtain ⟨hlow, hne, -, hparts⟩ := h
    rcases hrejects with hr | hr | hr
    · exact absurd hlow hr.not_ge
    · exact absurd hr hne
    · rcases hparts with ⟨hlt, -⟩ | ⟨hlt, -⟩
      · exact absurd hr hlt.ne'
      · exact absurd hr hlt.ne
  · obtain ⟨rfl, rfl, rfl⟩ := h.unique hc
    exact hdecide

/-- One symbol: b0, b1, b2 (44_modulation.md R262). -/
abbrev Symbol := Bit × Bit × Bit

/-- The bits of a symbol. -/
def symbolBits (t : Symbol) : List Bit := [t.1, t.2.1, t.2.2]

/-- The window of a symbol on the build. -/
def symbolWindow (t : Symbol) : List Sample := qamWindow Config.build t.1 t.2.1 t.2.2

theorem qamDecide_symbolWindow (t : Symbol) : qamDecide Config.build (symbolWindow t) = .ok (symbolBits t) :=
  qamDecide_of_decides (qamDecides_qamWindow _ _ _)

theorem exists_symbols (bits : List Bit) (h : bits.length % 3 = 0) :
    ∃ ts : List Symbol, bits = ts.flatMap symbolBits := by
  match bits, h with
  | [], _ => exact ⟨[], rfl⟩
  | b0 :: b1 :: b2 :: rest, h =>
    obtain ⟨ts, rfl⟩ := exists_symbols rest (by simp only [List.length_cons] at h; omega)
    exact ⟨(b0, b1, b2) :: ts, rfl⟩

theorem qamWindows_symbols (ts : List Symbol) :
    qamWindows Config.build (ts.flatMap symbolBits) = (ts.map symbolWindow).flatten := by
  induction ts with
  | nil => rfl
  | cons t ts ih => rw [List.map_cons, List.flatten_cons, ← ih]; rfl

/-- Windows of 100 samples are cut back into those windows (44_modulation.md R250). -/
theorem splitWindows_flatten {ν : Type} {ws : List (List ν)} (h : ∀ w ∈ ws, w.length = Config.nSps) :
    splitWindows ws.flatten = .ok ws := by
  have hlength : ws.flatten.length % Config.nSps = 0 := by
    rw [List.length_flatten, List.eq_replicate_of_mem (l := ws.map List.length) (a := Config.nSps) (by simpa using h)]
    simp
  obtain ⟨hgroups, -⟩ := wholeGroups_append ws [] h (by simp [Config.nSps])
  rw [List.append_nil] at hgroups
  rw [splitWindows, if_neg (not_not.2 hlength), hgroups]

/-- QAM_DEM decides the bits that QAM_MOD sends, and rebuilds their levels (44_modulation.md R265). -/
theorem qamDem_qamWindows (lc : LineCode) {bits : List Bit} (h : bits.length % 3 = 0) :
    qamDem Config.build lc (qamWindows Config.build bits) = .ok (recon Config.build lc bits) := by
  obtain ⟨ts, rfl⟩ := exists_symbols bits h
  have hwindows : ∀ w ∈ ts.map symbolWindow, w.length = Config.nSps :=
    List.forall_mem_map.2 fun _ _ => carrierWindow_length _ _ _ _
  have hdecide : mapResult (qamDecide Config.build) (ts.map symbolWindow) = .ok (ts.map symbolBits) :=
    mapResult_eq_ok.2 (List.forall₂_map_left_iff.2 (List.forall₂_map_right_iff.2
      (List.forall₂_same.2 fun t _ => qamDecide_symbolWindow t)))
  rw [qamWindows_symbols, qamDem, splitWindows_flatten hwindows, chain_ok, hdecide, chain_ok, within_build,
    List.flatMap_def]

end Sys2Proof.Machine
end

section
/-!
SUPPORT. The physical layer with 8-QAM (44_modulation.md R263 to R266; 45_pipeline.md R294, R295): MODULATE sends the
presence bits of the levels with the padding, DEMODULATE rebuilds levels from all of them; and the statement on messages
whose levels do not fill the last symbol.
-/

namespace Sys2Proof.Machine

/-! ### Levels and presence bits -/

/-- The levels of the line encoders on the build (43_line_coding.md R210, R213, R222). -/
def lineLevels : LineCode → List Bit → List Level
  | .nrz => List.map nrzLevel
  | .man => List.flatMap manPair
  | .ami => amiLevels .plus

/-- The presence bits of those levels: the bits themselves, but two per bit in Manchester (44_modulation.md R243). -/
def presence : LineCode → List Bit → List Bit
  | .nrz => id
  | .man => List.flatMap fun b => [b, !b]
  | .ami => id

theorem lineEnc_build (lc : LineCode) (bits : List Bit) : lineEnc Config.build lc bits = .ok (lineLevels lc bits) := by
  cases lc <;> rfl

theorem amiLevels_nonzero (pol : Polarity) (bits : List Bit) :
    (amiLevels pol bits).map (fun l => decide (Level.value l ≠ 0)) = bits := by
  induction bits generalizing pol with
  | nil => rfl
  | cons b t ih =>
    cases b with
    | false => exact congrArg (false :: ·) (ih pol)
    | true =>
      have hpol : decide (Level.value (Polarity.level pol) ≠ 0) = true := by cases pol <;> rfl
      rw [amiLevels, List.map_cons, hpol, ih]

theorem nrzLevel_positive (bits : List Bit) :
    (bits.map nrzLevel).map (fun l => decide (0 < Level.value l)) = bits := by
  have h : (fun l => decide (0 < Level.value l)) ∘ nrzLevel = id := by funext b; cases b <;> rfl
  rw [List.map_map, h, List.map_id]

theorem manPair_eq (b : Bit) : manPair b = [bitLevel b, bitLevel (!b)] := by cases b <;> rfl

theorem map_bitLevel_presence (bits : List Bit) : (presence .man bits).map bitLevel = lineLevels .man bits := by
  have hpair : manPair = fun b => [bitLevel b, bitLevel (!b)] := funext manPair_eq
  rw [presence, lineLevels, List.map_flatMap, hpair]
  rfl

theorem present_bitLevel (b : Bit) : present .man (bitLevel b) = b := by cases b <;> rfl

theorem map_present_lineLevels (lc : LineCode) (bits : List Bit) :
    (lineLevels lc bits).map (present lc) = presence lc bits := by
  cases lc with
  | nrz => exact nrzLevel_positive bits
  | man =>
    have h : present .man ∘ bitLevel = id := funext present_bitLevel
    rw [← map_bitLevel_presence, List.map_map, h, List.map_id]
  | ami => exact amiLevels_nonzero .plus bits

/-- A line encoder stays in its code's alphabet (43_line_coding.md R220). -/
theorem all_inAlphabet_lineLevels (lc : LineCode) (bits : List Bit) :
    (lineLevels lc bits).all (inAlphabet lc) = true := by
  rw [List.all_eq_true]
  intro l hl
  cases lc with
  | nrz =>
    obtain ⟨b, -, rfl⟩ := List.mem_map.1 hl
    cases b <;> rfl
  | man =>
    rw [← map_bitLevel_presence] at hl
    obtain ⟨b, -, rfl⟩ := List.mem_map.1 hl
    cases b <;> rfl
  | ami => rfl

/-! ### 8-QAM as the physical layer -/

section
variable {m : Schemes}

theorem modulateStages_qam (hcar : m.car = .qam) (bits : List Bit) :
    modulateStages Config.build m bits = .ok (qamWindows Config.build (qamPad (presence m.lc bits))) := by
  rw [modulateStages, lineEnc_build, chain_ok, hcar, carMod, qamMod, if_pos (all_inAlphabet_lineLevels _ _),
    map_present_lineLevels, within_build]

theorem qamPad_length_mod_three (bits : List Bit) : (qamPad bits).length % 3 = 0 := by
  rw [qamPad, List.length_append, List.length_replicate]
  omega

/-- DEMODULATE reads what MODULATE sent as the levels of the padded presence bits (44_modulation.md R265, R266). -/
theorem demodulateStages_qam (hcar : m.car = .qam) (bits : List Bit) :
    demodulateStages Config.build m (qamWindows Config.build (qamPad bits)) =
      lineDec Config.build m.lc (recon Config.build m.lc (qamPad bits)) := by
  rw [demodulateStages, hcar, carDem, qamDem_qamWindows _ (qamPad_length_mod_three bits), chain_ok]

/-- With NRZ-Polar and AMI the rebuilt levels decode to the presence bits, the padding among them. -/
theorem lineDec_recon {lc : LineCode} (hlc : lc ≠ .man) (bits : List Bit) :
    lineDec Config.build lc (recon Config.build lc bits) = .ok bits := by
  cases lc with
  | nrz => exact congrArg Except.ok (nrzLevel_positive bits)
  | man => exact absurd rfl hlc
  | ami => exact congrArg Except.ok (amiLevels_nonzero .plus bits)

theorem presence_of_ne_man {lc : LineCode} (hlc : lc ≠ .man) (bits : List Bit) : presence lc bits = bits := by
  cases lc with
  | nrz => rfl
  | man => exact absurd rfl hlc
  | ami => rfl

theorem length_presence_man (bits : List Bit) : (presence .man bits).length = 2 * bits.length := by
  simp [presence, List.length_flatMap, Nat.mul_comm]

theorem manDecide_bitLevel (b : Bit) : manDecide (bitLevel b) (bitLevel (!b)) = .ok b := by cases b <;> rfl

/-- Two pad levels are a pair without a transition (43_line_coding.md R214). -/
theorem manPairs_append_silent (bits : List Bit) :
    manPairs (lineLevels .man bits ++ [Level.zero, Level.zero]) = .error ⟨.signal, .line⟩ := by
  induction bits with
  | nil => rfl
  | cons b t ih =>
    have hstep : lineLevels .man (b :: t) ++ [Level.zero, Level.zero] =
        bitLevel b :: bitLevel (!b) :: (lineLevels .man t ++ [Level.zero, Level.zero]) := by
      rw [lineLevels, List.flatMap_cons, manPair_eq]; rfl
    rw [hstep, manPairs, manDecide_bitLevel, chain_ok, ih, chain_error]

/-- One pad level makes the level count odd, two make a pair without a transition (43_line_coding.md R214). -/
theorem manDec_padded (bits : List Bit) {n : Nat} (hn : n = 1 ∨ n = 2) :
    manDec Config.build (lineLevels .man bits ++ List.replicate n .zero) = .error ⟨.signal, .line⟩ := by
  have hlength : (lineLevels .man bits).length = 2 * bits.length := by
    rw [← map_bitLevel_presence, List.length_map, length_presence_man]
  rcases hn with rfl | rfl
  · rw [manDec, if_pos]
    rw [List.length_append, hlength, List.length_replicate]
    omega
  · have hpair : List.replicate 2 Level.zero = [Level.zero, Level.zero] := rfl
    rw [manDec, if_neg, hpair, manPairs_append_silent, chain_error]
    rw [List.length_append, hlength, List.length_replicate]
    omega

/-- Levels that do not fill the last symbol are padded with 1 or 2 bits (44_modulation.md R263). -/
theorem qamPad_of_partial {bits : List Bit} (h : bits.length % 3 ≠ 0) :
    qamPad bits = bits ++ List.replicate (3 - bits.length % 3) false := by
  rw [qamPad, show (3 - bits.length % 3) % 3 = 3 - bits.length % 3 by omega]

theorem demodulate_man_padded (hcar : m.car = .qam) (hlc : m.lc = .man) {bits : List Bit}
    (h : 2 * bits.length % 3 ≠ 0) :
    demodulateStages Config.build m (qamWindows Config.build (qamPad (presence m.lc bits))) =
      .error ⟨.signal, .line⟩ := by
  have hpartial : (presence .man bits).length % 3 ≠ 0 := by rwa [length_presence_man]
  have hlevels : recon Config.build .man (qamPad (presence .man bits)) =
      lineLevels .man bits ++ List.replicate (3 - (presence .man bits).length % 3) .zero := by
    rw [qamPad_of_partial hpartial, recon, List.map_append, map_bitLevel_presence, List.map_replicate]
    rfl
  rw [demodulateStages_qam hcar, hlc, hlevels]
  exact manDec_padded bits (by omega)

theorem demodulate_padded (hcar : m.car = .qam) (hlc : m.lc ≠ .man) {bits : List Bit} (h : bits.length % 3 ≠ 0) :
    demodulateStages Config.build m (qamWindows Config.build (qamPad (presence m.lc bits))) =
      .ok (bits ++ List.replicate (3 - bits.length % 3) false) := by
  rw [demodulateStages_qam hcar, lineDec_recon hlc, presence_of_ne_man hlc, qamPad_of_partial h]

end

/-! ### The composed commands, by their stages -/

section
variable {s : State} {m : Schemes} {bytes : List Byte} {bits bits' raw : List Bit} {xs : List Sample} {e : Raise}

theorem exec_encode_of_ok (hm : s.Selects m) (hin : s.inBuf = .byte bytes)
    (h : encodeStages Config.build m bytes = .ok (bits, raw)) :
    exec .encode s = .next (s.ended 0x3000#16 (.bit bits) (.bit raw)) := by
  rw [exec_encode hm hin, h]; rfl

theorem exec_modulate_of_ok (hm : s.Selects m) (hin : s.inBuf = .bit bits)
    (h : modulateStages Config.build m bits = .ok xs) :
    exec .modulate s = .next (s.ended 0x3200#16 (.sample xs) .none) := by
  rw [exec_modulate hm hin, h]; rfl

theorem exec_demodulate_of_ok (hm : s.Selects m) (hin : s.inBuf = .sample xs)
    (h : demodulateStages Config.build m xs = .ok bits') :
    exec .demodulate s = .next (s.ended 0x3300#16 (.bit bits') .none) := by
  rw [exec_demodulate hm hin, h]; rfl

theorem exec_demodulate_of_error (hm : s.Selects m) (hin : s.inBuf = .sample xs)
    (h : demodulateStages Config.build m xs = .error e) :
    exec .demodulate s = .next (s.ended (errorStatus 0x33#6 e) .none .none) := by
  rw [exec_demodulate hm hin, h]; rfl

theorem exec_decode_of_error (hm : s.Selects m) (hin : s.inBuf = .bit bits)
    (h : decodeStages Config.build m bits = .error e) :
    exec .decode s = .next (s.ended (errorStatus 0x31#6 e) .none .none) := by
  rw [exec_decode hm hin, h]; rfl

end

/-- Settles O53: the pad bits reach the line decoder, which rejects them (Manchester) or passes them on to DECODE
(`decodeStages_append`). -/
theorem qamPaddingBreaksTheRoundTrip : Obligations.QamPaddingBreaksTheRoundTrip := by
  intro m bytes hcar _ hbytes
  obtain ⟨coded, raw, hencode⟩ := encodeStages_build_ok m hbytes
  refine ⟨coded, raw, _, fun s hm hin => exec_encode_of_ok hm hin hencode,
    fun s hm hin => exec_modulate_of_ok hm hin (modulateStages_qam hcar coded), fun hlc hpartial s hm hin => ?_,
    fun hlc hpartial s hm => ⟨fun hin => ?_, fun hin => ?_⟩⟩
  · exact exec_demodulate_of_error hm hin (demodulate_man_padded hcar hlc hpartial)
  · exact exec_demodulate_of_ok hm hin (demodulate_padded hcar hlc hpartial)
  · obtain ⟨e, hdecode⟩ := decodeStages_append (pad := List.replicate (3 - coded.length % 3) false) hencode
      (by rw [List.length_replicate]; omega)
    exact ⟨_, exec_decode_of_error hm hin hdecode, by
      rw [ended_status, statusErr_errorStatus]
      exact (errorKind_code e.kind).1⟩

end Sys2Proof.Machine
end

section
/-!
SUPPORT. Parity (42_error_control.md R170 to R172): the sum of a bit sequence is its number of 1 bits, PAR_ENC makes it
even, and a mask of flips changes it by its own number of 1 bits, mod 2.
-/

namespace Sys2Proof.Machine

/-! ### Raising -/

theorem raises_of_ended {i : Instr} {b : Buffer} {w : Word} {stageErr : BitVec 8}
    (hw : w.extractLsb' 0 8 = stageErr) (herr : stageErr.extractLsb' 0 4 ≠ 0#4)
    (h : ∀ s : State, s.inBuf = b → exec i s = .next (s.ended w .none .none)) : Raises i b stageErr :=
  ⟨herr, fun s hin => ⟨_, h s hin, hw⟩⟩

/-! ### The sum of a bit sequence -/

@[simp] theorem sumBits_cons (b : Bit) (t : List Bit) : sumBits (b :: t) = b.toNat + sumBits t := by
  rw [sumBits, sumBits, List.map_cons, List.sum_cons]

theorem sumBits_eq_count (x : List Bit) : sumBits x = x.count true := by
  induction x with
  | nil => rfl
  | cons b t ih => cases b <;> simp [ih, Nat.add_comm]

/-- Each flip changes the sum by one, up or down. -/
theorem sumBits_zipWith_xor {x y : List Bit} (h : x.length = y.length) :
    sumBits (List.zipWith xor x y) % 2 = (sumBits x + sumBits y) % 2 := by
  induction x generalizing y with
  | nil =>
    obtain rfl := List.eq_nil_of_length_eq_zero h.symm
    rfl
  | cons a x ih =>
    obtain _ | ⟨b, y⟩ := y
    · cases h
    have hhead : (xor a b).toNat % 2 = (a.toNat + b.toNat) % 2 := by cases a <;> cases b <;> rfl
    have htail := ih (Nat.succ.inj h)
    rw [List.zipWith_cons_cons, sumBits_cons, sumBits_cons, sumBits_cons]
    omega

theorem count_zipWith_xor {x y : List Bit} (h : x.length = y.length) :
    (List.zipWith xor x y).count true % 2 = (x.count true + y.count true) % 2 := by
  simpa only [sumBits_eq_count] using sumBits_zipWith_xor h

/-- PAR_ENC's output (42_error_control.md R170). -/
def withParity (x : List Bit) : List Bit := x ++ [decide (x.count true % 2 = 1)]

theorem count_withParity (x : List Bit) : (withParity x).count true % 2 = 0 := by
  rw [withParity, List.count_append]
  by_cases hodd : x.count true % 2 = 1
  · rw [decide_eq_true hodd, List.count_singleton_self]; omega
  · have hbit : [false].count true = 0 := rfl
    rw [decide_eq_false hodd, hbit]; omega

/-! ### PAR_ENC and PAR_DEC -/

theorem parEnc_build (x : List Bit) : parEnc Config.build x = .ok (withParity x) := by
  rw [parEnc, within_build, sumBits_eq_count]
  rfl

theorem parDec_of_bad {x : List Bit} (h : x = [] ∨ x.count true % 2 = 1) :
    parDec Config.build x = .error transmissionError := by
  rw [parDec, sumBits_eq_count]
  rcases h with hempty | hodd
  · rw [if_pos (List.length_eq_zero_iff.2 hempty)]
  · rw [if_pos (by omega : x.count true % 2 ≠ 0), ite_self]

theorem parDec_of_even {x : List Bit} (hne : x ≠ []) (heven : x.count true % 2 = 0) :
    parDec Config.build x = .ok x.dropLast := by
  rw [parDec, sumBits_eq_count, if_neg (mt List.length_eq_zero_iff.1 hne), if_neg (not_not.2 heven), within_build,
    List.dropLast_eq_take]

section
variable {s : State} {x : List Bit}

theorem exec_parEnc_ended (h : s.inBuf = .bit x) :
    exec .parEnc s = .next (s.ended 0x1000#16 (.bit (withParity x)) .none) :=
  congrArg _ (runStage_bits_of_ok h (parEnc_build x))

theorem exec_parDec_of_bad (h : s.inBuf = .bit x) (hx : x = [] ∨ x.count true % 2 = 1) :
    exec .parDec s = .next (s.ended 0x1142#16 .none .none) :=
  congrArg _ (runStage_bits_of_error h (parDec_of_bad hx))

theorem exec_parDec_of_even (h : s.inBuf = .bit x) (hne : x ≠ []) (heven : x.count true % 2 = 0) :
    exec .parDec s = .next (s.ended 0x1100#16 (.bit x.dropLast) .none) :=
  congrArg _ (runStage_bits_of_ok h (parDec_of_even hne heven))

end

/-- Settles O24. -/
theorem parityKeepsTheSumEven : Obligations.ParityKeepsTheSumEven :=
  fun _ _ hin => ⟨exec_parEnc_ended hin, exec_parDec_of_bad hin, exec_parDec_of_even hin⟩

/-- Settles O25: PAR_ENC's output has an even sum, so the sum after the flips has the parity of the flips. -/
theorem parityDetectsOddFlipsOnly : Obligations.ParityDetectsOddFlipsOnly := by
  intro bits
  refine ⟨withParity bits, gives_of_ended (by decide) fun _ => exec_parEnc_ended, fun flips hlength => ?_⟩
  have hsum : (List.zipWith xor (withParity bits) flips).count true % 2 = flips.count true % 2 := by
    rw [count_zipWith_xor hlength.symm, Nat.add_mod, count_withParity, Nat.zero_add, Nat.mod_mod]
  have hne : List.zipWith xor (withParity bits) flips ≠ [] := by
    rw [← List.length_pos_iff, List.length_zipWith, hlength, Nat.min_self, withParity, List.length_append]
    exact Nat.succ_pos _
  constructor
  · intro hodd
    exact raises_of_ended (by decide) (by decide) fun _ hin => exec_parDec_of_bad hin (.inr (hsum.trans hodd))
  · intro heven
    exact ⟨_, gives_of_ended (by decide) fun _ hin => exec_parDec_of_even hin hne (hsum.trans heven)⟩

end Sys2Proof.Machine
end

section
/-!
SUPPORT. The CRC as arithmetic of polynomials over GF(2) (42_error_control.md R180 to R184): a position of the long
division takes a multiple of the generator away, so what is left is the remainder of the polynomial by the generator.
-/

namespace Sys2Proof.Machine

open Polynomial

/-! ### The polynomial of a bit sequence -/

@[simp] theorem bitPolynomial_nil : bitPolynomial [] = 0 := rfl

theorem bitPolynomial_append (x y : List Bit) :
    bitPolynomial (x ++ y) = X ^ y.length * bitPolynomial x + bitPolynomial y := by
  induction y using List.reverseRecOn with
  | nil => simp
  | append_singleton y b ih =>
    have hsnoc (z : List Bit) : bitPolynomial (z ++ [b]) = X * bitPolynomial z + C (if b then 1 else 0) := by
      rw [bitPolynomial, List.foldl_append]; rfl
    rw [← List.append_assoc, hsnoc, hsnoc, ih, List.length_append, List.length_singleton]
    ring

theorem bitPolynomial_cons (b : Bit) (t : List Bit) :
    bitPolynomial (b :: t) = C (if b then 1 else 0) * X ^ t.length + bitPolynomial t := by
  have hone : bitPolynomial [b] = C (if b then 1 else 0) := by simp [bitPolynomial]
  rw [← List.singleton_append, bitPolynomial_append, hone, mul_comm]

@[simp] theorem bitPolynomial_false_cons (t : List Bit) : bitPolynomial (false :: t) = bitPolynomial t := by
  simp [bitPolynomial_cons]

/-- Bit by bit, exclusive or is addition over GF(2). -/
theorem bitPolynomial_zipWith_xor {x y : List Bit} (h : x.length = y.length) :
    bitPolynomial (List.zipWith xor x y) = bitPolynomial x + bitPolynomial y := by
  induction x generalizing y with
  | nil =>
    obtain rfl := List.eq_nil_of_length_eq_zero h.symm
    simp
  | cons a x ih =>
    obtain _ | ⟨b, y⟩ := y
    · cases h
    have hlength : x.length = y.length := Nat.succ.inj h
    have hhead : (if xor a b then 1 else 0 : ZMod 2) = (if a then 1 else 0) + (if b then 1 else 0) := by
      cases a <;> cases b <;> decide
    rw [List.zipWith_cons_cons, bitPolynomial_cons, bitPolynomial_cons, bitPolynomial_cons, ih hlength, hhead,
      List.length_zipWith, hlength, Nat.min_self, C_add]
    ring

theorem degree_bitPolynomial_lt (s : List Bit) : (bitPolynomial s).degree < s.length := by
  induction s with
  | nil => simp
  | cons b t ih =>
    have hlt : (t.length : WithBot ℕ) < (b :: t).length := by exact_mod_cast Nat.lt_succ_self t.length
    rw [bitPolynomial_cons]
    exact (degree_add_le _ _).trans_lt (max_lt ((degree_C_mul_X_pow_le _ _).trans_lt hlt) (ih.trans hlt))

theorem bitPolynomial_eq_zero_iff {s : List Bit} : bitPolynomial s = 0 ↔ true ∉ s := by
  induction s with
  | nil => simp
  | cons b t ih =>
    cases b with
    | false => simp [ih]
    | true =>
      have hcoeff : (bitPolynomial (true :: t)).coeff t.length = 1 := by
        simp [bitPolynomial_cons, coeff_eq_zero_of_degree_lt (degree_bitPolynomial_lt t)]
      refine iff_of_false (fun hzero => ?_) (by simp)
      rw [hzero, coeff_zero] at hcoeff
      exact zero_ne_one hcoeff

/-- A flip is a power of x added (42_error_control.md R184). -/
theorem bitPolynomial_modify_not {s : List Bit} {i : Nat} (h : i < s.length) :
    ∃ k, bitPolynomial (s.modify i (!·)) = bitPolynomial s + X ^ k := by
  induction s generalizing i with
  | nil => cases h
  | cons b t ih =>
    cases i with
    | zero =>
      have hnot : (if !b then 1 else 0 : ZMod 2) = (if b then 1 else 0) + 1 := by cases b <;> decide
      refine ⟨t.length, ?_⟩
      rw [List.modify_zero_cons, bitPolynomial_cons, bitPolynomial_cons, hnot, C_add, C_1]
      ring
    | succ i =>
      obtain ⟨k, hk⟩ := ih (Nat.lt_of_succ_lt_succ h)
      refine ⟨k, ?_⟩
      rw [List.modify_succ_cons, bitPolynomial_cons, bitPolynomial_cons, hk, List.length_modify, add_assoc]

/-! ### The generator -/

theorem crcPolynomial_eq_cubic : crcPolynomial = C 1 * X ^ 3 + C 1 * X ^ 2 + C 0 * X + C 1 := by
  simp [crcPolynomial]

theorem degree_crcPolynomial : crcPolynomial.degree = 3 := by
  rw [crcPolynomial_eq_cubic]; exact degree_cubic one_ne_zero

theorem crcPolynomial_monic : crcPolynomial.Monic := by
  rw [Monic, crcPolynomial_eq_cubic]; exact leadingCoeff_cubic one_ne_zero

theorem bitPolynomial_crcGen : bitPolynomial crcGen = crcPolynomial := by
  simp [crcGen, crcPolynomial, bitPolynomial_cons, add_assoc]

/-- The generator has the constant term 1, so it divides no power of x (42_error_control.md R184). -/
theorem not_crcPolynomial_dvd_X_pow (k : Nat) : ¬ crcPolynomial ∣ X ^ k := by
  intro hdvd
  have hcoprime : IsCoprime crcPolynomial X := ⟨1, -(X ^ 2 + X), by rw [crcPolynomial]; ring⟩
  have hunit : IsUnit crcPolynomial := hcoprime.pow_right.isUnit_of_dvd' dvd_rfl hdvd
  have hdegree := degree_eq_zero_of_isUnit hunit
  rw [degree_crcPolynomial] at hdegree
  exact absurd hdegree (by decide)

/-! ### The long division -/

/-- One position takes nothing or a multiple of the generator away. -/
theorem crcPolynomial_dvd_divideStep {r : List Bit} (h : 4 ≤ r.length) :
    crcPolynomial ∣ bitPolynomial r - bitPolynomial (divideStep r) := by
  match r, h with
  | false :: t, _ =>
    have hstep : divideStep (false :: t) = t := rfl
    rw [hstep, bitPolynomial_false_cons, sub_self]
    exact dvd_zero _
  | true :: b :: c :: d :: t, _ =>
    have hstep : false :: divideStep (true :: b :: c :: d :: t) = List.zipWith xor [true, b, c, d] crcGen ++ t := rfl
    have hsplit : true :: b :: c :: d :: t = [true, b, c, d] ++ t := rfl
    rw [← bitPolynomial_false_cons (divideStep _), hstep, hsplit, bitPolynomial_append, bitPolynomial_append,
      bitPolynomial_zipWith_xor (x := [true, b, c, d]) (y := crcGen) rfl, bitPolynomial_crcGen]
    exact ⟨-X ^ t.length, by ring⟩

theorem crcPolynomial_dvd_divideSteps {n : Nat} {r : List Bit} (h : n + 3 ≤ r.length) :
    crcPolynomial ∣ bitPolynomial r - bitPolynomial (divideSteps n r) := by
  induction n generalizing r with
  | zero => rw [divideSteps, sub_self]; exact dvd_zero _
  | succ n ih =>
    have hrest := ih (r := divideStep r) (by rw [divideStep_length]; omega)
    have hstep := crcPolynomial_dvd_divideStep (r := r) (by omega)
    rw [divideSteps, ← sub_add_sub_cancel]
    exact dvd_add hstep hrest

/-- What the division leaves is congruent to the sequence and of a degree below the generator's. -/
theorem bitPolynomial_crcRem {w : List Bit} (h : 3 ≤ w.length) :
    bitPolynomial (crcRem w) = bitPolynomial w %ₘ crcPolynomial := by
  have hcongr : bitPolynomial w %ₘ crcPolynomial = bitPolynomial (crcRem w) %ₘ crcPolynomial :=
    modByMonic_eq_of_dvd_sub crcPolynomial_monic (crcPolynomial_dvd_divideSteps (by omega))
  have hdegree : (bitPolynomial (crcRem w)).degree < crcPolynomial.degree := by
    have hlt := degree_bitPolynomial_lt (crcRem w)
    rw [crcRem_length h] at hlt
    exact hlt.trans_eq degree_crcPolynomial.symm
  rw [hcongr, (modByMonic_eq_self_iff crcPolynomial_monic).2 hdegree]

/-- Settles O26. -/
theorem crcRemainderIsPolynomialRemainder : Obligations.CrcRemainderIsPolynomialRemainder :=
  fun _ h => ⟨crcRem_length h, bitPolynomial_crcRem h⟩

/-- A zero remainder is divisibility by the generator. -/
theorem crcRem_eq_zeros_iff {w : List Bit} (h : 3 ≤ w.length) :
    crcRem w = [false, false, false] ↔ crcPolynomial ∣ bitPolynomial w := by
  have hzeros : crcRem w = [false, false, false] ↔ true ∉ crcRem w := by
    refine (List.eq_replicate_iff (n := 3)).trans ((and_iff_right (crcRem_length h)).trans ?_)
    exact ⟨fun hfalse htrue => Bool.noConfusion (hfalse _ htrue),
      fun htrue b hb => Bool.eq_false_iff.2 fun hb' => htrue (hb' ▸ hb)⟩
  rw [hzeros, ← bitPolynomial_eq_zero_iff, bitPolynomial_crcRem h, modByMonic_eq_zero_iff_dvd crcPolynomial_monic]

/-! ### CRC_DEC -/

theorem crcDec_of_bad {x : List Bit} (h : x.length < 3 ∨ ¬ crcPolynomial ∣ bitPolynomial x) :
    crcDec Config.build x = .error transmissionError := by
  rw [crcDec]
  by_cases hshort : x.length < 3
  · rw [if_pos hshort]
  · rw [if_neg hshort, if_pos (mt (crcRem_eq_zeros_iff (by omega)).1 (h.resolve_left hshort))]

theorem crcDec_of_dvd {x : List Bit} (h : 3 ≤ x.length) (hdvd : crcPolynomial ∣ bitPolynomial x) :
    crcDec Config.build x = .ok (x.take (x.length - 3)) := by
  rw [crcDec, if_neg (by omega), if_neg (not_not.2 ((crcRem_eq_zeros_iff h).2 hdvd)), within_build]

section
variable {s : State} {x : List Bit}

theorem exec_crcDec_of_bad (h : s.inBuf = .bit x) (hx : x.length < 3 ∨ ¬ crcPolynomial ∣ bitPolynomial x) :
    exec .crcDec s = .next (s.ended 0x1342#16 .none .none) :=
  congrArg _ (runStage_bits_of_error h (crcDec_of_bad hx))

theorem exec_crcDec_of_dvd (h : s.inBuf = .bit x) (hx : 3 ≤ x.length) (hdvd : crcPolynomial ∣ bitPolynomial x) :
    exec .crcDec s = .next (s.ended 0x1300#16 (.bit (x.take (x.length - 3))) .none) :=
  congrArg _ (runStage_bits_of_ok h (crcDec_of_dvd hx hdvd))

end

/-- Settles O27. -/
theorem crcDecAcceptsExactlyMultiples : Obligations.CrcDecAcceptsExactlyMultiples :=
  fun _ _ hin => ⟨exec_crcDec_of_bad hin, exec_crcDec_of_dvd hin⟩

/-! ### CRC_ENC -/

/-- The check bits of CRC_ENC (42_error_control.md R182). -/
def checkBits (x : List Bit) : List Bit := crcRem (x ++ [false, false, false])

theorem checkBits_length (x : List Bit) : (checkBits x).length = 3 := crcRem_length (by simp)

theorem bitPolynomial_checkBits (x : List Bit) :
    bitPolynomial (checkBits x) = bitPolynomial (x ++ [false, false, false]) %ₘ crcPolynomial :=
  bitPolynomial_crcRem (by simp)

/-- Over GF(2) a polynomial and its remainder added are the polynomial less its remainder. -/
theorem crcPolynomial_dvd_append_checkBits (x : List Bit) : crcPolynomial ∣ bitPolynomial (x ++ checkBits x) := by
  have hsum : bitPolynomial (x ++ checkBits x) =
      bitPolynomial (x ++ [false, false, false]) %ₘ crcPolynomial - bitPolynomial (x ++ [false, false, false]) := by
    rw [← bitPolynomial_checkBits, bitPolynomial_append, bitPolynomial_append, checkBits_length, CharTwo.sub_eq_add]
    simp [add_comm]
  rw [hsum]
  exact dvd_modByMonic_sub _ _

theorem crcEnc_build (x : List Bit) : crcEnc Config.build x = .ok (x ++ checkBits x) := rfl

theorem exec_crcEnc_ended {s : State} {x : List Bit} (h : s.inBuf = .bit x) :
    exec .crcEnc s = .next (s.ended 0x1200#16 (.bit (x ++ checkBits x)) .none) :=
  congrArg _ (runStage_bits_of_ok h (crcEnc_build x))

theorem gives_crcDec_checkBits (x : List Bit) : Gives .crcDec (.bit (x ++ checkBits x)) (.bit x) := by
  have hlength : (x ++ checkBits x).length = x.length + 3 := by rw [List.length_append, checkBits_length]
  refine gives_of_ended (w := 0x1300#16) (by decide) fun s hin => ?_
  rw [exec_crcDec_of_dvd hin (by omega) (crcPolynomial_dvd_append_checkBits x), hlength, Nat.add_sub_cancel,
    List.take_left]

/-- Settles O28. -/
theorem crcEncAppendsTheRemainder : Obligations.CrcEncAppendsTheRemainder :=
  fun _ bits hin => ⟨checkBits bits, checkBits_length bits, bitPolynomial_checkBits bits,
    crcPolynomial_dvd_append_checkBits bits, exec_crcEnc_ended hin, gives_crcDec_checkBits bits⟩

/-- Settles O29: a multiple of the generator and a power of x are no multiple of it. -/
theorem crcDetectsEverySingleFlip : Obligations.CrcDetectsEverySingleFlip := by
  intro bits
  refine ⟨bits ++ checkBits bits, gives_of_ended (by decide) fun _ => exec_crcEnc_ended, fun i hi => ?_⟩
  have hlength : 3 ≤ ((bits ++ checkBits bits).modify i (!·)).length := by
    rw [List.length_modify, List.length_append, checkBits_length]; omega
  have hbad : ¬ crcPolynomial ∣ bitPolynomial ((bits ++ checkBits bits).modify i (!·)) := by
    obtain ⟨k, hk⟩ := bitPolynomial_modify_not hi
    rw [hk, dvd_add_right (crcPolynomial_dvd_append_checkBits bits)]
    exact not_crcPolynomial_dvd_X_pow k
  exact ⟨mt (crcRem_eq_zeros_iff hlength).1 hbad,
    raises_of_ended (by decide) (by decide) fun _ hin => exec_crcDec_of_bad hin (.inr hbad)⟩

end Sys2Proof.Machine
end

section
/-!
SUPPORT. Hamming(12,8) (42_error_control.md R190 to R195). The parity over positions is linear in the group, so the
syndrome of a codeword with a mask of flips applied is the mask's own, and HAM_DEC on it answers the data with what it
answers on the mask alone (`hamFix_zipWith_hamCW`). The statements on one and on two flips are then about masks.
-/

namespace Sys2Proof.Machine

/-! ### Exclusive or of two sequences -/

theorem zipWith_xor_eq_left_iff {x m : List Bit} (h : x.length = m.length) :
    List.zipWith xor x m = x ↔ true ∉ m := by
  induction x generalizing m with
  | nil =>
    obtain rfl := List.eq_nil_of_length_eq_zero h.symm
    simp
  | cons a x ih =>
    obtain _ | ⟨b, m⟩ := m
    · cases h
    rw [List.zipWith_cons_cons, List.cons.injEq, ih (Nat.succ.inj h), List.mem_cons, not_or]
    exact and_congr_left' (by cases a <;> cases b <;> decide)

/-- Flipping a bit of one of two sequences flips it in their exclusive or. -/
theorem zipWith_xor_modify_not (x m : List Bit) (i : Nat) :
    List.zipWith xor x (m.modify i (!·)) = (List.zipWith xor x m).modify i (!·) := by
  induction x generalizing m i with
  | nil => simp
  | cons a x ih =>
    cases m with
    | nil => simp
    | cons b m =>
      cases i with
      | zero => simp
      | succ i => simp only [List.modify_succ_cons, List.zipWith_cons_cons, ih]

/-- A mask of `n` bits that flips nothing. -/
def noFlips (n : Nat) : List Bit := List.replicate n false

/-- The mask of a group that flips the bits at indices `i` and `j`. -/
def twoFlips (i j : Nat) : List Bit := ((noFlips 12).modify i (!·)).modify j (!·)

theorem twoFlips_length (i j : Nat) : (twoFlips i j).length = 12 := by
  rw [twoFlips, List.length_modify, List.length_modify, noFlips, List.length_replicate]

theorem zipWith_xor_noFlips {x : List Bit} {n : Nat} (h : x.length = n) : List.zipWith xor x (noFlips n) = x :=
  (zipWith_xor_eq_left_iff (by rw [h, noFlips, List.length_replicate])).2 (by simp [noFlips])

/-- A mask with at most one flip flips nothing or one bit. -/
theorem mask_cases {m : List Bit} {n : Nat} (hlength : m.length = n) (h : m.count true ≤ 1) :
    m = noFlips n ∨ ∃ i < n, m = (noFlips n).modify i (!·) := by
  subst hlength
  induction m with
  | nil => exact .inl rfl
  | cons b m ih =>
    cases b with
    | false =>
      obtain hm | ⟨i, hi, hm⟩ := ih (by simpa using h)
      · exact .inl (congrArg _ hm)
      · exact .inr ⟨i + 1, Nat.succ_lt_succ hi, congrArg (false :: ·) hm⟩
    | true =>
      have hnone : true ∉ m := List.count_eq_zero.1 (by rw [List.count_cons_self] at h; omega)
      have hm : m = noFlips m.length :=
        List.eq_replicate_iff.2 ⟨rfl, fun b hb => Bool.eq_false_iff.2 fun hb' => hnone (hb' ▸ hb)⟩
      exact .inr ⟨0, Nat.succ_pos _, congrArg (true :: ·) hm⟩

/-! ### Parity over positions -/

theorem atPosition_zipWith_xor {g m : List Bit} (h : g.length = m.length) (q : Nat) :
    atPosition (List.zipWith xor g m) q = xor (atPosition g q) (atPosition m q) := by
  have hxor : (List.zipWith xor g m).length = g.length := by rw [List.length_zipWith, h, Nat.min_self]
  unfold atPosition
  by_cases hq : q - 1 < g.length
  · rw [List.getD_eq_getElem _ _ hq, List.getD_eq_getElem _ _ (hq.trans_eq h),
      List.getD_eq_getElem _ _ (hq.trans_eq hxor.symm), List.getElem_zipWith]
  · have hout : g.length ≤ q - 1 := Nat.le_of_not_lt hq
    rw [List.getD_eq_default _ _ hout, List.getD_eq_default _ _ (h.symm.trans_le hout),
      List.getD_eq_default _ _ (hxor.trans_le hout), Bool.xor_false]

theorem xorOver_cons (g : List Bit) (q : Nat) (ps : List Nat) :
    xorOver g (q :: ps) = xor (atPosition g q) (xorOver g ps) := rfl

theorem xorOver_zipWith_xor {g m : List Bit} (h : g.length = m.length) (ps : List Nat) :
    xorOver (List.zipWith xor g m) ps = xor (xorOver g ps) (xorOver m ps) := by
  induction ps with
  | nil => rfl
  | cons q ps ih =>
    rw [xorOver_cons, xorOver_cons, xorOver_cons, atPosition_zipWith_xor h, ih, Bool.xor_assoc,
      Bool.xor_assoc, Bool.xor_left_comm (atPosition m q)]

theorem extractData_zipWith_xor {g m : List Bit} (h : g.length = m.length) :
    extractData (List.zipWith xor g m) = List.zipWith xor (extractData g) (extractData m) := by
  rw [extractData, extractData, extractData, List.zipWith_map, List.zipWith_self]
  exact List.map_congr_left fun q _ => atPosition_zipWith_xor h q

/-- `parityOver` counts the 1 bits that `xorOver` adds up mod 2. -/
theorem parityOver_eq (g : List Bit) (ps : List Nat) : parityOver g ps = (xorOver g ps).toNat := by
  induction ps with
  | nil => rfl
  | cons q ps ih =>
    have hbit : (g[q - 1]? == some true) = atPosition g q := by
      unfold atPosition
      rw [List.getD_eq_getElem?_getD]
      cases g[q - 1]? with
      | none => rfl
      | some b => cases b <;> rfl
    rw [parityOver, List.countP_cons, hbit, Nat.add_mod, ← parityOver, ih, xorOver_cons]
    cases atPosition g q <;> cases xorOver g ps <;> rfl

/-- The coverage table is the rule that p_j covers every P with (P and j) ≠ 0 (42_error_control.md R190). -/
theorem coverage_eq : coverage = parityPositions.map fun j => (j, covered j) := by decide

theorem hammingSyndrome_eq (g : List Bit) : hammingSyndrome g = syndrome g := by
  simp only [hammingSyndrome, coverage_eq, List.map_map, syndrome, parityOver_eq, Function.comp_def]

/-! ### Codewords -/

theorem xorOver_hamCW {d : List Bit} (hd : d.length = 8) {j : Nat} (hj : j ∈ parityPositions) :
    xorOver (hamCW d) (covered j) = false := by
  match d, hd with
  | [a, b, c, d, e, f, g, h], _ =>
    rw [hamCW_eq]
    have hcases : j = 1 ∨ j = 2 ∨ j = 4 ∨ j = 8 := by simpa [parityPositions] using hj
    rcases hcases with rfl | rfl | rfl | rfl <;> simp [covered, xorOver, atPosition]

theorem extractData_hamCW {d : List Bit} (hd : d.length = 8) : extractData (hamCW d) = d := by
  match d, hd with
  | [a, b, c, d, e, f, g, h], _ => rw [hamCW_eq]; rfl

theorem syndrome_zipWith_hamCW {d m : List Bit} (hd : d.length = 8) (hm : m.length = 12) :
    syndrome (List.zipWith xor (hamCW d) m) = syndrome m := by
  refine congrArg List.sum (List.map_congr_left fun j hj => ?_)
  rw [xorOver_zipWith_xor (by rw [hamCW_length, hm]), xorOver_hamCW hd hj, Bool.false_xor]

/-- On a codeword with flips HAM_DEC answers the data with its answer on the mask of the flips. -/
theorem hamFix_zipWith_hamCW {d m : List Bit} (hd : d.length = 8) (hm : m.length = 12) :
    hamFix (List.zipWith xor (hamCW d) m) = List.zipWith xor d (hamFix m) := by
  simp only [hamFix, syndrome_zipWith_hamCW hd hm]
  split_ifs
  · rw [← zipWith_xor_modify_not, extractData_zipWith_xor (by rw [hamCW_length, List.length_modify, hm]),
      extractData_hamCW hd]
  · rw [extractData_zipWith_xor (by rw [hamCW_length, hm]), extractData_hamCW hd]

theorem hamFix_length (g : List Bit) : (hamFix g).length = 8 := by
  unfold hamFix; dsimp only; split_ifs <;> rfl

/-- Every single flip is found, and no flip is made where there is none (42_error_control.md R195). -/
theorem hamFix_mask_of_le_one {m : List Bit} (hm : m.length = 12) (h : m.count true ≤ 1) : true ∉ hamFix m := by
  have hone : ∀ i < 12, true ∉ hamFix ((noFlips 12).modify i (!·)) := by decide
  obtain rfl | ⟨i, hi, rfl⟩ := mask_cases hm h
  · decide
  · exact hone i hi

/-- Two flips leave a wrong data bit (42_error_control.md R195). -/
theorem hamFix_twoFlips : ∀ j < 12, ∀ i < j, true ∈ hamFix (twoFlips i j) := by decide

theorem hamFix_of_le_one {d m : List Bit} (hd : d.length = 8) (hm : m.length = 12) (h : m.count true ≤ 1) :
    hamFix (List.zipWith xor (hamCW d) m) = d := by
  rw [hamFix_zipWith_hamCW hd hm]
  exact (zipWith_xor_eq_left_iff (by rw [hd, hamFix_length])).2 (hamFix_mask_of_le_one hm h)

/-! ### The layout, as `HammingCodeword` and `HammingCorrects` say it -/

theorem hammingCodeword_hamCW {d : List Bit} (hd : d.length = 8) : HammingCodeword d (hamCW d) := by
  refine ⟨hamCW_length d, ?_, ?_⟩
  · match d, hd with
    | [a, b, c, d, e, f, g, h], _ => rw [hamCW_eq]; rfl
  · rw [coverage_eq]
    refine List.forall_mem_map.2 fun j hj => ?_
    rw [parityOver_eq, xorOver_hamCW hd hj]
    rfl

theorem map_some_extractData {g : List Bit} (hg : g.length = 12) :
    (extractData g).map some = dataAt.map fun q => g[q - 1]? := by
  rw [extractData, List.map_map]
  refine List.map_congr_left fun q hq => ?_
  have hrange : q - 1 < g.length := by
    have hmax : ∀ q ∈ dataPositions, q - 1 < 12 := by decide
    rw [hg]
    exact hmax q hq
  rw [Function.comp_apply, atPosition, List.getD_eq_getElem _ _ hrange, List.getElem?_eq_getElem hrange]

theorem hammingCorrects_hamFix {g : List Bit} (hg : g.length = 12) : HammingCorrects g (hamFix g) := by
  have hpos : ∀ q ∈ dataAt, 1 ≤ q := by decide
  simp only [HammingCorrects, hammingSyndrome_eq, hamFix]
  split_ifs with he
  · rw [map_some_extractData (by rw [List.length_modify, hg])]
    refine List.map_congr_left fun q hq => ?_
    have hplace : syndrome g - 1 = q - 1 ↔ q = syndrome g := by have := hpos q hq; omega
    simp only [List.getElem?_modify, hplace, he, and_true, Option.map_eq_map]
  · rw [map_some_extractData hg]
    refine List.map_congr_left fun q _ => ?_
    simp only [he, and_false, if_false, Option.map_id']

/-! ### HAM_ENC and HAM_DEC -/

theorem hamEnc_build (x : List Bit) :
    hamEnc Config.build x = .ok ((wholeGroups 8 x).flatMap hamCW ++ groupTail 8 x) := rfl

theorem hamDec_build (x : List Bit) :
    hamDec Config.build x = .ok ((wholeGroups 12 x).flatMap hamFix ++ groupTail 12 x) := rfl

section
variable {s : State} {x y : List Bit}

theorem exec_hamEnc_of_ok (h : s.inBuf = .bit x) (hx : hamEnc Config.build x = .ok y) :
    exec .hamEnc s = .next (s.ended 0x1400#16 (.bit y) .none) :=
  congrArg _ (runStage_bits_of_ok h hx)

theorem exec_hamDec_of_ok (h : s.inBuf = .bit x) (hx : hamDec Config.build x = .ok y) :
    exec .hamDec s = .next (s.ended 0x1500#16 (.bit y) .none) :=
  congrArg _ (runStage_bits_of_ok h hx)

theorem gives_hamEnc (hx : hamEnc Config.build x = .ok y) : Gives .hamEnc (.bit x) (.bit y) :=
  gives_of_ended (w := 0x1400#16) (by decide) fun _ hin => exec_hamEnc_of_ok hin hx

theorem gives_hamDec (hx : hamDec Config.build x = .ok y) : Gives .hamDec (.bit x) (.bit y) :=
  gives_of_ended (w := 0x1500#16) (by decide) fun _ hin => exec_hamDec_of_ok hin hx

end

theorem slice_length {α : Type} {n j : Nat} {x : List α} (hj : j < x.length / n) : (slice x (n * j) n).length = n :=
  length_of_mem_wholeGroups (List.mem_of_getElem? (wholeGroups_getElem? x hj))

/-- Settles O30. -/
theorem hamEncWritesCodewords : Obligations.HamEncWritesCodewords := by
  intro s bits hin
  refine ⟨(wholeGroups 8 bits).map hamCW, by rw [List.length_map, wholeGroups_length], fun i hi => ?_,
    exec_hamEnc_of_ok hin (hamEnc_build bits)⟩
  exact ⟨_, map_wholeGroups_getElem? hamCW bits hi, hammingCodeword_hamCW (slice_length hi)⟩

/-- Settles O31. -/
theorem hamDecCorrectsBySyndrome : Obligations.HamDecCorrectsBySyndrome := by
  intro s bits hin
  refine ⟨(wholeGroups 12 bits).map hamFix, by rw [List.length_map, wholeGroups_length], fun i hi => ?_,
    exec_hamDec_of_ok hin (hamDec_build bits)⟩
  exact ⟨_, map_wholeGroups_getElem? hamFix bits hi, hammingCorrects_hamFix (slice_length hi)⟩

/-! ### Flips in a coded sequence -/

theorem groups_zipWith {α : Type} (f : α → α → α) (n count : Nat) (x y : List α) :
    groups n count (List.zipWith f x y) = List.zipWith (List.zipWith f) (groups n count x) (groups n count y) := by
  induction count generalizing x y with
  | zero => rfl
  | succ count ih => rw [groups, groups, groups, List.zipWith_cons_cons, List.take_zipWith, List.drop_zipWith, ih]

/-- Two sequences of one length are combined group by group, and so are their tails. -/
theorem wholeGroups_zipWith {α : Type} (f : α → α → α) (n : Nat) {x y : List α} (h : x.length = y.length) :
    wholeGroups n (List.zipWith f x y) = List.zipWith (List.zipWith f) (wholeGroups n x) (wholeGroups n y) ∧
      groupTail n (List.zipWith f x y) = List.zipWith f (groupTail n x) (groupTail n y) := by
  have hlength : (List.zipWith f x y).length = x.length := by rw [List.length_zipWith, h, Nat.min_self]
  constructor
  · rw [wholeGroups, wholeGroups, wholeGroups, hlength, ← h, groups_zipWith]
  · rw [groupTail, groupTail, groupTail, hlength, ← h, List.drop_zipWith]

/-- HAM_DEC corrects each codeword of a row of codewords under its own mask. -/
theorem map_hamFix_zipWith {gs ms : List (List Bit)} (hlength : gs.length = ms.length)
    (hgs : ∀ g ∈ gs, g.length = 8) (hms : ∀ m ∈ ms, m.length = 12 ∧ m.count true ≤ 1) :
    (List.zipWith (List.zipWith xor) (gs.map hamCW) ms).map hamFix = gs := by
  induction gs generalizing ms with
  | nil => rfl
  | cons g gs ih =>
    obtain _ | ⟨m, ms⟩ := ms
    · cases hlength
    obtain ⟨hg, hgs⟩ := List.forall_mem_cons.1 hgs
    obtain ⟨⟨hm, hflips⟩, hms⟩ := List.forall_mem_cons.1 hms
    rw [List.map_cons, List.zipWith_cons_cons, List.map_cons, hamFix_of_le_one hg hm hflips,
      ih (Nat.succ.inj hlength) hgs hms]

/-- The masks of the whole groups and of the tail that `OneFlipPerGroup` allows (42_error_control.md R195). -/
theorem OneFlipPerGroup.masks {flips : List Bit} (h : OneFlipPerGroup flips) :
    (∀ m ∈ wholeGroups 12 flips, m.length = 12 ∧ m.count true ≤ 1) ∧ true ∉ groupTail 12 flips := by
  obtain ⟨hgroups, htail⟩ := h
  refine ⟨fun m hm => ⟨length_of_mem_wholeGroups hm, ?_⟩, htail⟩
  obtain ⟨i, hi⟩ := List.mem_iff_getElem?.1 hm
  have hrange : i < flips.length / 12 := by
    rw [← wholeGroups_length]; exact (List.getElem?_eq_some_iff.1 hi).1
  obtain rfl : slice flips (12 * i) 12 = m := Option.some.inj ((wholeGroups_getElem? flips hrange).symm.trans hi)
  exact hgroups i (slice_length hrange)

theorem hamDec_zipWith_hamEnc {x coded flips : List Bit} (h : hamEnc Config.build x = .ok coded)
    (hlength : flips.length = coded.length) (hflips : OneFlipPerGroup flips) :
    hamDec Config.build (List.zipWith xor coded flips) = .ok x := by
  obtain ⟨gs, tail, rfl, hgs, htail, hgroups, hrest⟩ := exists_groups_tail (n := 8) (by decide) x
  obtain rfl : (gs.map hamCW).flatten ++ tail = coded := by
    rw [hamEnc_build, hgroups, hrest] at h
    exact Except.ok.inj h
  obtain ⟨hcodewords, hcodedTail⟩ := wholeGroups_append (n := 12) (gs.map hamCW) tail (by simp [hamCW_length])
    (by omega)
  obtain ⟨hxorGroups, hxorTail⟩ := wholeGroups_zipWith xor 12 hlength.symm
  obtain ⟨hmasks, hmaskTail⟩ := hflips.masks
  have hcount : gs.length = (wholeGroups 12 flips).length := by
    rw [wholeGroups_length, hlength, ← wholeGroups_length, hcodewords, List.length_map]
  have htailLength : tail.length = (groupTail 12 flips).length := by
    rw [groupTail_length, hlength, ← groupTail_length, hcodedTail]
  rw [hamDec_build, hxorGroups, hxorTail, hcodewords, hcodedTail, List.flatMap_def,
    map_hamFix_zipWith hcount hgs hmasks, (zipWith_xor_eq_left_iff htailLength).2 hmaskTail]

/-- Settles O32. -/
theorem hammingCorrectsOneFlipPerGroup : Obligations.HammingCorrectsOneFlipPerGroup :=
  fun bits => ⟨_, gives_hamEnc (hamEnc_build bits), fun _ hlength hflips =>
    gives_hamDec (hamDec_zipWith_hamEnc (hamEnc_build bits) hlength hflips)⟩

/-! ### One group -/

theorem wholeGroups_of_length {n : Nat} (hn : 0 < n) {x : List Bit} (h : x.length = n) :
    wholeGroups n x = [x] ∧ groupTail n x = [] := by
  simpa using wholeGroups_append [x] [] (by simpa using h) hn

theorem hamEnc_byte {d : List Bit} (hd : d.length = 8) : hamEnc Config.build d = .ok (hamCW d) := by
  obtain ⟨hgroups, htail⟩ := wholeGroups_of_length (by decide) hd
  rw [hamEnc_build, hgroups, htail, List.flatMap_singleton, List.append_nil]

theorem hamDec_group {g : List Bit} (hg : g.length = 12) : hamDec Config.build g = .ok (hamFix g) := by
  obtain ⟨hgroups, htail⟩ := wholeGroups_of_length (by decide) hg
  rw [hamDec_build, hgroups, htail, List.flatMap_singleton, List.append_nil]

theorem modify_not_modify_not_eq_zipWith {g : List Bit} (hg : g.length = 12) (i j : Nat) :
    (g.modify i (!·)).modify j (!·) = List.zipWith xor g (twoFlips i j) := by
  rw [twoFlips, zipWith_xor_modify_not, zipWith_xor_modify_not, zipWith_xor_noFlips hg]

/-- Settles O33: the codeword with two flips is the codeword under a mask of two flips, and on such a mask HAM_DEC
answers data other than 0 (`hamFix_twoFlips`). -/
theorem hammingMiscorrectsTwoFlips : Obligations.HammingMiscorrectsTwoFlips := by
  intro d hd
  refine ⟨hamCW d, gives_hamEnc (hamEnc_byte hd), fun i j hij hj => ⟨_, hamFix_length _, fun hdata => ?_,
    gives_hamDec (hamDec_group (by rw [List.length_modify, List.length_modify, hamCW_length]))⟩⟩
  rw [modify_not_modify_not_eq_zipWith (hamCW_length d), hamFix_zipWith_hamCW hd (twoFlips_length i j),
    zipWith_xor_eq_left_iff (by rw [hd, hamFix_length])] at hdata
  exact hdata (hamFix_twoFlips j hj i hij)

end Sys2Proof.Machine
end

section
/-!
SUPPORT. The line codes (43_line_coding.md R210 to R224): what their commands answer on a sequence of their kind, the
stored codes of the levels they send and read, and the way back from an encoder's levels. The outcomes of the
modulators and demodulators stand beside them for the composed commands.
-/

namespace Sys2Proof.Machine

/-! ### The commands of the physical layer, from their stages -/

/-- A command that reads IN and succeeds changes only STATUS, OUT0 and OUT1 (60_exceptions.md R326). -/
theorem exec_of_ok {i : Instr} {s : State} {k : BitVec 3} {outs : Buffer × Buffer} {w : Word}
    (hi : i.inKind = some k) (h : outcome Config.build i s = .ok outs) (hw : successStatus i.opcode = w) :
    exec i s = .next (s.ended w outs.1 outs.2) := by
  rw [exec_eq_commandOn, commandOn_of_ok h, moved_of_inKind hi, succeed_eq_ended, hw]

theorem gives_of_outcome {i : Instr} {k : BitVec 3} {b b' : Buffer} (hi : i.inKind = some k)
    (h : ∀ s : State, s.inBuf = b → outcome Config.build i s = .ok (b', .none)) : Gives i b b' :=
  gives_of_ended (statusErr_successStatus i.opcode) fun s hin => exec_of_ok hi (h s hin) rfl

theorem raises_of_outcome {i : Instr} {b : Buffer} {e : Raise}
    (h : ∀ s : State, s.inBuf = b → outcome Config.build i s = .error e) : Raises i b e.codes := by
  have herr : e.codes.extractLsb' 0 4 = e.kind.code := BitVec.extractLsb'_append_eq_right
  refine raises_of_ended (errorStatus_codes i.opcode e) ?_ fun s hin => exec_of_error (h s hin) rfl
  rw [herr]
  exact (errorKind_code e.kind).1

theorem lineEncoder_inKind (lc : LineCode) : (lineEncoder lc).inKind = some 1#3 := by cases lc <;> rfl

theorem lineDecoder_inKind (lc : LineCode) : (lineDecoder lc).inKind = some 3#3 := by cases lc <;> rfl

theorem modulator_inKind (car : Carrier) (lc : LineCode) : (modulator car lc).inKind = some 3#3 := by
  cases car <;> rfl

theorem demodulator_inKind (car : Carrier) (lc : LineCode) : (demodulator car lc).inKind = some 4#3 := by
  cases car <;> rfl

section
variable {p : Params Sample} {s : State} {ls : List Level}

theorem outcome_lineEncoder (lc : LineCode) {bits : List Bit} (h : s.inBuf = .bit bits) :
    outcome p (lineEncoder lc) s = chain (lineEnc p lc bits) fun ls => .ok (levelOutput ls) := by
  cases lc <;> exact congrArg (staged · _ levelOutput) (inBits_ok h)

theorem outcome_lineDecoder (lc : LineCode) (h : s.inBuf = .level (ls.map Level.code)) :
    outcome p (lineDecoder lc) s = chain (lineDec p lc ls) fun bits => .ok (bitOutput bits) := by
  cases lc <;> exact congrArg (staged · _ bitOutput) (inLevels_ok .line h)

theorem outcome_modulator (car : Carrier) (lc : LineCode) (h : s.inBuf = .level (ls.map Level.code)) :
    outcome p (modulator car lc) s = chain (carMod p car lc ls) fun xs => .ok (sampleOutput xs) := by
  have hin : s.modOperand (lineCodeCode lc) = .ok (lc, ls) := by
    rw [State.modOperand, lineCodeOperand_code, chain_ok, inLevels_ok .carrier h, chain_ok]
  cases car <;> simp only [modulator, outcome, hin, staged_ok, carMod]

theorem outcome_demodulator (car : Carrier) (lc : LineCode) {xs : List Sample} (h : s.inBuf = .sample xs) :
    outcome p (demodulator car lc) s = chain (carDem p car lc xs) fun ls => .ok (levelOutput ls) := by
  have hin : s.demOperand (lineCodeCode lc) = .ok (lc, xs) := by
    rw [State.demOperand, lineCodeOperand_code, chain_ok, inSamples_ok h, chain_ok]
  cases car <;> simp only [demodulator, outcome, hin, staged_ok, carDem]

end

/-- A line encoder never raises (43_line_coding.md R210, R213, R222). -/
theorem gives_lineEncoder (lc : LineCode) (bits : List Bit) :
    Gives (lineEncoder lc) (.bit bits) (.level ((lineLevels lc bits).map Level.code)) :=
  gives_of_outcome (lineEncoder_inKind lc) fun _ hin => by
    rw [outcome_lineEncoder lc hin, lineEnc_build, chain_ok, levelOutput]

theorem gives_lineDecoder {lc : LineCode} {ls : List Level} {bits : List Bit}
    (h : lineDec Config.build lc ls = .ok bits) :
    Gives (lineDecoder lc) (.level (ls.map Level.code)) (.bit bits) :=
  gives_of_outcome (lineDecoder_inKind lc) fun _ hin => by
    rw [outcome_lineDecoder lc hin, h, chain_ok, bitOutput]

/-! ### The levels of the encoders, as stored codes -/

theorem map_code_nrzLevel (bits : List Bit) :
    (bits.map nrzLevel).map Level.code = bits.map fun b => if b then 0b01#2 else 0b11#2 := by
  rw [List.map_map]
  exact List.map_congr_left fun b _ => by cases b <;> rfl

theorem map_code_manPair (bits : List Bit) :
    (bits.flatMap manPair).map Level.code =
      bits.flatMap fun b => if b then [0b01#2, 0b00#2] else [0b00#2, 0b01#2] := by
  have hpair : (fun b => (manPair b).map Level.code) =
      fun b => if b then [0b01#2, 0b00#2] else [0b00#2, 0b01#2] := by funext b; cases b <;> rfl
  rw [List.map_flatMap, hpair]

theorem amiLevels_length (pol : Polarity) (bits : List Bit) : (amiLevels pol bits).length = bits.length := by
  induction bits generalizing pol with
  | nil => rfl
  | cons b t ih => cases b <;> simp [amiLevels, ih]

/-- The level of a 1 bit after `ones` 1 bits: the pass negates the accumulator at each of them (43_line_coding.md
R221). -/
def amiPolarity (pol : Polarity) (ones : Nat) : Polarity := if ones % 2 = 0 then pol else Polarity.flip pol

theorem amiPolarity_flip (pol : Polarity) (ones : Nat) :
    amiPolarity (Polarity.flip pol) ones = amiPolarity pol (ones + 1) := by
  have hflip : Polarity.flip (Polarity.flip pol) = pol := by cases pol <;> rfl
  unfold amiPolarity
  rcases Nat.mod_two_eq_zero_or_one ones with h | h
  · rw [if_pos h, if_neg (by omega)]
  · rw [if_neg (by omega), if_pos (by omega), hflip]

/-- AMI by positions: a 0 is level 0, a 1 the polarity that the number of 1 bits before it leaves
(43_line_coding.md R222). -/
theorem amiLevels_getElem? {pol : Polarity} {bits : List Bit} {i : Nat} {b : Bit} (h : bits[i]? = some b) :
    (amiLevels pol bits)[i]? =
      some (if b then Polarity.level (amiPolarity pol ((bits.take i).count true)) else .zero) := by
  induction bits generalizing pol i with
  | nil => cases h
  | cons c t ih =>
    cases i with
    | zero =>
      obtain rfl : c = b := Option.some.inj h
      cases c <;> rfl
    | succ i =>
      cases c with
      | false =>
        rw [amiLevels, List.getElem?_cons_succ, ih h, List.take_succ_cons, List.count_cons_of_ne (by decide)]
      | true =>
        rw [amiLevels, List.getElem?_cons_succ, ih h, List.take_succ_cons, List.count_cons_self, amiPolarity_flip]

theorem rebuilds_amiLevels (bits : List Bit) :
    Rebuilds .ami bits ((amiLevels .plus bits).map Level.code) := by
  refine ⟨by rw [List.length_map, amiLevels_length], fun i b h => ?_⟩
  rw [List.getElem?_map, amiLevels_getElem? h, Option.map_some, rebuiltCode, amiPolarity]
  cases b <;> split_ifs <;> rfl

/-- Settles O34. -/
theorem lineEncodersEmitTheirLevels : Obligations.LineEncodersEmitTheirLevels := by
  intro s bits hin
  refine ⟨?_, ?_, _, rebuilds_amiLevels bits, exec_amiEnc hin⟩
  · rw [← map_code_nrzLevel]
    exact exec_nrzEnc hin
  · rw [← map_code_manPair]
    exact exec_manEnc hin

/-! ### The levels that NRZ_DEC and AMI_DEC read -/

theorem codeValue_code (l : Level) : codeValue (Level.code l) = Level.value l := by cases l <;> rfl

/-- Settles O35: levels without the reserved code are read one by one; a reserved code raises in every line decoder
(`reservedLevelRaisesSignalError`). -/
theorem nrzAndAmiDecodersReadLevels : Obligations.NrzAndAmiDecodersReadLevels := by
  intro s codes hin
  refine ⟨fun hlegal => ?_, fun hreserved => ?_⟩
  · obtain ⟨ls, rfl⟩ := codes_eq_map hlegal
    simp only [List.map_map, Function.comp_def, codeValue_code]
    exact ⟨exec_nrzDec hin, exec_amiDec hin⟩
  · obtain ⟨hnrz, -, hami, -⟩ := reservedLevelRaisesSignalError s codes .nrz hin hreserved
    exact ⟨hnrz, hami⟩

/-! ### The pairs that MAN_DEC reads -/

/-- One pair: its direction, or SignalError when it is flat (43_line_coding.md R214). -/
theorem manDecide_eq (l0 l1 : Level) :
    manDecide l0 l1 = if l0 = l1 then .error ⟨.signal, .line⟩ else .ok (decide (Level.value l1 < Level.value l0)) := by
  cases l0 <;> cases l1 <;> rfl

/-- A flat pair anywhere makes the scan raise; every pair before it either passes or raises the same error. -/
theorem manPairs_of_flat {ls : List Level} {j : Nat} {l : Level} (h0 : ls[2 * j]? = some l)
    (h1 : ls[2 * j + 1]? = some l) : manPairs ls = .error ⟨.signal, .line⟩ := by
  induction j generalizing ls with
  | zero =>
    obtain _ | ⟨l0, _ | ⟨l1, t⟩⟩ := ls
    · cases h0
    · cases h1
    · cases h0
      cases h1
      rw [manPairs, manDecide_eq, if_pos rfl, chain_error]
  | succ j ih =>
    obtain _ | ⟨l0, _ | ⟨l1, t⟩⟩ := ls
    · cases h0
    · cases h1
    · rw [manPairs, manDecide_eq, ih h0 h1]
      split_ifs <;> rfl

/-- Without a flat pair the scan gives one bit per pair (43_line_coding.md R214). -/
theorem manPairs_of_transitions {ls : List Level}
    (h : ∀ j l, ls[2 * j]? = some l → ls[2 * j + 1]? ≠ some l) :
    ∃ bits : List Bit, bits.length = ls.length / 2 ∧
      (∀ j l0 l1, ls[2 * j]? = some l0 → ls[2 * j + 1]? = some l1 →
        bits[j]? = some (decide (Level.value l1 < Level.value l0))) ∧
      manPairs ls = .ok bits := by
  match ls, h with
  | [], _ => exact ⟨[], rfl, nofun, rfl⟩
  | [_], _ => exact ⟨[], by simp, nofun, rfl⟩
  | l0 :: l1 :: t, h =>
    obtain ⟨bits, hlength, hbits, hscan⟩ := manPairs_of_transitions (ls := t) fun j => h (j + 1)
    have hne : l0 ≠ l1 := fun heq => h 0 l0 rfl (congrArg some heq.symm)
    refine ⟨decide (Level.value l1 < Level.value l0) :: bits, ?_, fun j m0 m1 hm0 hm1 => ?_, ?_⟩
    · simp only [List.length_cons, hlength]
      omega
    · cases j with
      | zero =>
        cases hm0
        cases hm1
        rfl
      | succ j => exact hbits j m0 m1 hm0 hm1
    · rw [manPairs, manDecide_eq, if_neg hne, chain_ok, hscan, chain_ok]

theorem manDec_of_odd {ls : List Level} (h : ls.length % 2 = 1) :
    manDec Config.build ls = .error ⟨.signal, .line⟩ := if_pos (by omega)

theorem manDec_of_even {ls : List Level} (h : ls.length % 2 = 0) : manDec Config.build ls = manPairs ls := by
  rw [manDec, if_neg (not_not.2 h)]
  cases manPairs ls <;> rfl

/-- A flat pair makes MAN_DEC raise, whatever the count. -/
theorem manDec_of_flat {ls : List Level} {j : Nat} {l : Level} (h0 : ls[2 * j]? = some l)
    (h1 : ls[2 * j + 1]? = some l) : manDec Config.build ls = .error ⟨.signal, .line⟩ := by
  obtain heven | hodd := Nat.mod_two_eq_zero_or_one ls.length
  · rw [manDec_of_even heven, manPairs_of_flat h0 h1]
  · exact manDec_of_odd hodd

theorem code_injective : Function.Injective Level.code := fun l l' h => by simpa using congrArg levelOf h

theorem map_code_getElem? {ls : List Level} {i : Nat} {l : Level} :
    (ls.map Level.code)[i]? = some (Level.code l) ↔ ls[i]? = some l := by
  rw [List.getElem?_map, ← Option.map_some, (Option.map_injective code_injective).eq_iff]

/-- Settles O36: on an even count MAN_DEC is its scan of the pairs. -/
theorem manDecReadsTransitions : Obligations.ManDecReadsTransitions := by
  intro s codes hin hlegal
  obtain ⟨ls, rfl⟩ := codes_eq_map hlegal
  have hexec := exec_manDec hin
  rw [List.length_map]
  refine ⟨fun hbad => ?_, fun heven htransitions => ?_⟩
  · have hraise : manDec Config.build ls = .error ⟨.signal, .line⟩ := by
      obtain hodd | ⟨j, c, h0, h1⟩ := hbad
      · exact manDec_of_odd hodd
      · obtain ⟨l, hl, rfl⟩ := Option.map_eq_some_iff.1 (List.getElem?_map.symm.trans h0)
        exact manDec_of_flat hl (map_code_getElem?.1 h1)
    rw [hexec, hraise]
    rfl
  · obtain ⟨bits, hlength, hbits, hscan⟩ := manPairs_of_transitions fun j l h0 h1 =>
      htransitions j (Level.code l) (map_code_getElem?.2 h0) (map_code_getElem?.2 h1)
    refine ⟨bits, hlength, fun j c0 c1 h0 h1 => ?_, ?_⟩
    · obtain ⟨l0, hl0, rfl⟩ := Option.map_eq_some_iff.1 (List.getElem?_map.symm.trans h0)
      obtain ⟨l1, hl1, rfl⟩ := Option.map_eq_some_iff.1 (List.getElem?_map.symm.trans h1)
      rw [codeValue_code, codeValue_code]
      exact hbits j l0 l1 hl0 hl1
    · rw [hexec, manDec_of_even heven, hscan]
      rfl

/-! ### The way back -/

theorem inAlphabet_iff {lc : LineCode} {l : Level} : inAlphabet lc l = true ↔ l ∈ alphabet lc := by
  cases lc <;> cases l <;> decide

theorem manPairs_lineLevels (bits : List Bit) : manPairs (lineLevels .man bits) = .ok bits := by
  induction bits with
  | nil => rfl
  | cons b t ih =>
    have hstep : lineLevels .man (b :: t) = bitLevel b :: bitLevel (!b) :: lineLevels .man t := by
      rw [lineLevels, List.flatMap_cons, manPair_eq]; rfl
    rw [hstep, manPairs, manDecide_bitLevel, chain_ok, ih, chain_ok]

theorem lineDec_lineLevels (lc : LineCode) (bits : List Bit) :
    lineDec Config.build lc (lineLevels lc bits) = .ok bits := by
  cases lc with
  | nrz => exact lineDec_recon (lc := .nrz) nofun bits
  | man =>
    have heven : (lineLevels .man bits).length % 2 = 0 := by
      rw [← map_bitLevel_presence, List.length_map, length_presence_man]; omega
    exact (manDec_of_even heven).trans (manPairs_lineLevels bits)
  | ami => exact lineDec_recon (lc := .ami) nofun bits

/-- Settles O38. -/
theorem lineDecodersInvertEncoders : Obligations.LineDecodersInvertEncoders := fun lc bits =>
  ⟨lineLevels lc bits, fun _ hl => inAlphabet_iff.1 (List.all_eq_true.1 (all_inAlphabet_lineLevels lc bits) _ hl),
    gives_lineEncoder lc bits, gives_lineDecoder (lineDec_lineLevels lc bits)⟩

end Sys2Proof.Machine
end

section
/-!
SUPPORT. QAM_MOD (44_modulation.md R262, R263): the samples of every window by position, from the presence bits with
their padding.
-/

namespace Sys2Proof.Machine

/-! ### The levels that QAM_MOD takes -/

/-- The presence convention of the statements is the model's (44_modulation.md R243). -/
theorem present_eq_carrierOn (lc : LineCode) : present lc = carrierOn lc := by
  funext l
  cases lc <;> cases l <;> rfl

theorem qamMod_of_outside {lc : LineCode} {ls : List Level} (h : ∃ l ∈ ls, l ∉ alphabet lc) :
    qamMod Config.build lc ls = .error ⟨.constellation, .carrier⟩ := by
  obtain ⟨l, hmem, hout⟩ := h
  exact if_neg fun hall => hout (inAlphabet_iff.1 (List.all_eq_true.1 hall l hmem))

theorem qamMod_of_inside {lc : LineCode} {ls : List Level} (h : ∀ l ∈ ls, l ∈ alphabet lc) :
    qamMod Config.build lc ls = .ok (qamWindows Config.build (qamPad (ls.map (carrierOn lc)))) := by
  rw [qamMod, if_pos (List.all_eq_true.2 fun l hmem => inAlphabet_iff.2 (h l hmem)), within_build,
    present_eq_carrierOn]

/-! ### The windows, by position -/

theorem qamWindows_length {ν : Type} (p : Params ν) (bits : List Bit) :
    (qamWindows p bits).length = 100 * (bits.length / 3) := by
  fun_induction qamWindows p bits with
  | case1 b0 b1 b2 t ih =>
    simp only [List.length_append, ih, qamWindow, carrierWindow_length, List.length_cons]
    omega
  | case2 bits hshort =>
    have hlength : bits.length < 3 := by
      by_contra hlong
      obtain _ | ⟨b0, _ | ⟨b1, _ | ⟨b2, t⟩⟩⟩ := bits
      · simp at hlong
      · simp at hlong
      · simp at hlong
      · exact hshort b0 b1 b2 t rfl
    rw [Nat.div_eq_of_lt hlength]
    rfl

/-- Sample 100·j + k is sample k of the window of bits 3·j, 3·j + 1 and 3·j + 2. -/
theorem qamWindows_getElem? {ν : Type} {p : Params ν} {bits : List Bit} {j k : Nat} {x : ν} (hk : k < 100)
    (h : (qamWindows p bits)[100 * j + k]? = some x) :
    (qamWindow p (bits.getD (3 * j) false) (bits.getD (3 * j + 1) false) (bits.getD (3 * j + 2) false))[k]? =
      some x := by
  fun_induction qamWindows p bits generalizing j with
  | case1 b0 b1 b2 t ih =>
    have hwindow : (qamWindow p b0 b1 b2).length = 100 := carrierWindow_length _ _ _ _
    cases j with
    | zero => rwa [List.getElem?_append_left (by omega), Nat.mul_zero, Nat.zero_add] at h
    | succ j =>
      rw [List.getElem?_append_right (by omega), hwindow,
        show 100 * (j + 1) + k - 100 = 100 * j + k by omega] at h
      exact ih h
  | case2 => cases h

/-- The amplitude and the phase of a symbol, sample by sample (44_modulation.md R262). -/
theorem toReal_qamWindow {b0 b1 b2 : Bit} {k : Nat} {x : Sample}
    (h : (qamWindow Config.build b0 b1 b2)[k]? = some x) :
    x.toReal = ((1 + b2.toNat : Nat) : ℝ) * Real.sin (angle (2 * k + 25 * (2 * b0.toNat + b1.toNat))) := by
  rw [toReal_carrierWindow build_num h, build_sin, Rat.cast_natCast]
  rfl

theorem qamPad_getD (bits : List Bit) (i : Nat) : (qamPad bits).getD i false = (bits[i]?).getD false := by
  rw [List.getD_eq_getElem?_getD, qamPad]
  by_cases hi : i < bits.length
  · rw [List.getElem?_append_left hi]
  · rw [List.getElem?_append_right (by omega), List.getElem?_eq_none (l := bits) (by omega), List.getElem?_replicate]
    split_ifs <;> rfl

theorem qamPad_length_div_three (bits : List Bit) : (qamPad bits).length / 3 = (bits.length + 2) / 3 := by
  rw [qamPad, List.length_append, List.length_replicate]
  omega

/-- Settles O41: the windows of the padded presence bits, read by position. -/
theorem qamModSendsTheConstellation : Obligations.QamModSendsTheConstellation := by
  intro s lc ls hin
  have houtcome := outcome_modulator (p := Config.build) .qam lc hin
  refine ⟨fun hout => ?_, fun hinside =>
    ⟨qamWindows Config.build (qamPad (ls.map (carrierOn lc))), ?_, fun j k x hk hx => ?_, ?_⟩⟩
  · rw [carMod, qamMod_of_outside hout, chain_error] at houtcome
    exact exec_of_error houtcome (show errorStatus 0x24#6 ⟨.constellation, .carrier⟩ = 0x2474#16 from rfl)
  · rw [qamWindows_length, qamPad_length_div_three, List.length_map]
  · have hsample := toReal_qamWindow (qamWindows_getElem? hk hx)
    simpa only [qamPad_getD, List.getElem?_map] using hsample
  · rw [carMod, qamMod_of_inside hinside, chain_ok] at houtcome
    exact exec_of_ok (modulator_inKind .qam lc) houtcome (show successStatus 0x24#6 = 0x2400#16 from rfl)

end Sys2Proof.Machine
end

section
/-!
SUPPORT. MODULATE and DEMODULATE by their stages (45_pipeline.md R294 to R296): each is its two stage commands, with the
error of the one that raises; and the whole physical layer with ASK (44_modulation.md R252).
-/

namespace Sys2Proof.Machine

/-! ### The carrier commands -/

/-- A modulator never raises on levels of the line code's alphabet (44_modulation.md R251, R256, R263). -/
theorem carMod_build_ok (car : Carrier) {lc : LineCode} {ls : List Level} (h : ls.all (inAlphabet lc) = true) :
    ∃ xs, carMod Config.build car lc ls = .ok xs := by
  cases car with
  | ask => exact ⟨_, within_build .carrier _⟩
  | fsk => exact ⟨_, within_build .carrier _⟩
  | qam => exact ⟨_, if_pos h⟩

theorem gives_modulator {car : Carrier} {lc : LineCode} {ls : List Level} {xs : List Sample}
    (h : carMod Config.build car lc ls = .ok xs) :
    Gives (modulator car lc) (.level (ls.map Level.code)) (.sample xs) :=
  gives_of_outcome (modulator_inKind car lc) fun _ hin => by
    rw [outcome_modulator car lc hin, h, chain_ok, sampleOutput]

theorem gives_demodulator {car : Carrier} {lc : LineCode} {ls : List Level} {xs : List Sample}
    (h : carDem Config.build car lc xs = .ok ls) :
    Gives (demodulator car lc) (.sample xs) (.level (ls.map Level.code)) :=
  gives_of_outcome (demodulator_inKind car lc) fun _ hin => by
    rw [outcome_demodulator car lc hin, h, chain_ok, levelOutput]

theorem raises_demodulator {car : Carrier} {lc : LineCode} {xs : List Sample} {e : Raise}
    (h : carDem Config.build car lc xs = .error e) : Raises (demodulator car lc) (.sample xs) e.codes :=
  raises_of_outcome fun _ hin => by rw [outcome_demodulator car lc hin, h, chain_error]

theorem raises_lineDecoder {lc : LineCode} {ls : List Level} {e : Raise}
    (h : lineDec Config.build lc ls = .error e) :
    Raises (lineDecoder lc) (.level (ls.map Level.code)) e.codes :=
  raises_of_outcome fun _ hin => by rw [outcome_lineDecoder lc hin, h, chain_error]

/-! ### MODULATE -/

theorem modulate_runs_stages {s : State} {m : Schemes} {bits : List Bit} (hm : s.Selects m)
    (hin : s.inBuf = .bit bits) :
    ∃ codes xs, Gives (lineEncoder m.lc) (.bit bits) (.level codes) ∧
      Gives (modulator m.car m.lc) (.level codes) (.sample xs) ∧
      exec .modulate s = .next (s.ended 0x3200#16 (.sample xs) .none) := by
  obtain ⟨xs, hmod⟩ := carMod_build_ok m.car (all_inAlphabet_lineLevels m.lc bits)
  have hstages : modulateStages Config.build m bits = .ok xs := by rw [modulateStages, lineEnc_build, chain_ok, hmod]
  exact ⟨_, xs, gives_lineEncoder m.lc bits, gives_modulator hmod, exec_modulate_of_ok hm hin hstages⟩

/-! ### DEMODULATE -/

/-- What a stage raised, as DEMODULATE reports it (45_pipeline.md R296). -/
theorem exec_demodulate_raises {s : State} {m : Schemes} {xs : List Sample} {e : Raise} (hm : s.Selects m)
    (hin : s.inBuf = .sample xs) (h : demodulateStages Config.build m xs = .error e) :
    exec .demodulate s = .next (s.ended (0x33#8 ++ e.codes) .none .none) := by
  rw [exec_demodulate_of_error hm hin h, errorStatus, statusWord_eq_append]
  rfl

theorem demodulate_runs_stages {s : State} {m : Schemes} {xs : List Sample} (hm : s.Selects m)
    (hin : s.inBuf = .sample xs) :
    (∃ e, Raises (demodulator m.car m.lc) (.sample xs) e ∧
        exec .demodulate s = .next (s.ended (0x33#8 ++ e) .none .none)) ∨
      ∃ codes, Gives (demodulator m.car m.lc) (.sample xs) (.level codes) ∧
        ((∃ e, Raises (lineDecoder m.lc) (.level codes) e ∧
            exec .demodulate s = .next (s.ended (0x33#8 ++ e) .none .none)) ∨
          ∃ bits, Gives (lineDecoder m.lc) (.level codes) (.bit bits) ∧
            exec .demodulate s = .next (s.ended 0x3300#16 (.bit bits) .none)) := by
  cases hdem : carDem Config.build m.car m.lc xs with
  | error e =>
    have hstages : demodulateStages Config.build m xs = .error e := by rw [demodulateStages, hdem, chain_error]
    exact .inl ⟨_, raises_demodulator hdem, exec_demodulate_raises hm hin hstages⟩
  | ok ls =>
    have hstages : demodulateStages Config.build m xs = lineDec Config.build m.lc ls := by
      rw [demodulateStages, hdem, chain_ok]
    refine .inr ⟨_, gives_demodulator hdem, ?_⟩
    cases hdec : lineDec Config.build m.lc ls with
    | error e => exact .inl ⟨_, raises_lineDecoder hdec, exec_demodulate_raises hm hin (hstages.trans hdec)⟩
    | ok bits => exact .inr ⟨bits, gives_lineDecoder hdec, exec_demodulate_of_ok hm hin (hstages.trans hdec)⟩

/-! ### The physical layer with ASK -/

/-- Whether the mean absolute amplitude of a window is above ASK's upper threshold (44_modulation.md R252). -/
noncomputable def askOn (w : List Sample) : Bit := decide (1 / 2 < realMeanAbs w)

/-- The mean absolute amplitude of a window is outside ASK's dead zone (44_modulation.md R252). -/
def AskClear (w : List Sample) : Prop := realMeanAbs w < 1 / 4 ∨ 1 / 2 < realMeanAbs w

/-- Outside the dead zone ASK's decision is the comparison with the upper threshold (44_modulation.md R252). -/
theorem askDecide_of_clear {w : List Sample} (h : AskClear w) :
    askDecide Config.build w = .ok (askOn w) := by
  obtain ⟨hon, hdecide⟩ | ⟨hoff, hdecide⟩ | ⟨hlow, hhigh, -⟩ := askDecide_cases w
  · rw [hdecide, askOn, decide_eq_true hon]
  · rw [hdecide, askOn, decide_eq_false (by linarith)]
  · exact absurd h (not_or.2 ⟨hlow.not_gt, hhigh.not_gt⟩)

theorem splitWindows_of_whole {ν : Type} {xs : List ν} (h : xs.length % 100 = 0) :
    splitWindows xs = .ok (wholeGroups 100 xs) := if_neg (not_not.2 h)

theorem forall_mem_wholeGroups {α : Type} {n : Nat} {xs : List α} {P : List α → Prop}
    (h : ∀ i < xs.length / n, P (slice xs (n * i) n)) : ∀ w ∈ wholeGroups n xs, P w := by
  intro w hw
  obtain ⟨i, hi⟩ := List.mem_iff_getElem?.1 hw
  have hrange : i < xs.length / n := by
    rw [← wholeGroups_length]
    exact (List.getElem?_eq_some_iff.1 hi).1
  obtain rfl := Option.some.inj ((wholeGroups_getElem? xs hrange).symm.trans hi)
  exact h i hrange

theorem askDem_of_clear (lc : LineCode) {xs : List Sample} (hwhole : xs.length % 100 = 0)
    (hclear : ∀ i < xs.length / 100, AskClear (slice xs (100 * i) 100)) :
    askDem Config.build lc xs = .ok (recon Config.build lc ((wholeGroups 100 xs).map askOn)) := by
  have hdecide : mapResult (askDecide Config.build) (wholeGroups 100 xs) = .ok ((wholeGroups 100 xs).map askOn) :=
    mapResult_ok fun w hw => askDecide_of_clear (forall_mem_wholeGroups hclear w hw)
  rw [askDem, splitWindows_of_whole hwhole, chain_ok, hdecide, chain_ok, within_build]

/-- With ASK and one level per bit, DEMODULATE's bits are the decisions on the windows (43_line_coding.md R224). -/
theorem demodulateStages_ask {m : Schemes} (hcar : m.car = .ask) (hlc : m.lc ≠ .man) {xs : List Sample}
    (hwhole : xs.length % 100 = 0)
    (hclear : ∀ i < xs.length / 100, AskClear (slice xs (100 * i) 100)) :
    demodulateStages Config.build m xs = .ok ((wholeGroups 100 xs).map askOn) := by
  rw [demodulateStages, hcar, carDem, askDem_of_clear m.lc hwhole hclear, chain_ok, lineDec_recon hlc]

/-- Settles O51. -/
theorem physicalLayerRunsItsStagesInOrder : Obligations.PhysicalLayerRunsItsStagesInOrder := by
  intro s m hm
  refine ⟨fun bits hin => modulate_runs_stages hm hin, fun xs hin => demodulate_runs_stages hm hin,
    fun xs hin hcar hlc hwhole hclear => ⟨_, ?_, fun i b hb => ?_,
      exec_demodulate_of_ok hm hin (demodulateStages_ask hcar hlc hwhole hclear)⟩⟩
  · rw [List.length_map, wholeGroups_length]
  · have hrange : i < xs.length / 100 := by
      simpa [wholeGroups_length] using (List.getElem?_eq_some_iff.1 hb).1
    rw [map_wholeGroups_getElem? askOn xs hrange] at hb
    rw [← Option.some.inj hb, askOn, decide_eq_true_iff]

end Sys2Proof.Machine
end

section
/-!
SUPPORT. ASK_MOD and FSK_MOD (44_modulation.md R240 to R243, R251, R256): one window of 100 samples per level, read by
position.
-/

namespace Sys2Proof.Machine

/-! ### A carrier command that raises nothing -/

/-- A command that reads IN and succeeds on a build changes only STATUS, OUT0 and OUT1 (60_exceptions.md R326). -/
theorem commandOn_ended_of_ok {p : Params Sample} {i : Instr} {s : State} {k : BitVec 3} {outs : Buffer × Buffer}
    {w : Word} (hi : i.inKind = some k) (h : outcome p i s = .ok outs) (hw : successStatus i.opcode = w) :
    commandOn p i s = s.ended w outs.1 outs.2 := by
  rw [commandOn_of_ok h, moved_of_inKind hi, succeed_eq_ended, hw]

section
variable {p : Params Sample} {s : State} {ls : List Level} {xs : List Sample} {w : Word} {car : Carrier}
  {lc : LineCode}

theorem commandOn_modulator_of_ok (hin : s.inBuf = .level (ls.map Level.code)) (h : carMod p car lc ls = .ok xs)
    (hw : successStatus (modulator car lc).opcode = w) :
    commandOn p (modulator car lc) s = s.ended w (.sample xs) .none := by
  have houtcome := outcome_modulator (p := p) car lc hin
  rw [h, chain_ok] at houtcome
  exact commandOn_ended_of_ok (modulator_inKind car lc) houtcome hw

theorem commandOn_demodulator_of_ok (hin : s.inBuf = .sample xs) (h : carDem p car lc xs = .ok ls)
    (hw : successStatus (demodulator car lc).opcode = w) :
    commandOn p (demodulator car lc) s = s.ended w (.level (ls.map Level.code)) .none := by
  have houtcome := outcome_demodulator (p := p) car lc hin
  rw [h, chain_ok] at houtcome
  exact commandOn_ended_of_ok (demodulator_inKind car lc) houtcome hw

end

/-! ### Windows of one length, by position -/

section
variable {α ν : Type} {n : Nat} {window : α → List ν}

theorem flatMap_windows_length (hwindow : ∀ a, (window a).length = n) (as : List α) :
    (as.flatMap window).length = n * as.length := by
  induction as with
  | nil => rfl
  | cons a t ih =>
    rw [List.flatMap_cons, List.length_append, ih, hwindow, List.length_cons, Nat.mul_succ, Nat.add_comm]

theorem flatMap_windows_getElem? (hwindow : ∀ a, (window a).length = n) {as : List α} {i k : Nat} {a : α}
    (hk : k < n) (ha : as[i]? = some a) : (as.flatMap window)[n * i + k]? = (window a)[k]? := by
  induction as generalizing i with
  | nil => cases ha
  | cons b t ih =>
    have hb := hwindow b
    cases i with
    | zero =>
      obtain rfl : b = a := Option.some.inj ha
      rw [List.flatMap_cons, Nat.mul_zero, Nat.zero_add, List.getElem?_append_left (by omega)]
    | succ i =>
      have hindex : n * (i + 1) + k - (window b).length = n * i + k := by rw [hb, Nat.mul_succ]; omega
      rw [List.flatMap_cons, List.getElem?_append_right (by rw [hb, Nat.mul_succ]; omega), hindex]
      exact ih ha

end

/-! ### The windows of ASK and FSK -/

@[simp] theorem askWindow_length {ν : Type} (p : Params ν) (lc : LineCode) (l : Level) :
    (askWindow p lc l).length = 100 := by
  unfold askWindow
  split
  · exact carrierWindow_length _ _ _ _
  · exact List.length_replicate

@[simp] theorem fskWindow_length {ν : Type} (p : Params ν) (lc : LineCode) (l : Level) :
    (fskWindow p lc l).length = 100 := carrierWindow_length _ _ _ _

/-- The carrier or silence, sample by sample (44_modulation.md R251). -/
theorem toReal_askWindow {lc : LineCode} {l : Level} {k : Nat} {x : Sample}
    (h : (askWindow Config.build lc l)[k]? = some x) :
    x.toReal = if carrierOn lc l then Real.sin (angle (2 * k)) else 0 := by
  rw [askWindow, present_eq_carrierOn] at h
  split_ifs at h ⊢
  · rw [toReal_carrierWindow build_num h, build_sin, show Config.build.aAsk = 1 from rfl, Rat.cast_one, one_mul]
    rfl
  · rw [List.eq_of_mem_replicate (List.mem_of_getElem? h)]
    exact toReal_zero

/-- One of the two tones, sample by sample (44_modulation.md R256). -/
theorem toReal_fskWindow {lc : LineCode} {l : Level} {k : Nat} {x : Sample}
    (h : (fskWindow Config.build lc l)[k]? = some x) :
    x.toReal = Real.sin (angle ((if carrierOn lc l then 4 else 2) * k)) := by
  rw [toReal_carrierWindow build_num h, build_sin, present_eq_carrierOn, show Config.build.aFsk = 1 from rfl,
    Rat.cast_one, one_mul]
  rfl

/-- Settles O39. -/
theorem askModGatesTheCarrier : Obligations.AskModGatesTheCarrier := by
  intro s lc ls hin
  refine ⟨ls.flatMap (askWindow Config.build lc), flatMap_windows_length (askWindow_length _ lc) ls,
    fun i k l x hk hl hx => ?_, ?_⟩
  · rw [flatMap_windows_getElem? (askWindow_length _ lc) hk hl] at hx
    exact toReal_askWindow hx
  · rw [exec_eq_commandOn]
    exact congrArg _ (commandOn_modulator_of_ok (car := .ask) hin (within_build .carrier _)
      (show successStatus 0x20#6 = 0x2000#16 from rfl))

/-- Settles O40. -/
theorem fskModSendsTwoTones : Obligations.FskModSendsTwoTones := by
  intro s lc ls hin
  refine ⟨ls.flatMap (fskWindow Config.build lc), flatMap_windows_length (fskWindow_length _ lc) ls,
    fun i k l x hk hl hx => ?_, ?_⟩
  · rw [flatMap_windows_getElem? (fskWindow_length _ lc) hk hl] at hx
    exact toReal_fskWindow hx
  · rw [exec_eq_commandOn]
    exact congrArg _ (commandOn_modulator_of_ok (car := .fsk) hin (within_build .carrier _)
      (show successStatus 0x22#6 = 0x2200#16 from rfl))

end Sys2Proof.Machine
end

section
/-!
SUPPORT. The demodulators on any samples (44_modulation.md R244, R250, R252, R257, R264, R265): each cuts its input into
windows, decides every window, and rebuilds levels from the bits decided (`windowAnswers`). The statements then ask what
one window decides.
-/

namespace Sys2Proof.Machine

/-! ### The decisions on all windows -/

section
variable {α β ν : Type} {decision : List ν → Result β} {xs : List ν}

/-- What a demodulator decides on each whole window of its input (44_modulation.md R250). -/
def windowAnswers (decision : List ν → Result β) (xs : List ν) : Result (List β) :=
  chain (splitWindows xs) (mapResult decision)

/-- A sample count that is not a multiple of 100 raises (44_modulation.md R250). -/
theorem windowAnswers_of_partial (h : xs.length % 100 ≠ 0) :
    windowAnswers decision xs = .error carrierSignalError := by
  rw [windowAnswers, splitWindows, if_pos (show xs.length % Config.nSps ≠ 0 from h), chain_error]

theorem windowAnswers_of_whole (h : xs.length % 100 = 0) :
    windowAnswers decision xs = mapResult decision (wholeGroups 100 xs) := by
  rw [windowAnswers, splitWindows_of_whole h, chain_ok]

theorem windowAnswers_of_ok {answer : List ν → β} (hwhole : xs.length % 100 = 0)
    (h : ∀ i < xs.length / 100, decision (slice xs (100 * i) 100) = .ok (answer (slice xs (100 * i) 100))) :
    windowAnswers decision xs = .ok ((wholeGroups 100 xs).map answer) := by
  rw [windowAnswers_of_whole hwhole]
  exact mapResult_ok (forall_mem_wholeGroups h)

/-- Where only one error can be raised, an element that raises makes the whole sequence raise it. -/
theorem mapResult_of_mem_error {f : α → Result β} {as : List α} {a : α} {e : Raise}
    (honly : ∀ b, f b = .error e ∨ ∃ c, f b = .ok c) (hmem : a ∈ as) (ha : f a = .error e) :
    mapResult f as = .error e := by
  induction as with
  | nil => cases hmem
  | cons b t ih =>
    rw [mapResult]
    obtain hb | ⟨c, hb⟩ := honly b
    · rw [hb]
    · obtain rfl | ht := List.mem_cons.1 hmem
      · cases ha.symm.trans hb
      · rw [hb, ih ht]

theorem windowAnswers_of_error (honly : ∀ w, decision w = .error carrierSignalError ∨ ∃ c, decision w = .ok c)
    (hwhole : xs.length % 100 = 0) {i : Nat} (hi : i < xs.length / 100)
    (h : decision (slice xs (100 * i) 100) = .error carrierSignalError) :
    windowAnswers decision xs = .error carrierSignalError := by
  rw [windowAnswers_of_whole hwhole]
  exact mapResult_of_mem_error honly (List.mem_of_getElem? (wholeGroups_getElem? xs hi)) h

/-- On windows sent one after another each window decides for itself. -/
theorem windowAnswers_flatMap {window : α → List ν} {answer : α → β} (hlength : ∀ a, (window a).length = 100)
    (h : ∀ a, decision (window a) = .ok (answer a)) (as : List α) :
    windowAnswers decision (as.flatMap window) = .ok (as.map answer) := by
  have hwindows : ∀ w ∈ as.map window, w.length = Config.nSps := List.forall_mem_map.2 fun a _ => hlength a
  rw [windowAnswers, List.flatMap_def, splitWindows_flatten hwindows, chain_ok, mapResult_map]
  exact mapResult_ok fun a _ => h a

end

section
variable {ν : Type} {p : Params ν} (hp : p.maxLen = none) (lc : LineCode) (xs : List ν)
include hp

theorem askDem_eq : askDem p lc xs = chain (windowAnswers (askDecide p) xs) fun bits => .ok (recon p lc bits) := by
  simp only [askDem, windowAnswers, chain_assoc, within_unbounded hp]

theorem fskDem_eq : fskDem p lc xs = chain (windowAnswers (fskDecide p) xs) fun bits => .ok (recon p lc bits) := by
  simp only [fskDem, windowAnswers, chain_assoc, within_unbounded hp]

theorem qamDem_eq :
    qamDem p lc xs = chain (windowAnswers (qamDecide p) xs) fun bits => .ok (recon p lc bits.flatten) := by
  simp only [qamDem, windowAnswers, chain_assoc, within_unbounded hp]

end

/-! ### The levels rebuilt -/

/-- `recon` as the statements say it (44_modulation.md R244). -/
theorem rebuilds_recon {ν : Type} {p : Params ν} (hp : p.amiStart = .plus) (lc : LineCode) (bits : List Bit) :
    Rebuilds lc bits ((recon p lc bits).map Level.code) := by
  cases lc with
  | nrz =>
    refine ⟨by simp [recon], fun i b hb => ?_⟩
    rw [recon, List.getElem?_map, List.getElem?_map, hb]
    cases b <;> rfl
  | man =>
    refine ⟨by simp [recon], fun i b hb => ?_⟩
    rw [recon, List.getElem?_map, List.getElem?_map, hb]
    cases b <;> rfl
  | ami =>
    rw [recon, hp]
    exact rebuilds_amiLevels bits

section
variable {car : Carrier} {lc : LineCode} {s : State} {xs : List Sample} {bits : List Bit} {w : Word}

theorem exec_demodulator_of_error (hin : s.inBuf = .sample xs)
    (h : carDem Config.build car lc xs = .error carrierSignalError)
    (hw : errorStatus (demodulator car lc).opcode carrierSignalError = w) :
    exec (demodulator car lc) s = .next (s.ended w .none .none) :=
  exec_of_error (by rw [outcome_demodulator car lc hin, h, chain_error]) hw

theorem exec_demodulator_of_ok (hin : s.inBuf = .sample xs)
    (h : carDem Config.build car lc xs = .ok (recon Config.build lc bits))
    (hw : successStatus (demodulator car lc).opcode = w) :
    ∃ codes, Rebuilds lc bits codes ∧ exec (demodulator car lc) s = .next (s.ended w (.level codes) .none) := by
  refine ⟨_, rebuilds_recon (p := Config.build) rfl lc bits, ?_⟩
  rw [exec_eq_commandOn, commandOn_demodulator_of_ok hin h hw]

end

/-- The bit decided on window i stands at index i. -/
theorem map_wholeGroups_eq_iff {answer : List Sample → Bit} {P : List Sample → Prop}
    (hanswer : ∀ w, answer w = true ↔ P w) {xs : List Sample} {i : Nat} {b : Bit}
    (hb : ((wholeGroups 100 xs).map answer)[i]? = some b) : b = true ↔ P (slice xs (100 * i) 100) := by
  have hrange : i < xs.length / 100 := by
    simpa [wholeGroups_length] using (List.getElem?_eq_some_iff.1 hb).1
  rw [map_wholeGroups_getElem? answer xs hrange] at hb
  rw [← Option.some.inj hb, hanswer]

theorem length_map_wholeGroups {β : Type} (answer : List Sample → β) (xs : List Sample) :
    ((wholeGroups 100 xs).map answer).length = xs.length / 100 := by
  rw [List.length_map, wholeGroups_length]

/-! ### ASK_DEM -/

theorem askDecide_error_or_ok (w : List Sample) :
    askDecide Config.build w = .error carrierSignalError ∨ ∃ b, askDecide Config.build w = .ok b := by
  obtain ⟨-, h⟩ | ⟨-, h⟩ | ⟨-, -, h⟩ := askDecide_cases w
  · exact .inr ⟨_, h⟩
  · exact .inr ⟨_, h⟩
  · exact .inl h

theorem askDecide_of_dead {w : List Sample} (hlow : 1 / 4 ≤ realMeanAbs w) (hhigh : realMeanAbs w ≤ 1 / 2) :
    askDecide Config.build w = .error carrierSignalError := by
  obtain ⟨hon, -⟩ | ⟨hoff, -⟩ | ⟨-, -, h⟩ := askDecide_cases w
  · exact absurd hhigh hon.not_ge
  · exact absurd hlow hoff.not_ge
  · exact h

/-- Settles O43. -/
theorem askDemClassifiesByMeanAmplitude : Obligations.AskDemClassifiesByMeanAmplitude := by
  intro s lc xs hin
  have hstages : carDem Config.build .ask lc xs = _ := askDem_eq rfl lc xs
  refine ⟨fun hpartial => ?_, fun hwhole => ⟨fun ⟨i, hi, hlow, hhigh⟩ => ?_, fun hclear => ?_⟩⟩
  · rw [windowAnswers_of_partial hpartial] at hstages
    exact exec_demodulator_of_error hin hstages (show errorStatus 0x21#6 _ = 0x2176#16 from rfl)
  · rw [windowAnswers_of_error askDecide_error_or_ok hwhole hi (askDecide_of_dead hlow hhigh)] at hstages
    exact exec_demodulator_of_error hin hstages (show errorStatus 0x21#6 _ = 0x2176#16 from rfl)
  · obtain ⟨codes, hcodes, hexec⟩ :=
      exec_demodulator_of_ok (car := .ask) hin (askDem_of_clear lc hwhole hclear)
      (show successStatus 0x21#6 = 0x2100#16 from rfl)
    exact ⟨_, codes, length_map_wholeGroups askOn xs,
      fun i b => map_wholeGroups_eq_iff fun w => decide_eq_true_iff, hcodes, hexec⟩

/-! ### FSK_DEM -/

/-- Whether the energy of a window at frequency 4 is above that at 2 (44_modulation.md R257). -/
noncomputable def fskOn (w : List Sample) : Bit := decide (realEnergy 2 w < realEnergy 4 w)

theorem fskDecide_error_or_ok (w : List Sample) :
    fskDecide Config.build w = .error carrierSignalError ∨ ∃ b, fskDecide Config.build w = .ok b := by
  obtain ⟨-, h⟩ | ⟨-, h⟩ | ⟨-, h⟩ := fskDecide_cases w
  · exact .inr ⟨_, h⟩
  · exact .inr ⟨_, h⟩
  · exact .inl h

theorem fskDecide_of_eq {w : List Sample} (heq : realEnergy 4 w = realEnergy 2 w) :
    fskDecide Config.build w = .error carrierSignalError := by
  obtain ⟨hlt, -⟩ | ⟨hlt, -⟩ | ⟨-, h⟩ := fskDecide_cases w
  · exact absurd heq hlt.ne'
  · exact absurd heq hlt.ne
  · exact h

theorem fskDecide_of_ne {w : List Sample} (hne : realEnergy 4 w ≠ realEnergy 2 w) :
    fskDecide Config.build w = .ok (fskOn w) := by
  obtain ⟨hlt, h⟩ | ⟨hlt, h⟩ | ⟨heq, -⟩ := fskDecide_cases w
  · rw [h, fskOn, decide_eq_true hlt]
  · rw [h, fskOn, decide_eq_false hlt.not_gt]
  · exact absurd heq hne

/-- Settles O44. -/
theorem fskDemPicksTheHigherEnergy : Obligations.FskDemPicksTheHigherEnergy := by
  intro s lc xs hin
  have hstages : carDem Config.build .fsk lc xs = _ := fskDem_eq rfl lc xs
  refine ⟨fun hpartial => ?_, fun hwhole => ⟨fun ⟨i, hi, htie⟩ => ?_, fun hclear => ?_⟩⟩
  · rw [windowAnswers_of_partial hpartial] at hstages
    exact exec_demodulator_of_error hin hstages (show errorStatus 0x23#6 _ = 0x2376#16 from rfl)
  · rw [windowAnswers_of_error fskDecide_error_or_ok hwhole hi (fskDecide_of_eq htie)] at hstages
    exact exec_demodulator_of_error hin hstages (show errorStatus 0x23#6 _ = 0x2376#16 from rfl)
  · rw [windowAnswers_of_ok hwhole fun i hi => fskDecide_of_ne (hclear i hi)] at hstages
    obtain ⟨codes, hcodes, hexec⟩ :=
      exec_demodulator_of_ok hin hstages (show successStatus 0x23#6 = 0x2300#16 from rfl)
    exact ⟨_, codes, length_map_wholeGroups fskOn xs,
      fun i b => map_wholeGroups_eq_iff fun w => decide_eq_true_iff, hcodes, hexec⟩

/-! ### QAM_DEM -/

theorem qamDecide_error_or_ok (w : List Sample) :
    qamDecide Config.build w = .error carrierSignalError ∨ ∃ bits, qamDecide Config.build w = .ok bits := by
  obtain ⟨-, h⟩ | ⟨-, b0, b1, b2, -, h⟩ := qamDecide_cases w
  · exact .inl h
  · exact .inr ⟨_, h⟩

theorem qamDecide_of_rejects {w : List Sample} (hrejects : QamRejects w) :
    qamDecide Config.build w = .error carrierSignalError := by
  obtain ⟨-, h⟩ | ⟨hnot, -⟩ := qamDecide_cases w
  · exact h
  · exact absurd hrejects hnot

/-- The symbol of a window: the sign of the dominant component, which component that is, and whether r2 is above 9/4
(44_modulation.md R264). -/
noncomputable def qamSymbol (w : List Sample) : Symbol :=
  (decide ((if |realI w| < |realQ w| then realQ w else realI w) ≤ 0), decide (|realI w| < |realQ w|),
    decide (9 / 4 < realR2 w))

theorem qamDecides_qamSymbol {w : List Sample} (h : ¬ QamRejects w) :
    QamDecides w (qamSymbol w).1 (qamSymbol w).2.1 (qamSymbol w).2.2 := by
  obtain ⟨hlow, hboundary, hphase⟩ : ¬ realR2 w < 1 / 4 ∧ ¬ realR2 w = 9 / 4 ∧ ¬ |realI w| = |realQ w| := by
    simpa only [QamRejects, not_or] using h
  refine ⟨not_lt.1 hlow, hboundary, decide_eq_true_iff, ?_⟩
  obtain hlt | hlt := lt_or_gt_of_ne hphase
  · exact .inr ⟨hlt, decide_eq_true hlt, by simp [qamSymbol, hlt]⟩
  · exact .inl ⟨hlt, decide_eq_false hlt.not_gt, by simp [qamSymbol, hlt.not_gt]⟩

theorem qamDecide_of_not_rejects {w : List Sample} (h : ¬ QamRejects w) :
    qamDecide Config.build w = .ok (symbolBits (qamSymbol w)) := qamDecide_of_decides (qamDecides_qamSymbol h)

/-- The bits of symbol i stand at 3·i. -/
theorem slice_flatten_symbolBits {ts : List Symbol} {i : Nat} {t : Symbol} (ht : ts[i]? = some t) :
    slice (ts.map symbolBits).flatten (3 * i) 3 = symbolBits t := by
  have hlengths : ∀ g ∈ ts.map symbolBits, g.length = 3 := List.forall_mem_map.2 fun _ _ => rfl
  have hlength : (ts.map symbolBits).flatten.length = 3 * ts.length :=
    flatMap_windows_length (window := symbolBits) (fun _ => rfl) ts
  have hi : i < (ts.map symbolBits).flatten.length / 3 := by
    have hrange := (List.getElem?_eq_some_iff.1 ht).1
    omega
  obtain ⟨hgroups, -⟩ := wholeGroups_append (ts.map symbolBits) [] hlengths (by decide)
  rw [List.append_nil] at hgroups
  have hslice := wholeGroups_getElem? _ hi
  rw [hgroups, List.getElem?_map, ht] at hslice
  exact (Option.some.inj hslice).symm

/-- Settles O45. -/
theorem qamDemDecidesByComponents : Obligations.QamDemDecidesByComponents := by
  intro s lc xs hin
  have hstages : carDem Config.build .qam lc xs = _ := qamDem_eq rfl lc xs
  refine ⟨fun hpartial => ?_, fun hwhole => ⟨fun ⟨i, hi, hrejects⟩ => ?_, fun hclear => ?_⟩⟩
  · rw [windowAnswers_of_partial hpartial] at hstages
    exact exec_demodulator_of_error hin hstages (show errorStatus 0x25#6 _ = 0x2576#16 from rfl)
  · rw [windowAnswers_of_error qamDecide_error_or_ok hwhole hi (qamDecide_of_rejects hrejects)] at hstages
    exact exec_demodulator_of_error hin hstages (show errorStatus 0x25#6 _ = 0x2576#16 from rfl)
  · rw [windowAnswers_of_ok (answer := symbolBits ∘ qamSymbol) hwhole
      fun i hi => qamDecide_of_not_rejects (hclear i hi), ← List.map_map] at hstages
    obtain ⟨codes, hcodes, hexec⟩ :=
      exec_demodulator_of_ok hin hstages (show successStatus 0x25#6 = 0x2500#16 from rfl)
    refine ⟨_, codes, ?_, fun i hi => ⟨_, _, _, ?_, qamDecides_qamSymbol (hclear i hi)⟩, hcodes, hexec⟩
    · exact (flatMap_windows_length (window := symbolBits) (fun _ => rfl) _).trans
        (congrArg _ (length_map_wholeGroups qamSymbol xs))
    · exact slice_flatten_symbolBits (map_wholeGroups_getElem? qamSymbol xs hi)

end Sys2Proof.Machine
end

section
/-!
SUPPORT. Carriers from a table of sines that is off by at most 0.01 at each entry (44_modulation.md R241, R267). A
correlation of two such carriers is within 1.51 of the one of the ideal carriers, because |u| ≤ u² + 1/4 and the squares
of a window of sines sum to 50; and the mean absolute amplitude of a window keeps above 0.6258, because the ideal one is
cot(π/50)/25 and the four zeros of the window lose nothing.
-/

namespace Sys2Proof.Machine

/-! ### Carriers and correlations -/

/-- Sample k of a carrier of amplitude 1, as a real number. -/
noncomputable def idealCarrier (f ph k : Nat) : ℝ := Real.sin (angle (f * k + ph))

/-- The same, read from a table. -/
noncomputable def tableCarrier (T : Fin 100 → Sample) (f ph k : Nat) : ℝ := ((buildWithTable T).sin (f * k + ph)).toReal

/-- The sum of the products of two sequences over a window. -/
noncomputable def correlation (x y : Nat → ℝ) : ℝ := ∑ k ∈ Finset.range 100, x k * y k

/-- Every entry of the table is within 0.01 of its sine (44_modulation.md R267). -/
def NearSines (T : Fin 100 → Sample) : Prop := ∀ m : Fin 100, |(T m).toReal - Real.sin (angle m)| ≤ 0.01

theorem tableCarrier_near {T : Fin 100 → Sample} (hT : NearSines T) (f ph k : Nat) :
    |tableCarrier T f ph k - idealCarrier f ph k| ≤ 0.01 := by
  rw [idealCarrier, ← sin_angle_mod]
  exact hT (Fin.ofNat 100 (f * k + ph))

/-- The ideal table is exact. -/
theorem nearSines_SINTAB : NearSines SINTAB := fun m => by
  rw [SINTAB, toReal_SIN, sub_self, abs_zero]
  norm_num

theorem idealCarrier_mul (f g ph ph' k : Nat) : idealCarrier f ph k * idealCarrier g ph' k =
    (Real.cos (angle (f * k) - angle (g * k) + (angle ph - angle ph')) -
      Real.cos (angle ((f + g) * k) + (angle ph + angle ph'))) / 2 := by
  have hsub : angle (f * k) - angle (g * k) + (angle ph - angle ph') = angle (f * k + ph) - angle (g * k + ph') := by
    rw [angle_add, angle_add]; ring
  have hadd : angle ((f + g) * k) + (angle ph + angle ph') = angle (f * k + ph) + angle (g * k + ph') := by
    rw [Nat.add_mul, angle_add, angle_add, angle_add]; ring
  rw [hsub, hadd, Real.cos_sub, Real.cos_add, idealCarrier, idealCarrier]
  ring

/-- Carriers of one frequency correlate by their phase difference. -/
theorem correlation_ideal_same {f : Nat} (hf : ¬ 100 ∣ f + f) (ph ph' : Nat) :
    correlation (idealCarrier f ph) (idealCarrier f ph') = 50 * Real.cos (angle ph - angle ph') := by
  simp only [correlation, idealCarrier_mul, sub_self, zero_add]
  rw [← Finset.sum_div, Finset.sum_sub_distrib, sum_cos_angle hf, Finset.sum_const, Finset.card_range, nsmul_eq_mul]
  push_cast
  ring

/-- Carriers of two frequencies are orthogonal. -/
theorem correlation_ideal_of_add {f d : Nat} (hd : ¬ 100 ∣ d) (hsum : ¬ 100 ∣ f + d + f) (ph ph' : Nat) :
    correlation (idealCarrier (f + d) ph) (idealCarrier f ph') = 0 := by
  have hdiff (k : Nat) : angle ((f + d) * k) - angle (f * k) = angle (d * k) := by
    rw [Nat.add_mul, angle_add]; ring
  simp only [correlation, idealCarrier_mul, hdiff]
  rw [← Finset.sum_div, Finset.sum_sub_distrib, sum_cos_angle hd, sum_cos_angle hsum]
  norm_num

theorem correlation_comm (x y : Nat → ℝ) : correlation x y = correlation y x :=
  Finset.sum_congr rfl fun _ _ => mul_comm _ _

/-- An error of 0.01 in each factor of a product of sines. -/
theorem abs_mul_sub_mul_le {x y u v : ℝ} (hx : |x - u| ≤ 0.01) (hy : |y - v| ≤ 0.01) :
    |x * y - u * v| ≤ 0.01 * (u * u + v * v) + 0.0051 := by
  have habs (z : ℝ) : |z| ≤ z * z + 1 / 4 := by
    have hsq := sq_nonneg (|z| - 1 / 2)
    have hmul := abs_mul_abs_self z
    linarith
  have hv : |v * (x - u)| ≤ (v * v + 1 / 4) * 0.01 := by
    rw [abs_mul]; exact mul_le_mul (habs v) hx (abs_nonneg _) (add_nonneg (mul_self_nonneg v) (by norm_num))
  have hu : |u * (y - v)| ≤ (u * u + 1 / 4) * 0.01 := by
    rw [abs_mul]; exact mul_le_mul (habs u) hy (abs_nonneg _) (add_nonneg (mul_self_nonneg u) (by norm_num))
  have hxy : |(x - u) * (y - v)| ≤ 0.01 * 0.01 := by
    rw [abs_mul]; exact mul_le_mul hx hy (abs_nonneg _) (by norm_num)
  calc |x * y - u * v| = |v * (x - u) + u * (y - v) + (x - u) * (y - v)| := congrArg _ (by ring)
    _ ≤ |v * (x - u)| + |u * (y - v)| + |(x - u) * (y - v)| := abs_add_three _ _ _
    _ ≤ 0.01 * (u * u + v * v) + 0.0051 := by linarith

/-- The margin of every correlation (44_modulation.md R267). -/
theorem correlation_near {T : Fin 100 → Sample} (hT : NearSines T) {f g : Nat} (hf : ¬ 100 ∣ f + f)
    (hg : ¬ 100 ∣ g + g) (ph ph' : Nat) :
    |correlation (tableCarrier T f ph) (tableCarrier T g ph') -
      correlation (idealCarrier f ph) (idealCarrier g ph')| ≤ 1.51 := by
  have hsquares {f : Nat} (hf : ¬ 100 ∣ f + f) (ph : Nat) :
      ∑ k ∈ Finset.range 100, idealCarrier f ph k * idealCarrier f ph k = 50 := by
    have h := correlation_ideal_same hf ph ph
    rwa [sub_self, Real.cos_zero, mul_one] at h
  calc |correlation (tableCarrier T f ph) (tableCarrier T g ph') -
        correlation (idealCarrier f ph) (idealCarrier g ph')|
      = |∑ k ∈ Finset.range 100, (tableCarrier T f ph k * tableCarrier T g ph' k -
          idealCarrier f ph k * idealCarrier g ph' k)| := by rw [Finset.sum_sub_distrib]; rfl
    _ ≤ ∑ k ∈ Finset.range 100, (0.01 * (idealCarrier f ph k * idealCarrier f ph k +
          idealCarrier g ph' k * idealCarrier g ph' k) + 0.0051) :=
        (Finset.abs_sum_le_sum_abs _ _).trans (Finset.sum_le_sum fun k _ =>
          abs_mul_sub_mul_le (tableCarrier_near hT f ph k) (tableCarrier_near hT g ph' k))
    _ = 1.51 := by
        rw [Finset.sum_add_distrib, ← Finset.mul_sum, Finset.sum_add_distrib, hsquares hf, hsquares hg,
          Finset.sum_const, Finset.card_range]
        norm_num

/-! ### Measurements of a window -/

theorem map_toReal_carrierWindow (T : Fin 100 → Sample) (a : Rat) (f ph : Nat) :
    (carrierWindow (buildWithTable T) a f ph).map Sample.toReal =
      (List.range 100).map fun k => (a : ℝ) * tableCarrier T f ph k := by
  rw [carrierWindow, List.map_map]
  exact List.map_congr_left fun k _ => toReal_scale _ _

theorem realInner_tableWindow (T : Fin 100 → Sample) (a : Rat) (f ph : Nat) (g : Nat → ℝ) :
    realInner (carrierWindow (buildWithTable T) a f ph) g = a * correlation (tableCarrier T f ph) g := by
  rw [realInner, carrierWindow_length, sum_range_eq_finset, correlation, Finset.mul_sum]
  refine Finset.sum_congr rfl fun k hk => ?_
  rw [← List.getElem?_map, map_toReal_carrierWindow, List.getElem?_map,
    List.getElem?_range (Finset.mem_range.1 hk), Option.map_some, Option.getD_some, mul_assoc]

theorem realMeanAbs_tableWindow (T : Fin 100 → Sample) (f ph : Nat) :
    realMeanAbs (carrierWindow (buildWithTable T) 1 f ph) =
      (∑ k ∈ Finset.range 100, |tableCarrier T f ph k|) / 100 := by
  have hmap : (carrierWindow (buildWithTable T) 1 f ph).map (fun x => |x.toReal|) =
      (List.range 100).map fun k => |tableCarrier T f ph k| := by
    have h := congrArg (List.map abs) (map_toReal_carrierWindow T 1 f ph)
    simpa only [List.map_map, Function.comp_def, Rat.cast_one, one_mul] using h
  rw [realMeanAbs, hmap, sum_range_eq_finset]

/-- The energy of a window is that of its two correlations, SIN and COS being carriers of phase 0 and 25
(44_modulation.md R257). -/
theorem energy_tableWindow (T : Fin 100 → Sample) (f g ph : Nat) :
    (energy (buildWithTable T) g (carrierWindow (buildWithTable T) 1 f ph)).toReal =
      correlation (tableCarrier T f ph) (tableCarrier T g 0) ^ 2 +
        correlation (tableCarrier T f ph) (tableCarrier T g 25) ^ 2 := by
  rw [toReal_energy (buildWithTable_num T), realInner_tableWindow, realInner_tableWindow, Rat.cast_one, one_mul,
    one_mul]
  rfl

theorem inPhase_tableWindow (T : Fin 100 → Sample) (a : Rat) (ph : Nat) :
    (inPhase (buildWithTable T) (carrierWindow (buildWithTable T) a 2 ph)).toReal =
      2 / 100 * (a * correlation (tableCarrier T 2 ph) (tableCarrier T 2 0)) := by
  rw [toReal_inPhase (buildWithTable_num T), realInner_tableWindow]
  rfl

theorem quadrature_tableWindow (T : Fin 100 → Sample) (a : Rat) (ph : Nat) :
    (quadrature (buildWithTable T) (carrierWindow (buildWithTable T) a 2 ph)).toReal =
      2 / 100 * (a * correlation (tableCarrier T 2 ph) (tableCarrier T 2 25)) := by
  rw [toReal_quadrature (buildWithTable_num T), realInner_tableWindow]
  rfl

/-! ### The margins of FSK -/

section
variable {T : Fin 100 → Sample} (hT : NearSines T)
include hT

/-- The energy at the carrier's own frequency (44_modulation.md R267). -/
theorem energy_same_ge {f : Nat} (hf : ¬ 100 ∣ f + f) :
    47.99 ^ 2 ≤ (energy (buildWithTable T) f (carrierWindow (buildWithTable T) 1 f 0)).toReal := by
  have hnear := correlation_near hT hf hf 0 0
  rw [correlation_ideal_same hf, sub_self, Real.cos_zero, mul_one, abs_le] at hnear
  have hlow : 47.99 ≤ correlation (tableCarrier T f 0) (tableCarrier T f 0) := by linarith [hnear.1]
  have hsq := pow_le_pow_left₀ (by norm_num) hlow 2
  rw [energy_tableWindow]
  linarith [sq_nonneg (correlation (tableCarrier T f 0) (tableCarrier T f 25))]

/-- The energy at a frequency where the ideal carrier has none (44_modulation.md R267). -/
theorem energy_other_le {f g : Nat} (hf : ¬ 100 ∣ f + f) (hg : ¬ 100 ∣ g + g)
    (horth : ∀ ph, correlation (idealCarrier f 0) (idealCarrier g ph) = 0) :
    (energy (buildWithTable T) g (carrierWindow (buildWithTable T) 1 f 0)).toReal ≤ 2 * 2.01 ^ 2 := by
  have hsq (ph : Nat) : correlation (tableCarrier T f 0) (tableCarrier T g ph) ^ 2 ≤ 2.01 ^ 2 := by
    have hnear := correlation_near hT hf hg 0 ph
    rw [horth, sub_zero] at hnear
    exact sq_le_sq' (by linarith [(abs_le.1 hnear).1]) (by linarith [(abs_le.1 hnear).2])
  rw [energy_tableWindow]
  linarith [hsq 0, hsq 25]

theorem energy_fskWindow_on {lc : LineCode} {l : Level} (hl : carrierOn lc l = true) :
    47.99 ^ 2 ≤ (energy (buildWithTable T) 4 (fskWindow (buildWithTable T) lc l)).toReal ∧
      (energy (buildWithTable T) 2 (fskWindow (buildWithTable T) lc l)).toReal ≤ 2 * 2.01 ^ 2 := by
  have hwindow : fskWindow (buildWithTable T) lc l = carrierWindow (buildWithTable T) 1 4 0 := by
    rw [fskWindow, present_eq_carrierOn, hl]; rfl
  rw [hwindow]
  exact ⟨energy_same_ge hT (by decide), energy_other_le hT (by decide) (by decide) fun ph =>
    correlation_ideal_of_add (f := 2) (d := 2) (by decide) (by decide) 0 ph⟩

theorem energy_fskWindow_off {lc : LineCode} {l : Level} (hl : carrierOn lc l = false) :
    47.99 ^ 2 ≤ (energy (buildWithTable T) 2 (fskWindow (buildWithTable T) lc l)).toReal ∧
      (energy (buildWithTable T) 4 (fskWindow (buildWithTable T) lc l)).toReal ≤ 2 * 2.01 ^ 2 := by
  have hwindow : fskWindow (buildWithTable T) lc l = carrierWindow (buildWithTable T) 1 2 0 := by
    rw [fskWindow, present_eq_carrierOn, hl]; rfl
  rw [hwindow]
  exact ⟨energy_same_ge hT (by decide), energy_other_le hT (by decide) (by decide) fun ph =>
    (correlation_comm _ _).trans (correlation_ideal_of_add (f := 2) (d := 2) (by decide) (by decide) ph 0)⟩

end

/-! ### The margins of 8-QAM -/

/-- The margin of a correlation, scaled to a component of amplitude `a` (44_modulation.md R264). -/
theorem component_near {a c d : ℝ} (ha : 0 ≤ a) (h : |c - 50 * d| ≤ 1.51) :
    |2 / 100 * (a * c) - a * d| ≤ 0.0302 * a := by
  rw [show 2 / 100 * (a * c) - a * d = a / 50 * (c - 50 * d) by ring, abs_mul, abs_of_nonneg (by positivity)]
  linarith [mul_le_mul_of_nonneg_left h (show 0 ≤ a / 50 by positivity)]

section
variable {T : Fin 100 → Sample} (hT : NearSines T) (a ph : Nat)
include hT

theorem inPhase_near :
    |(inPhase (buildWithTable T) (carrierWindow (buildWithTable T) a 2 ph)).toReal - a * Real.cos (angle ph)| ≤
      0.0302 * a := by
  have hnear := correlation_near hT (f := 2) (g := 2) (by decide) (by decide) ph 0
  have hzero : angle 0 = 0 := by simp [angle]
  rw [correlation_ideal_same (by decide), hzero, sub_zero] at hnear
  rw [inPhase_tableWindow, Rat.cast_natCast]
  exact component_near a.cast_nonneg hnear

theorem quadrature_near :
    |(quadrature (buildWithTable T) (carrierWindow (buildWithTable T) a 2 ph)).toReal - a * Real.sin (angle ph)| ≤
      0.0302 * a := by
  have hnear := correlation_near hT (f := 2) (g := 2) (by decide) (by decide) ph 25
  have hquarter : angle 25 = Real.pi / 2 := by unfold angle; push_cast; ring
  rw [correlation_ideal_same (by decide), hquarter, Real.cos_sub_pi_div_two] at hnear
  rw [quadrature_tableWindow, Rat.cast_natCast]
  exact component_near a.cast_nonneg hnear

end

/-! ### The margin of ASK -/

/-- Half a wave of the carrier, by telescoping. -/
theorem sin_mul_sum_half_wave :
    Real.sin (angle 1) * ∑ k ∈ Finset.range 25, idealCarrier 2 0 k = Real.cos (angle 1) := by
  have hterm (k : Nat) : Real.sin (angle 1) * idealCarrier 2 0 k =
      Real.cos (angle (2 * k) - angle 1) / 2 - Real.cos (angle (2 * (k + 1)) - angle 1) / 2 := by
    have hstep : angle (2 * (k + 1)) - angle 1 = angle (2 * k) + angle 1 := by unfold angle; push_cast; ring
    rw [hstep, Real.cos_sub, Real.cos_add, idealCarrier, Nat.add_zero]
    ring
  have hzero : angle (2 * 0) - angle 1 = -angle 1 := by unfold angle; push_cast; ring
  have hend : angle (2 * 25) - angle 1 = Real.pi - angle 1 := by unfold angle; push_cast; ring
  rw [Finset.mul_sum]
  simp only [hterm]
  rw [Finset.sum_range_sub', hzero, hend, Real.cos_neg, Real.cos_pi_sub]
  ring

/-- The enclosure of C(1) bounds cot(π/50). -/
theorem sum_half_wave_ge : 15.885 ≤ ∑ k ∈ Finset.range 25, idealCarrier 2 0 k := by
  have hangle : angle 1 = firstAngle := by unfold angle firstAngle; push_cast; ring
  have hpos : 0 < Real.sin (angle 1) :=
    Real.sin_pos_of_pos_of_lt_pi (by rw [hangle, firstAngle]; positivity)
      (by rw [hangle, firstAngle]; linarith [Real.pi_pos])
  have hlow : 0.998026728 ≤ Real.cos (angle 1) := by
    have h := encloses_start.below
    rw [hangle]
    norm_num [cosLow] at h ⊢
    exact h
  have hcot : 15.885 * Real.sin (angle 1) ≤ Real.cos (angle 1) := by
    refine le_of_sq_le_sq ?_ (by linarith)
    have hone := Real.sin_sq_add_cos_sq (angle 1)
    have hsq := pow_le_pow_left₀ (by norm_num) hlow 2
    linarith
  refine le_of_mul_le_mul_left ?_ hpos
  rw [sin_mul_sum_half_wave]
  linarith

/-- A quarter of the window; its first sample stands for a sine of 0. -/
theorem sum_abs_quarter_ge {T : Fin 100 → Sample} (hT : NearSines T) (j : Nat) :
    15.645 ≤ ∑ k ∈ Finset.range 25, |tableCarrier T 2 0 (25 * j + k)| := by
  have hideal (k : Nat) : |idealCarrier 2 0 (25 * j + k)| = |idealCarrier 2 0 k| := by
    have hangle : angle (2 * (25 * j + k) + 0) = angle (2 * k + 0) + j * Real.pi := by unfold angle; push_cast; ring
    rw [idealCarrier, hangle, Real.sin_add_nat_mul_pi, abs_mul, abs_pow, abs_neg, abs_one, one_pow, one_mul,
      idealCarrier]
  have hterm (k : Nat) : idealCarrier 2 0 k - 0.01 ≤ |tableCarrier T 2 0 (25 * j + k)| := by
    have hle := le_abs_self (idealCarrier 2 0 k)
    have hsub := abs_sub_abs_le_abs_sub (idealCarrier 2 0 (25 * j + k)) (tableCarrier T 2 0 (25 * j + k))
    rw [hideal, abs_sub_comm] at hsub
    linarith [tableCarrier_near hT 2 0 (25 * j + k)]
  have hwave := sum_half_wave_ge
  have hfirst : idealCarrier 2 0 0 = 0 := by simp [idealCarrier, angle]
  rw [Finset.sum_range_succ', hfirst, add_zero] at hwave
  have hrest := Finset.sum_le_sum fun k (_ : k ∈ Finset.range 24) => hterm (k + 1)
  rw [Finset.sum_sub_distrib, Finset.sum_const, Finset.card_range, nsmul_eq_mul] at hrest
  push_cast at hrest
  rw [Finset.sum_range_succ']
  linarith [abs_nonneg (tableCarrier T 2 0 (25 * j + 0))]

theorem sum_abs_window_ge {T : Fin 100 → Sample} (hT : NearSines T) :
    62.58 ≤ ∑ k ∈ Finset.range 100, |tableCarrier T 2 0 k| := by
  have hsplit : ∑ k ∈ Finset.range 100, |tableCarrier T 2 0 k| =
      ∑ j ∈ Finset.range 4, ∑ k ∈ Finset.range 25, |tableCarrier T 2 0 (25 * j + k)| := by
    simp only [Finset.sum_range_succ _ 3, Finset.sum_range_succ _ 2, Finset.sum_range_succ _ 1, Finset.sum_range_one]
    rw [Finset.sum_range_add _ 75 25, Finset.sum_range_add _ 50 25, Finset.sum_range_add _ 25 25]
    simp only [Nat.mul_zero, Nat.zero_add, Nat.reduceMul]
  have hsum := Finset.sum_le_sum fun j (_ : j ∈ Finset.range 4) => sum_abs_quarter_ge hT j
  rw [Finset.sum_const, Finset.card_range, nsmul_eq_mul] at hsum
  rw [hsplit]
  push_cast at hsum
  linarith

theorem meanAbs_askWindow_on {T : Fin 100 → Sample} (hT : NearSines T) {lc : LineCode} {l : Level}
    (hl : carrierOn lc l = true) :
    0.6258 ≤ (meanAbs (buildWithTable T) (askWindow (buildWithTable T) lc l)).toReal := by
  have hwindow : askWindow (buildWithTable T) lc l = carrierWindow (buildWithTable T) 1 2 0 := by
    rw [askWindow, present_eq_carrierOn, if_pos hl]; rfl
  rw [toReal_meanAbs (buildWithTable_num T), hwindow, realMeanAbs_tableWindow]
  linarith [sum_abs_window_ge hT]

theorem meanAbs_askWindow_off (T : Fin 100 → Sample) {lc : LineCode} {l : Level} (hl : carrierOn lc l = false) :
    (meanAbs (buildWithTable T) (askWindow (buildWithTable T) lc l)).toReal = 0 := by
  have hwindow : askWindow (buildWithTable T) lc l = List.replicate 100 Sample.zero := by
    rw [askWindow, present_eq_carrierOn, if_neg (by rw [hl]; decide)]; rfl
  rw [toReal_meanAbs (buildWithTable_num T), hwindow, realMeanAbs, List.map_replicate, toReal_zero, abs_zero,
    List.sum_replicate, smul_zero, zero_div]

end Sys2Proof.Machine
end

section
/-!
SUPPORT. With every table entry within 0.01 of its sine each demodulator decides every window as the symbol that made it
(44_modulation.md R267), so demodulating what was modulated rebuilds the levels from the presence bits and the padding
(`carDem_carMod`). The round trips of the build are the case of the exact table (44_modulation.md R253, R258, R266).
-/

namespace Sys2Proof.Machine

/-! ### The components of a symbol's window -/

section
variable {a d m : ℝ}

/-- The dominant component keeps its size and its sign. -/
theorem dominant_near {b0 : Bit} (ha : 0 < a) (h : |d - a * (if b0 then -1 else 1)| ≤ 0.0302 * a) :
    0.9698 * a ≤ |d| ∧ |d| ≤ 1.0302 * a ∧ (b0 = false ↔ 0 < d) := by
  obtain ⟨hlow, hhigh⟩ := abs_le.1 h
  cases b0 with
  | false =>
    simp only [Bool.false_eq_true, if_false] at hlow hhigh
    have hpos : 0 < d := by linarith
    rw [abs_of_pos hpos]
    exact ⟨by linarith, by linarith, iff_of_true rfl hpos⟩
  | true =>
    simp only [if_true] at hlow hhigh
    have hneg : d < 0 := by linarith
    rw [abs_of_neg hneg]
    exact ⟨by linarith, by linarith, iff_of_false nofun hneg.not_gt⟩

theorem squareSum_near (ha : 0 < a) (hlow : 0.9698 * a ≤ |d|) (hhigh : |d| ≤ 1.0302 * a) (hm : |m| ≤ 0.0302 * a) :
    0.9405 * a ^ 2 ≤ d ^ 2 + m ^ 2 ∧ d ^ 2 + m ^ 2 ≤ 1.0623 * a ^ 2 := by
  have hdlow := pow_le_pow_left₀ (by positivity) hlow 2
  have hdhigh := pow_le_pow_left₀ (abs_nonneg d) hhigh 2
  have hmhigh := pow_le_pow_left₀ (abs_nonneg m) hm 2
  rw [sq_abs] at hdlow hdhigh hmhigh
  have hsq := sq_nonneg a
  constructor
  · linarith [sq_nonneg m]
  · linarith

end

/-- R267's margins for I and Q of the window of a symbol with these bits b1 and b2. -/
def QamMargins (b1 b2 : Bit) (i q : ℝ) : Prop :=
  (b2 = false → 0.785 ≤ i ^ 2 + q ^ 2 ∧ i ^ 2 + q ^ 2 ≤ 1.241) ∧ (b2 = true → 3.55 ≤ i ^ 2 + q ^ 2) ∧
    (b1 = false → 0.92 ≤ |i| ∧ |q| ≤ 0.08) ∧ (b1 = true → 0.92 ≤ |q| ∧ |i| ≤ 0.08)

theorem QamMargins.swap {b1 b2 : Bit} {i q : ℝ} (h : QamMargins b1 b2 i q) : QamMargins (!b1) b2 q i := by
  obtain ⟨hone, htwo, hi, hq⟩ := h
  rw [QamMargins, add_comm, Bool.not_eq_false', Bool.not_eq_true']
  exact ⟨hone, htwo, hq, hi⟩

/-- The margins from the dominant component, I, and the other one. -/
theorem qamMargins_of_dominant {b2 : Bit} {i q : ℝ} (hlow : 0.9698 * (qamAmplitude b2 : ℝ) ≤ |i|)
    (hhigh : |i| ≤ 1.0302 * (qamAmplitude b2 : ℝ)) (hq : |q| ≤ 0.0302 * (qamAmplitude b2 : ℝ)) :
    QamMargins false b2 i q := by
  obtain ⟨hr2low, hr2high⟩ := squareSum_near (by unfold qamAmplitude; positivity) hlow hhigh hq
  cases b2 with
  | false =>
    norm_num [qamAmplitude] at hlow hhigh hq hr2low hr2high
    exact ⟨fun _ => ⟨by linarith, by linarith⟩, nofun, fun _ => ⟨by linarith, by linarith⟩, nofun⟩
  | true =>
    norm_num [qamAmplitude] at hlow hhigh hq hr2low hr2high
    exact ⟨nofun, fun _ => by linarith, fun _ => ⟨by linarith, by linarith⟩, nofun⟩

section
variable {T : Fin 100 → Sample} (hT : NearSines T) (b0 b1 b2 : Bit)
include hT

theorem qamWindow_near :
    let i := (inPhase (buildWithTable T) (qamWindow (buildWithTable T) b0 b1 b2)).toReal
    let q := (quadrature (buildWithTable T) (qamWindow (buildWithTable T) b0 b1 b2)).toReal
    |i - qamAmplitude b2 * Real.cos (angle (25 * qamPhase b0 b1))| ≤ 0.0302 * qamAmplitude b2 ∧
      |q - qamAmplitude b2 * Real.sin (angle (25 * qamPhase b0 b1))| ≤ 0.0302 * qamAmplitude b2 :=
  ⟨inPhase_near hT (qamAmplitude b2) _, quadrature_near hT (qamAmplitude b2) _⟩

theorem qamWindow_margins :
    let i := (inPhase (buildWithTable T) (qamWindow (buildWithTable T) b0 b1 b2)).toReal
    let q := (quadrature (buildWithTable T) (qamWindow (buildWithTable T) b0 b1 b2)).toReal
    QamMargins b1 b2 i q ∧ (b0 = false ↔ 0 < if b1 then q else i) := by
  intro i q
  have hpos : (0 : ℝ) < qamAmplitude b2 := by unfold qamAmplitude; positivity
  obtain ⟨hi, hq⟩ := qamWindow_near hT b0 b1 b2
  obtain ⟨hcos, hsin⟩ := phase_cos_sin b0 b1
  rw [hcos] at hi
  rw [hsin] at hq
  cases b1 with
  | false =>
    simp only [Bool.false_eq_true, if_false, mul_zero, sub_zero] at hi hq ⊢
    obtain ⟨hlow, hhigh, hsign⟩ := dominant_near hpos hi
    exact ⟨qamMargins_of_dominant hlow hhigh hq, hsign⟩
  | true =>
    simp only [if_true, mul_zero, sub_zero] at hi hq ⊢
    obtain ⟨hlow, hhigh, hsign⟩ := dominant_near hpos hq
    exact ⟨(qamMargins_of_dominant hlow hhigh hi).swap, hsign⟩

end

/-! ### The decisions on a sent window -/

/-- The margins and the sign of the dominant component decide the symbol (44_modulation.md R264). -/
theorem qamDecide_of_margins {p : Params Sample} (hp : p.num = .exact) {w : List Sample} {b0 b1 b2 : Bit}
    (hmargins : QamMargins b1 b2 (inPhase p w).toReal (quadrature p w).toReal)
    (hsign : b0 = false ↔ 0 < if b1 then (quadrature p w).toReal else (inPhase p w).toReal) :
    qamDecide p w = .ok [b0, b1, b2] := by
  have hphase := qamPhaseDecide_cases hp w
  rw [qamDecide_eq hp]
  generalize (inPhase p w).toReal = i at hmargins hsign hphase ⊢
  generalize (quadrature p w).toReal = q at hmargins hsign hphase ⊢
  obtain ⟨hone, htwo, hi, hq⟩ := hmargins
  have hr2 : ¬ (i ^ 2 + q ^ 2 < 1 / 4 ∨ i ^ 2 + q ^ 2 = 9 / 4) ∧ decide (9 / 4 < i ^ 2 + q ^ 2) = b2 := by
    cases b2 with
    | false =>
      obtain ⟨hlow, hhigh⟩ := hone rfl
      exact ⟨by rintro (h | h) <;> linarith, decide_eq_false (by linarith)⟩
    | true =>
      have hlow := htwo rfl
      exact ⟨by rintro (h | h) <;> linarith, decide_eq_true (by linarith)⟩
  obtain ⟨hinside, hamplitude⟩ := hr2
  have hanswer : qamPhaseDecide p w = .ok (b0, b1) := by
    cases b1 with
    | false =>
      obtain ⟨hlarge, hsmall⟩ := hi rfl
      obtain ⟨-, c0, hc0, h⟩ | ⟨hlt, -⟩ | ⟨heq, -⟩ := hphase
      · rw [h, show c0 = b0 from Bool.eq_iff_iff.2 (by simpa using not_congr (hc0.trans hsign.symm))]
      · linarith
      · linarith
    | true =>
      obtain ⟨hlarge, hsmall⟩ := hq rfl
      obtain ⟨hlt, -⟩ | ⟨-, c0, hc0, h⟩ | ⟨heq, -⟩ := hphase
      · linarith
      · rw [h, show c0 = b0 from Bool.eq_iff_iff.2 (by simpa using not_congr (hc0.trans hsign.symm))]
      · linarith
  rw [if_neg hinside, hanswer, chain_ok, hamplitude]

section
variable {T : Fin 100 → Sample} (hT : NearSines T)
include hT

theorem askDecide_askWindow (lc : LineCode) (l : Level) :
    askDecide (buildWithTable T) (askWindow (buildWithTable T) lc l) = .ok (carrierOn lc l) := by
  have hamplitude : (((buildWithTable T).aAsk : ℚ) : ℝ) = 1 := Rat.cast_one
  rw [askDecide_eq (buildWithTable_num T), hamplitude, ← toReal_meanAbs (buildWithTable_num T)]
  cases hl : carrierOn lc l with
  | false => rw [meanAbs_askWindow_off T hl, if_neg (by norm_num), if_pos (by norm_num)]
  | true => rw [if_pos (by linarith [meanAbs_askWindow_on hT hl])]

theorem fskDecide_fskWindow (lc : LineCode) (l : Level) :
    fskDecide (buildWithTable T) (fskWindow (buildWithTable T) lc l) = .ok (carrierOn lc l) := by
  have hcases := fskDecide_cases_exact (buildWithTable_num T) (fskWindow (buildWithTable T) lc l)
  have hone : (buildWithTable T).fFsk1 = 4 := rfl
  have htwo : (buildWithTable T).fFsk2 = 2 := rfl
  rw [hone, htwo] at hcases
  cases hl : carrierOn lc l with
  | false =>
    obtain ⟨hhigh, hlow⟩ := energy_fskWindow_off hT hl
    obtain ⟨hlt, -⟩ | ⟨-, h⟩ | ⟨heq, -⟩ := hcases
    · linarith
    · exact h
    · linarith
  | true =>
    obtain ⟨hhigh, hlow⟩ := energy_fskWindow_on hT hl
    obtain ⟨-, h⟩ | ⟨hlt, -⟩ | ⟨heq, -⟩ := hcases
    · exact h
    · linarith
    · linarith

theorem qamDecide_tableWindow (t : Symbol) :
    qamDecide (buildWithTable T) (qamWindow (buildWithTable T) t.1 t.2.1 t.2.2) = .ok (symbolBits t) := by
  obtain ⟨hmargins, hsign⟩ := qamWindow_margins hT t.1 t.2.1 t.2.2
  exact qamDecide_of_margins (buildWithTable_num T) hmargins hsign

end

/-! ### Demodulating what was modulated -/

/-- The bits that a modulator adds to the presence bits of `n` levels: 8-QAM's padding (44_modulation.md R263). -/
def padBits (car : Carrier) (n : Nat) : List Bit :=
  if car = .qam then List.replicate ((3 - n % 3) % 3) false else []

theorem qamMod_of_alphabet {ν : Type} {p : Params ν} (hp : p.maxLen = none) {lc : LineCode} {ls : List Level}
    (h : ∀ l ∈ ls, l ∈ alphabet lc) :
    qamMod p lc ls = .ok (qamWindows p (qamPad (ls.map (carrierOn lc)))) := by
  rw [qamMod, if_pos (List.all_eq_true.2 fun l hmem => inAlphabet_iff.2 (h l hmem)), within_unbounded hp,
    present_eq_carrierOn]

theorem qamWindows_flatMap {ν : Type} (p : Params ν) (ts : List Symbol) :
    qamWindows p (ts.flatMap symbolBits) = ts.flatMap fun t => qamWindow p t.1 t.2.1 t.2.2 := by
  induction ts with
  | nil => rfl
  | cons t ts ih => exact congrArg (qamWindow p t.1 t.2.1 t.2.2 ++ ·) ih

section
variable {T : Fin 100 → Sample} (hT : NearSines T)
include hT

theorem qamDem_qamWindows_table (lc : LineCode) {bits : List Bit} (h : bits.length % 3 = 0) :
    qamDem (buildWithTable T) lc (qamWindows (buildWithTable T) bits) = .ok (recon (buildWithTable T) lc bits) := by
  obtain ⟨ts, rfl⟩ := exists_symbols bits h
  have hlength (t : Symbol) : (qamWindow (buildWithTable T) t.1 t.2.1 t.2.2).length = 100 :=
    carrierWindow_length _ _ _ _
  rw [qamDem_eq (buildWithTable_maxLen T), qamWindows_flatMap,
    windowAnswers_flatMap hlength (qamDecide_tableWindow hT), chain_ok, List.flatMap_def]

/-- The round trip of each carrier (44_modulation.md R253, R258, R266, R267). -/
theorem carDem_carMod (car : Carrier) {lc : LineCode} {ls : List Level}
    (h : car = .qam → ∀ l ∈ ls, l ∈ alphabet lc) :
    ∃ xs, carMod (buildWithTable T) car lc ls = .ok xs ∧
      carDem (buildWithTable T) car lc xs =
        .ok (recon (buildWithTable T) lc (ls.map (carrierOn lc) ++ padBits car ls.length)) := by
  have hmax := buildWithTable_maxLen T
  cases car with
  | ask =>
    refine ⟨_, within_unbounded hmax .carrier _, ?_⟩
    rw [carDem, askDem_eq hmax, windowAnswers_flatMap (askWindow_length _ lc) (askDecide_askWindow hT lc), chain_ok,
      padBits, if_neg nofun, List.append_nil]
  | fsk =>
    refine ⟨_, within_unbounded hmax .carrier _, ?_⟩
    rw [carDem, fskDem_eq hmax, windowAnswers_flatMap (fskWindow_length _ lc) (fskDecide_fskWindow hT lc), chain_ok,
      padBits, if_neg nofun, List.append_nil]
  | qam =>
    refine ⟨_, qamMod_of_alphabet hmax (h rfl), ?_⟩
    rw [carDem, qamDem_qamWindows_table hT lc (qamPad_length_mod_three _), qamPad, List.length_map, padBits,
      if_pos rfl]

end

/-- STATUS after success, as the statements write it. -/
theorem successStatus_eq_append (op : Opcode) : successStatus op = 0#2 ++ op ++ 0#8 := statusWord_eq_append op 0#4 0#4

/-- Settles O42. -/
theorem sineTableMarginKeepsEveryDecision : Obligations.SineTableMarginKeepsEveryDecision := by
  intro T hT
  refine ⟨fun lc l => ⟨meanAbs_askWindow_on hT, meanAbs_askWindow_off T⟩,
    fun lc l => ⟨energy_fskWindow_on hT, energy_fskWindow_off hT⟩, fun b0 b1 b2 => ?_, fun car lc ls hls => ?_⟩
  · obtain ⟨hi, hq⟩ := qamWindow_near hT b0 b1 b2
    obtain ⟨hmargins, -⟩ := qamWindow_margins hT b0 b1 b2
    have hcast : ((qamAmplitude b2 : ℕ) : ℝ) = 1 + (b2.toNat : ℝ) := by rw [qamAmplitude]; push_cast; rfl
    have hamplitude : 0.0302 * ((qamAmplitude b2 : ℕ) : ℝ) ≤ 0.0804 := by cases b2 <;> norm_num [qamAmplitude]
    rw [← hcast]
    exact ⟨hi.trans hamplitude, hq.trans hamplitude, hmargins⟩
  · obtain ⟨xs, hmod, hdem⟩ := carDem_carMod hT car hls
    exact ⟨xs, _, rebuilds_recon rfl lc _,
      fun s hin => commandOn_modulator_of_ok hin hmod (successStatus_eq_append _),
      fun s hin => commandOn_demodulator_of_ok hin hdem (successStatus_eq_append _)⟩

/-! ### The round trips of the build -/

/-- The levels of a line encoder are rebuilt from their presence bits (44_modulation.md R245). -/
theorem recon_map_carrierOn (lc : LineCode) (bits : List Bit) :
    recon Config.build lc ((lineLevels lc bits).map (carrierOn lc)) = lineLevels lc bits := by
  rw [← present_eq_carrierOn, map_present_lineLevels]
  cases lc with
  | nrz => rfl
  | man => exact map_bitLevel_presence bits
  | ami => rfl

theorem amiLevels_append_false (pol : Polarity) (bits : List Bit) (n : Nat) :
    amiLevels pol (bits ++ List.replicate n false) = amiLevels pol bits ++ List.replicate n .zero := by
  induction bits generalizing pol with
  | nil =>
    induction n with
    | zero => rfl
    | succ n ih => exact congrArg (Level.zero :: ·) ih
  | cons b t ih => cases b <;> simp [amiLevels, ih]

/-- The level of a pad bit (44_modulation.md R266). -/
def padLevel : LineCode → Level
  | .nrz => .neg
  | .man => .zero
  | .ami => .zero

theorem code_padLevel (lc : LineCode) : Level.code (padLevel lc) = padCode lc := by cases lc <;> rfl

theorem recon_append_false (lc : LineCode) (bits : List Bit) (n : Nat) :
    recon Config.build lc (bits ++ List.replicate n false) =
      recon Config.build lc bits ++ List.replicate n (padLevel lc) := by
  cases lc with
  | nrz => rw [recon, List.map_append, List.map_replicate]; rfl
  | man => rw [recon, List.map_append, List.map_replicate]; rfl
  | ami => exact amiLevels_append_false _ _ _

/-- The physical layer of the build on what a line encoder sends: the levels come back, with the pad's levels behind. -/
theorem exists_gives_roundTrip (car : Carrier) (lc : LineCode) (bits : List Bit) :
    ∃ xs, Gives (modulator car lc) (.level ((lineLevels lc bits).map Level.code)) (.sample xs) ∧
      Gives (demodulator car lc) (.sample xs) (.level ((recon Config.build lc
        ((lineLevels lc bits).map (carrierOn lc) ++ padBits car (lineLevels lc bits).length)).map Level.code)) := by
  obtain ⟨xs, hmod, hdem⟩ := carDem_carMod nearSines_SINTAB car (lc := lc) (ls := lineLevels lc bits)
    fun _ l hl => inAlphabet_iff.1 (List.all_eq_true.1 (all_inAlphabet_lineLevels lc bits) l hl)
  rw [buildWithTable_ideal] at hmod hdem
  exact ⟨xs, gives_modulator hmod, gives_demodulator hdem⟩

/-- Settles O46. -/
theorem askAndFskRoundTrip : Obligations.AskAndFskRoundTrip := by
  intro car lc bits hcar
  obtain ⟨xs, hmod, hdem⟩ := exists_gives_roundTrip car lc bits
  have hpad : padBits car (lineLevels lc bits).length = [] := if_neg (by rintro rfl; simp at hcar)
  rw [hpad, List.append_nil, recon_map_carrierOn] at hdem
  exact ⟨_, xs, gives_lineEncoder lc bits, hmod, hdem⟩

/-- Settles O47. -/
theorem qamRoundTripsUpToPadding : Obligations.QamRoundTripsUpToPadding := by
  intro lc bits
  obtain ⟨xs, hmod, hdem⟩ := exists_gives_roundTrip .qam lc bits
  rw [padBits, if_pos rfl, recon_append_false, recon_map_carrierOn, List.map_append, List.map_replicate,
    code_padLevel] at hdem
  refine ⟨_, xs, gives_lineEncoder lc bits, hmod, ?_, ?_⟩
  · rw [List.length_map]
    exact hdem
  · rw [List.append_right_eq_self, List.replicate_eq_nil_iff]
    omega

end Sys2Proof.Machine
end

section
/-!
SUPPORT. SETSEL and XFER (45_pipeline.md R290, R291): which field codes are reserved, and what the two commands write
beside STATUS and the outputs.
-/

namespace Sys2Proof.Machine

/-! ### Reserved codes -/

section
variable {c : Code}

theorem framingOf_isSome_iff : (framingOf c).isSome ↔ c ≠ 3#2 := by revert c; decide

theorem detectionOf_isSome_iff : (detectionOf c).isSome ↔ c ≠ 3#2 := by revert c; decide

theorem correctionOf_isSome_iff : (correctionOf c).isSome ↔ ¬ 2#2 ≤ c := by revert c; decide

theorem lineCodeOf_isSome_iff : (lineCodeOf c).isSome ↔ c ≠ 3#2 := by revert c; decide

theorem carrierOf_isSome_iff : (carrierOf c).isSome ↔ c ≠ 3#2 := by revert c; decide

end

theorem schemesOf_isSome_iff {car lc cor det frm : Code} :
    (schemesOf car lc cor det frm).isSome ↔ (framingOf frm).isSome ∧ (detectionOf det).isSome ∧
      (correctionOf cor).isSome ∧ (lineCodeOf lc).isSome ∧ (carrierOf car).isSome := by
  rw [schemesOf]
  split
  next hfrm hdet hcor hlc hcar => simp [hfrm, hdet, hcor, hlc, hcar]
  next hnone =>
    simp only [Option.isSome_none, Bool.false_eq_true, false_iff, Option.isSome_iff_exists]
    rintro ⟨⟨f, hfrm⟩, ⟨d, hdet⟩, ⟨c, hcor⟩, ⟨l, hlc⟩, ⟨a, hcar⟩⟩
    exact hnone f d c l a hfrm hdet hcor hlc hcar

/-- R290's check: a field code is reserved (10_state.md R22, R23). -/
theorem not_schemesOf_isSome_iff {car lc cor det frm : Code} :
    ¬ (schemesOf car lc cor det frm).isSome ↔ frm = 3#2 ∨ det = 3#2 ∨ 2#2 ≤ cor ∨ lc = 3#2 ∨ car = 3#2 := by
  rw [schemesOf_isSome_iff, framingOf_isSome_iff, detectionOf_isSome_iff, correctionOf_isSome_iff,
    lineCodeOf_isSome_iff, carrierOf_isSome_iff]
  simp only [not_and_or, not_not]

/-! ### The statements -/

/-- A command that raises nothing writes STATUS and the outputs, and what `moved` says (60_exceptions.md R326). -/
theorem exec_of_moved {i : Instr} {s : State} {outs : Buffer × Buffer} {w : Word}
    (h : outcome Config.build i s = .ok outs) (hw : successStatus i.opcode = w) :
    exec i s = .next ((moved i s).ended w outs.1 outs.2) := by
  rw [exec_eq_commandOn, commandOn_of_ok h, succeed_eq_ended, hw]

/-- SEL as SETSEL writes it, from the values of its fields (30_encoding.md R81, 45_pipeline.md R290). -/
theorem selWord_selectorArgument (car lc cor det frm : Code) :
    selWord (selectorArgument car lc cor det frm) = 0x8000#16 |||
      BitVec.ofNat 16 (256 * car.toNat + 64 * lc.toNat + 16 * cor.toNat + 4 * det.toNat + frm.toNat) := by
  rw [selWord, ← BitVec.ofNat_toNat, selectorArgument_toNat]
  simp only [Nat.mul_comm]

/-- Settles O8: SETSEL succeeds exactly when its field codes select schemes. -/
theorem setselLoadsLegalSelectorsOnly : Obligations.SetselLoadsLegalSelectorsOnly := by
  intro s car lc cor det frm
  rw [← not_schemesOf_isSome_iff, not_not, ← selWord_selectorArgument]
  exact ⟨fun hreserved => exec_of_error (if_neg hreserved)
      (show errorStatus 0x01#6 configurationError = 0x0115#16 from rfl),
    fun hlegal => exec_of_moved (outs := (.none, .none)) (if_pos hlegal)
      (show successStatus 0x01#6 = 0x0100#16 from rfl)⟩

/-- Settles O9. -/
theorem xferMovesOut0ToIn : Obligations.XferMovesOut0ToIn := fun _ =>
  ⟨fun hnone => exec_of_error (e := configurationError) (if_pos hnone) rfl,
    fun hsome => exec_of_moved (outs := (.none, .none)) (if_neg hsome) rfl⟩

end Sys2Proof.Machine
end

section
/-!
SUPPORT. ENCODE and DECODE by their stages (45_pipeline.md R292, R293, R296, R297). A stage command that turns bits into
bits gives what its body gives and raises what its body raises (`RunsOnBits`), so each composed command is its stage
commands in order.
-/

namespace Sys2Proof.Machine

/-! ### Stage commands on bits -/

/-- The command applies `body` to the bits of IN and writes bits. -/
def RunsOnBits (i : Instr) (body : List Bit → Result (List Bit)) : Prop :=
  i.inKind = some 1#3 ∧ ∀ s, outcome Config.build i s = staged s.inBits body bitOutput

/-- The same for an optional stage: "none" is the identity (45_pipeline.md R297). -/
def RunsOnBitsIfAny (i : Option Instr) (body : List Bit → Result (List Bit)) : Prop :=
  match i with
  | none => body = .ok
  | some i => RunsOnBits i body

section
variable {i : Instr} {body : List Bit → Result (List Bit)} {x y : List Bit} {e : Raise}

theorem RunsOnBits.gives (h : RunsOnBits i body) (hx : body x = .ok y) : Gives i (.bit x) (.bit y) := by
  obtain ⟨hkind, hrun⟩ := h
  refine gives_of_outcome hkind fun s hin => ?_
  rw [hrun, inBits_ok hin, staged_ok, hx, chain_ok, bitOutput]

theorem RunsOnBits.raises (h : RunsOnBits i body) (hx : body x = .error e) : Raises i (.bit x) e.codes := by
  obtain ⟨-, hrun⟩ := h
  refine raises_of_outcome fun s hin => ?_
  rw [hrun, inBits_ok hin, staged_ok, hx, chain_error]

theorem RunsOnBitsIfAny.gives {i : Option Instr} (h : RunsOnBitsIfAny i body) (hx : body x = .ok y) :
    GivesIfAny i (.bit x) (.bit y) := by
  cases i with
  | none =>
    obtain rfl := h
    obtain rfl := Except.ok.inj hx
    rfl
  | some i => exact RunsOnBits.gives h hx

theorem RunsOnBitsIfAny.raises {i : Option Instr} (h : RunsOnBitsIfAny i body) (hx : body x = .error e) :
    ∃ j, i = some j ∧ Raises j (.bit x) e.codes := by
  cases i with
  | none =>
    obtain rfl := h
    cases hx
  | some i => exact ⟨i, rfl, RunsOnBits.raises h hx⟩

end

theorem framer_runs (f : Framing) : RunsOnBits (framer f) (frame Config.build f) := by
  cases f <;> exact ⟨rfl, fun _ => rfl⟩

theorem deframer_runs (f : Framing) : RunsOnBits (deframer f) (deframe Config.build f) := by
  cases f <;> exact ⟨rfl, fun _ => rfl⟩

theorem detectionEncoder_runs (d : Detection) : RunsOnBitsIfAny (detectionEncoder d) (detEnc Config.build d) := by
  cases d with
  | none => rfl
  | _ => exact ⟨rfl, fun _ => rfl⟩

theorem detectionDecoder_runs (d : Detection) : RunsOnBitsIfAny (detectionDecoder d) (detDec Config.build d) := by
  cases d with
  | none => rfl
  | _ => exact ⟨rfl, fun _ => rfl⟩

theorem correctionEncoder_runs (c : Correction) : RunsOnBitsIfAny (correctionEncoder c) (corEnc Config.build c) := by
  cases c with
  | none => rfl
  | hamming => exact ⟨rfl, fun _ => rfl⟩

theorem correctionDecoder_runs (c : Correction) : RunsOnBitsIfAny (correctionDecoder c) (corDec Config.build c) := by
  cases c with
  | none => rfl
  | hamming => exact ⟨rfl, fun _ => rfl⟩

/-! ### T2B and B2T -/

theorem gives_t2b (bytes : List Byte) : Gives .t2b (.byte bytes) (.bit (bytes.flatMap bytebits)) :=
  gives_of_ended (w := 0x0400#16) (by decide) fun _ hin => exec_t2b_ended hin

theorem gives_b2t {bits : List Bit} {bytes : List Byte} (h : b2t Config.build bits = .ok bytes) :
    Gives .b2t (.bit bits) (.byte bytes) :=
  gives_of_ended (w := 0x0500#16) (by decide) fun _ hin => exec_b2t_of_ok hin h

theorem raises_b2t {bits : List Bit} {e : Raise} (h : b2t Config.build bits = .error e) :
    Raises .b2t (.bit bits) e.codes :=
  raises_of_outcome fun s hin => by rw [outcome, inBits_ok hin, staged_ok, h, chain_error]

/-! ### The ends of ENCODE and DECODE -/

section
variable {s : State} {m : Schemes} {bytes : List Byte} {bits : List Bit} {e : Raise}

/-- What a stage raised, as ENCODE reports it (45_pipeline.md R296). -/
theorem exec_encode_raises (hm : s.Selects m) (hin : s.inBuf = .byte bytes)
    (h : encodeStages Config.build m bytes = .error e) :
    exec .encode s = .next (s.ended (0x30#8 ++ e.codes) .none .none) := by
  rw [exec_encode hm hin, h, chain_error, finish_error, raise_eq_ended, errorStatus, statusWord_eq_append]
  rfl

/-- What a stage raised, as DECODE reports it (45_pipeline.md R296). -/
theorem exec_decode_raises (hm : s.Selects m) (hin : s.inBuf = .bit bits)
    (h : decodeStages Config.build m bits = .error e) :
    exec .decode s = .next (s.ended (0x31#8 ++ e.codes) .none .none) := by
  rw [exec_decode_of_error hm hin h, errorStatus, statusWord_eq_append]
  rfl

theorem exec_decode_of_ok (hm : s.Selects m) (hin : s.inBuf = .bit bits)
    (h : decodeStages Config.build m bits = .ok bytes) :
    exec .decode s = .next (s.ended 0x3100#16 (.byte bytes) .none) := by
  rw [exec_decode hm hin, h]
  rfl

end

/-! ### ENCODE -/

/-- Length framing of 10000 bits or more raises (41_framing.md R131). -/
theorem encodeStages_of_long {m : Schemes} {bytes : List Byte} (hfrm : m.frm = .lengthPrefix)
    (hlong : 10000 ≤ 8 * bytes.length) : encodeStages Config.build m bytes = .error framingError := by
  have ht2b : t2b Config.build bytes = .ok (bytes.flatMap bytebits) := rfl
  have hframe : frame Config.build .lengthPrefix (bytes.flatMap bytebits) = .error framingError :=
    if_pos (by rwa [flatMap_bytebits_length])
  rw [encodeStages, ht2b, chain_ok, hfrm, hframe, chain_error]

/-- The stuffing framers take any bits, length framing fewer than 10000 (41_framing.md R131, R141, R151). -/
theorem frame_ok_of_fits {f : Framing} {x : List Bit} (h : f ≠ .lengthPrefix ∨ x.length < 10000) :
    ∃ framed, frame Config.build f x = .ok framed := by
  cases f with
  | lengthPrefix => exact frame_build_ok _ (h.resolve_left (not_not.2 rfl))
  | byteStuffing => exact ⟨_, frmByte_build x⟩
  | bitStuffing => exact ⟨_, frmBit_build x⟩

theorem encode_runs_stages {s : State} {m : Schemes} {bytes : List Byte} (hm : s.Selects m)
    (hin : s.inBuf = .byte bytes) (hfits : m.frm ≠ .lengthPrefix ∨ 8 * bytes.length < 10000) :
    ∃ raw framed det coded, Gives .t2b (.byte bytes) (.bit raw) ∧
      Gives (framer m.frm) (.bit raw) (.bit framed) ∧
      GivesIfAny (detectionEncoder m.det) (.bit framed) (.bit det) ∧
      GivesIfAny (correctionEncoder m.cor) (.bit det) (.bit coded) ∧
      exec .encode s = .next (s.ended 0x3000#16 (.bit coded) (.bit raw)) := by
  have ht2b : t2b Config.build bytes = .ok (bytes.flatMap bytebits) := rfl
  obtain ⟨framed, hframed⟩ := frame_ok_of_fits (x := bytes.flatMap bytebits) (by rwa [flatMap_bytebits_length])
  obtain ⟨det, hdet⟩ := detEnc_build_ok m.det framed
  obtain ⟨coded, hcoded⟩ := corEnc_build_ok m.cor det
  have hstages : encodeStages Config.build m bytes = .ok (coded, bytes.flatMap bytebits) := by
    rw [encodeStages, ht2b, chain_ok, hframed, chain_ok, hdet, chain_ok, hcoded, chain_ok]
  exact ⟨_, framed, det, coded, gives_t2b bytes, (framer_runs _).gives hframed, (detectionEncoder_runs _).gives hdet,
    (correctionEncoder_runs _).gives hcoded, exec_encode_of_ok hm hin hstages⟩

/-- Settles O49. -/
theorem encodeRunsItsStagesInOrder : Obligations.EncodeRunsItsStagesInOrder := fun _ _ _ hm hin =>
  ⟨fun hfrm hlong => exec_encode_raises hm hin (encodeStages_of_long hfrm hlong), encode_runs_stages hm hin⟩

/-! ### DECODE -/

theorem corDec_build_ok (c : Correction) (x : List Bit) : ∃ d1, corDec Config.build c x = .ok d1 := by
  cases c <;> exact ⟨_, rfl⟩

theorem decode_runs_stages {s : State} {m : Schemes} {bits : List Bit} (hm : s.Selects m) (hin : s.inBuf = .bit bits) :
    ∃ d1, GivesIfAny (correctionDecoder m.cor) (.bit bits) (.bit d1) ∧
      ((∃ i e, detectionDecoder m.det = some i ∧ Raises i (.bit d1) e ∧
          exec .decode s = .next (s.ended (0x31#8 ++ e) .none .none)) ∨
        ∃ d2, GivesIfAny (detectionDecoder m.det) (.bit d1) (.bit d2) ∧
          ((∃ e, Raises (deframer m.frm) (.bit d2) e ∧
              exec .decode s = .next (s.ended (0x31#8 ++ e) .none .none)) ∨
            ∃ d3, Gives (deframer m.frm) (.bit d2) (.bit d3) ∧
              ((∃ e, Raises .b2t (.bit d3) e ∧ exec .decode s = .next (s.ended (0x31#8 ++ e) .none .none)) ∨
                ∃ text, Gives .b2t (.bit d3) (.byte text) ∧
                  exec .decode s = .next (s.ended 0x3100#16 (.byte text) .none)))) := by
  obtain ⟨d1, hcor⟩ := corDec_build_ok m.cor bits
  refine ⟨d1, (correctionDecoder_runs _).gives hcor, ?_⟩
  cases hdet : detDec Config.build m.det d1 with
  | error e =>
    have hstages : decodeStages Config.build m bits = .error e := by
      rw [decodeStages, hcor, chain_ok, hdet, chain_error]
    obtain ⟨i, hi, hraises⟩ := (detectionDecoder_runs _).raises hdet
    exact .inl ⟨i, _, hi, hraises, exec_decode_raises hm hin hstages⟩
  | ok d2 =>
    refine .inr ⟨d2, (detectionDecoder_runs _).gives hdet, ?_⟩
    cases hdeframe : deframe Config.build m.frm d2 with
    | error e =>
      have hstages : decodeStages Config.build m bits = .error e := by
        rw [decodeStages, hcor, chain_ok, hdet, chain_ok, hdeframe, chain_error]
      exact .inl ⟨_, (deframer_runs _).raises hdeframe, exec_decode_raises hm hin hstages⟩
    | ok d3 =>
      have hstages : decodeStages Config.build m bits = b2t Config.build d3 := by
        rw [decodeStages, hcor, chain_ok, hdet, chain_ok, hdeframe, chain_ok]
      refine .inr ⟨d3, (deframer_runs _).gives hdeframe, ?_⟩
      cases hb2t : b2t Config.build d3 with
      | error e => exact .inl ⟨_, raises_b2t hb2t, exec_decode_raises hm hin (hstages.trans hb2t)⟩
      | ok text => exact .inr ⟨text, gives_b2t hb2t, exec_decode_of_ok hm hin (hstages.trans hb2t)⟩

theorem dfrLp_of_lengthFramed {framed payload : List Bit} (h : LengthFramed framed payload) :
    dfrLp Config.build framed = .ok payload := by
  obtain ⟨ds, hcount, hds, hlength, rfl⟩ := lengthFramed_iff.1 h
  exact (dfrLpFixed_digits (p := Config.build) rfl hcount hds).trans (if_pos hlength)

theorem b2t_of_text {bytes : List Byte} (h : Utf8Text bytes) :
    b2t Config.build (bytes.flatMap bytebits) = .ok bytes := by
  rw [b2t_flatMap_bytebits, if_pos (utf8WellFormed_iff.2 h)]

theorem decodeStages_of_lengthFramed {m : Schemes} (hfrm : m.frm = .lengthPrefix) (hdet : m.det = .none)
    (hcor : m.cor = .none) {bits : List Bit} {bytes : List Byte} (h : LengthFramed bits (bytes.flatMap bytebits))
    (ht : Utf8Text bytes) : decodeStages Config.build m bits = .ok bytes := by
  rw [decodeStages, hcor, corDec, chain_ok, hdet, detDec, chain_ok, hfrm, deframe, dfrLp_of_lengthFramed h, chain_ok,
    b2t_of_text ht]

/-- Settles O50. -/
theorem decodeRunsItsStagesInOrder : Obligations.DecodeRunsItsStagesInOrder := by
  intro s m bits hm hin
  refine ⟨decode_runs_stages hm hin, fun payload bytes hfrm hdet hcor hframed hbits ht => ?_⟩
  obtain rfl := msbFirst_iff.1 hbits
  exact exec_decode_of_ok hm hin (decodeStages_of_lengthFramed hfrm hdet hcor hframed ht)

end Sys2Proof.Machine
end

section
/-!
SUPPORT. The round-trip law (45_pipeline.md R298): each decoding stage takes back what its encoding stage added, and the
physical layer gives the coded bits back when no padding is sent.
-/

namespace Sys2Proof.Machine

/-! ### DECODE takes back what ENCODE added -/

section
variable {x y : List Bit}

theorem corDec_corEnc {c : Correction} (h : corEnc Config.build c x = .ok y) : corDec Config.build c y = .ok x := by
  have hpad := corDec_corEnc_append (pad := []) h (Nat.zero_le 4)
  rwa [List.append_nil, List.append_nil] at hpad

theorem parDec_withParity (x : List Bit) : parDec Config.build (withParity x) = .ok x := by
  have hne : withParity x ≠ [] := by simp [withParity]
  rw [parDec_of_even hne (count_withParity x), withParity, List.dropLast_concat]

theorem crcDec_checkBits (x : List Bit) : crcDec Config.build (x ++ checkBits x) = .ok x := by
  have hlength : (x ++ checkBits x).length = x.length + 3 := by rw [List.length_append, checkBits_length]
  rw [crcDec_of_dvd (by omega) (crcPolynomial_dvd_append_checkBits x), hlength, Nat.add_sub_cancel, List.take_left]

theorem detDec_detEnc {d : Detection} (h : detEnc Config.build d x = .ok y) : detDec Config.build d y = .ok x := by
  cases d with
  | none =>
    obtain rfl := Except.ok.inj h
    rfl
  | parity =>
    obtain rfl := Except.ok.inj ((parEnc_build x).symm.trans h)
    exact parDec_withParity x
  | crc =>
    obtain rfl := Except.ok.inj ((crcEnc_build x).symm.trans h)
    exact crcDec_checkBits x

theorem deframe_frame {f : Framing} (hshort : x.length < 10000) (h : frame Config.build f x = .ok y) :
    deframe Config.build f y = .ok x := by
  cases f with
  | lengthPrefix =>
    obtain rfl := Except.ok.inj ((frmLp_fixed (p := Config.build) rfl rfl hshort).symm.trans h)
    exact dfrLp_frmLp_fixed (p := Config.build) rfl rfl hshort
  | byteStuffing =>
    obtain rfl := Except.ok.inj ((frmByte_build x).symm.trans h)
    exact dfrByte_frmByte x
  | bitStuffing =>
    obtain rfl := Except.ok.inj ((frmBit_build x).symm.trans h)
    exact dfrBit_frmBit x

end

theorem decodeStages_encodeStages {m : Schemes} {bytes : List Byte} {coded raw : List Bit} (ht : Utf8Text bytes)
    (hshort : 8 * bytes.length < 10000) (h : encodeStages Config.build m bytes = .ok (coded, raw)) :
    decodeStages Config.build m coded = .ok bytes := by
  obtain ⟨x, hx, h⟩ := chain_eq_ok.1 h
  obtain ⟨framed, hframed, h⟩ := chain_eq_ok.1 h
  obtain ⟨det, hdet, h⟩ := chain_eq_ok.1 h
  obtain ⟨coded, hcoded, ⟨⟩⟩ := chain_eq_ok.1 h
  obtain rfl : bytes.flatMap bytebits = raw := Except.ok.inj hx
  rw [decodeStages, corDec_corEnc hcoded, chain_ok, detDec_detEnc hdet, chain_ok,
    deframe_frame (by rwa [flatMap_bytebits_length]) hframed, chain_ok, b2t_of_text ht]

/-! ### DEMODULATE takes back what MODULATE sent -/

/-- Manchester sends two levels per bit, the others one (43_line_coding.md R210, R213, R222). -/
theorem lineLevels_length (lc : LineCode) (bits : List Bit) :
    (lineLevels lc bits).length = (if lc = .man then 2 else 1) * bits.length := by
  cases lc with
  | nrz => rw [lineLevels, List.length_map, if_neg nofun, Nat.one_mul]
  | man => rw [← map_bitLevel_presence, List.length_map, length_presence_man, if_pos rfl]
  | ami => rw [lineLevels, amiLevels_length, if_neg nofun, Nat.one_mul]

/-- Only 8-QAM pads, and only a last symbol that the levels do not fill (44_modulation.md R263). -/
theorem padBits_eq_nil {car : Carrier} {n : Nat} (h : car ≠ .qam ∨ n % 3 = 0) : padBits car n = [] := by
  rw [padBits]
  split_ifs with hcar
  · rw [h.resolve_left (not_not.2 hcar)]
    rfl
  · rfl

theorem exists_samples_roundTrip (m : Schemes) (bits : List Bit) :
    ∃ xs, modulateStages Config.build m bits = .ok xs ∧
      (m.car ≠ .qam ∨ ((if m.lc = .man then 2 else 1) * bits.length) % 3 = 0 →
        demodulateStages Config.build m xs = .ok bits) := by
  obtain ⟨xs, hmod, hdem⟩ := carDem_carMod nearSines_SINTAB m.car (lc := m.lc) (ls := lineLevels m.lc bits)
    fun _ l hl => inAlphabet_iff.1 (List.all_eq_true.1 (all_inAlphabet_lineLevels m.lc bits) l hl)
  rw [buildWithTable_ideal] at hmod hdem
  refine ⟨xs, by rw [modulateStages, lineEnc_build, chain_ok, hmod], fun hfull => ?_⟩
  rw [← lineLevels_length] at hfull
  rw [demodulateStages, hdem, padBits_eq_nil hfull, List.append_nil, recon_map_carrierOn, chain_ok,
    lineDec_lineLevels]

/-- Settles O52. -/
theorem pipelineRoundTrips : Obligations.PipelineRoundTrips := by
  intro m bytes ht hshort
  obtain ⟨coded, raw, hencode⟩ := encodeStages_build_ok m hshort
  obtain ⟨xs, hmodulate, hdemodulate⟩ := exists_samples_roundTrip m coded
  exact ⟨coded, raw, xs, fun _ hm hin => exec_encode_of_ok hm hin hencode,
    fun _ hm hin => exec_modulate_of_ok hm hin hmodulate,
    fun hfull _ hm hin => exec_demodulate_of_ok hm hin (hdemodulate hfull),
    fun _ hm hin => exec_decode_of_ok hm hin (decodeStages_encodeStages ht hshort hencode)⟩

end Sys2Proof.Machine
end
